-- ==== Sys2Proof/Word.lean ====
section
/-! DEFINITION. The data types of the core: bytes, 32-bit words, blocks, keys, schedules (spec 00 R9 to R12). -/

namespace Sys2Proof

/-- A byte, bits 7 down to 0 (R11). -/
abbrev Byte := BitVec 8

/-- A 32-bit word (R11). -/
abbrev Word := BitVec 32

/-- A byte offset in the register window (R60). -/
abbrev Offset := BitVec 12

/-- A byte address of buffer memory (R70). -/
abbrev Address := BitVec 32

/-- A 16-byte sequence `b[0..15]`: a block, the State, a round key, the IV, the chaining value (R12). -/
abbrev Block := Vector Byte 16

/-- Four 32-bit registers that hold one block (R38). -/
abbrev Quad := Vector Word 4

/-- The 32-byte key as the eight registers that hold it, packed as R38. -/
abbrev Key := Vector Word 8

/-- The 240-byte key schedule as 60 words, byte `4n + j` of the schedule being byte `j` of word `n` (R37, R148). -/
abbrev KeySchedule := Vector Word 60

/-- The vector whose entry `i` is `f i`. -/
def tabulate {α : Type} {n : Nat} (f : Fin n → α) : Vector α n := ⟨⟨List.ofFn f⟩, by simp⟩

end Sys2Proof
end

