-- ==== Sys2Proof/Machine/FieldArith.lean ====
section
/-! DEFINITION. Arithmetic in GF(2^8) (spec 40_field_arithmetic.md): the subblocks gf256_double and gf256_mult. -/

namespace Sys2Proof.Machine

/-- `gf_double(a)` (R121): shift left, and reduce by 0x1B when bit 7 of the input is set. -/
def gfDouble (a : Byte) : Byte :=
  let r := a <<< 1
  if a.getLsbD 7 then r ^^^ 0x1B else r

/-- The peasant loop of R123 from accumulator `p`, for at most the given number of iterations. -/
def gfMultLoop : Nat → Byte → Byte → Byte → Byte
  | 0, p, _, _ => p
  | n + 1, p, a, b =>
    if b = 0 then p
    else gfMultLoop n (if b.getLsbD 0 then p ^^^ a else p) (gfDouble a) (b >>> 1)

/-- `gf_mult(a, b)` (R123): 8 iterations always suffice (R124). -/
def gfMult (a b : Byte) : Byte := gfMultLoop 8 0 a b

/-- How many times the loop of R123 runs for multiplier `b`, counting at most the given number (R124). -/
def gfIterations : Nat → Byte → Nat
  | 0, _ => 0
  | n + 1, b => if b = 0 then 0 else 1 + gfIterations n (b >>> 1)

end Sys2Proof.Machine
end

