-- ==== Sys2Proof/Syntax.lean ====
section
/-! DEFINITION. Syntax: the five commands (spec 30 R92), the named registers (10 R22), the host's turns on the two
ports and the reset pin (20 R60, 30 R98, 10 R49) and the host assembly (30 R99 to R101). -/

namespace Sys2Proof

/-- One constructor per row of the opcode table. No command carries an operand (R93), and the reserved bits of the
word are not part of a command (R95). -/
inductive Instr where
  | expandKey
  | encryptBlock
  | decryptBlock
  | cbcEncrypt
  | cbcDecrypt
  deriving DecidableEq, Repr

/-- The host-visible registers (R22). -/
inductive Reg where
  | cmd
  | status
  | src
  | dst
  | len
  | key (m : Fin 8)
  | iv (m : Fin 4)
  | din (m : Fin 4)
  | dout (m : Fin 4)
  | ks (w : Fin 60)
  deriving DecidableEq, Repr

/-- What the host does in one step. -/
inductive HostAct where
  /-- No access: only time for the core. -/
  | quiet
  /-- Transaction `(R, off, _)` (R98); the value read goes to the port's read data. -/
  | regRead (off : Offset)
  /-- Transaction `(W, off, data)` (R98). -/
  | regWrite (off : Offset) (data : Word)
  /-- `POLL`: the read is repeated in later steps until `v & mask = value` (R99). -/
  | poll (off : Offset) (mask value : Word)
  /-- The host reads one byte of its buffer memory (R70). -/
  | memRead (a : Address)
  /-- The host writes one byte of its buffer memory (R70). -/
  | memWrite (a : Address) (b : Byte)
  deriving DecidableEq, Repr

/-- One step of the host: the level of `rst` (R270), the access, and how many internal steps the core then takes
before the host's next turn (the open `LAT`, R290). -/
structure Turn where
  rst : Bool
  act : HostAct
  moves : Nat
  deriving DecidableEq, Repr

/-- The register operand of a host instruction: "a register name or offset" (R99). -/
inductive RegArg where
  | named (r : Reg)
  | offset (off : Nat)
  deriving DecidableEq, Repr

/-- The immediate of `WR`: "a 32-bit value or a command mnemonic" (R99). -/
inductive Imm where
  | value (v : Nat)
  | mnemonic (i : Instr)
  deriving DecidableEq, Repr

/-- The host assembly: three instructions (R99) and the pseudo-instructions (R101). A hex string is its list of
digits. -/
inductive AsmInstr where
  | wr (reg : RegArg) (imm : Imm)
  | rd (reg : RegArg)
  | poll (reg : RegArg) (mask value : Nat)
  | ldkey (digits : List (BitVec 4))
  | ldiv (digits : List (BitVec 4))
  | lddin (digits : List (BitVec 4))
  | setbuf (src dst len : Nat)
  | go (m : Imm)
  | wait
  | rdout
  | check
  deriving DecidableEq, Repr

end Sys2Proof
end

