-- ==== Sys2Proof/Decode.lean ====
section
/-! DEFINITION. Decoding of a word written to `CMD` (spec 30 R90 to R97) and the encoder. -/

namespace Sys2Proof

/-- Why a word is no command. -/
inductive DecodeError where
  /-- `OP` is 0x0 or 0x6 to 0xF (R94). -/
  | illegalOpcode (op : BitVec 4)
  deriving DecidableEq, Repr

/-- Field `OP` of format `CMD`: bits 3:0 (R91). -/
def opField (v : Word) : BitVec 4 := v.extractLsb' 0 4

/-- The opcode map (R92). -/
def decodeOp (op : BitVec 4) : Option Instr :=
  match op.toNat with
  | 0x1 => some .expandKey
  | 0x2 => some .encryptBlock
  | 0x3 => some .decryptBlock
  | 0x4 => some .cbcEncrypt
  | 0x5 => some .cbcDecrypt
  | _ => none

/-- Decode is total and reads `OP` alone (R95, R96). -/
def decode (v : Word) : Except DecodeError Instr :=
  match decodeOp (opField v) with
  | some i => .ok i
  | none => .error (.illegalOpcode (opField v))

/-- The `OP` value of each command (R92). -/
def opcode : Instr → BitVec 4
  | .expandKey => 0x1
  | .encryptBlock => 0x2
  | .decryptBlock => 0x3
  | .cbcEncrypt => 0x4
  | .cbcDecrypt => 0x5

/-- The command's word with the reserved bits 31:4 as given: any value of them encodes the same command (R95). -/
def encodeWith (reserved : BitVec 28) (i : Instr) : Word := reserved ++ opcode i

/-- The word software should write: reserved bits 0 (R91). -/
def encode (i : Instr) : Word := encodeWith 0 i

/-- A command is exactly one 32-bit word (R90); bits of `w` at and above `nbits` are 0. -/
def tableWord (nbits w : Nat) : Word := BitVec.ofNat 32 (w % 2 ^ nbits)

/-- The command the decoder reads from the opcode table's word `w`. -/
def decodeTableWord (nbits w : Nat) : Option Instr :=
  match decode (tableWord nbits w) with
  | .ok i => some i
  | .error _ => none

end Sys2Proof
end

