-- ==== Sys2Proof/Config.lean ====
section
/-! DEFINITION. What an implementation fixes (spec 00 R9, R10) and the free values the spec leaves open:
each free value is an opaque constant applied to the number of values drawn so far, so nothing can be proved of it. -/

namespace Sys2Proof.Config

/-- Bytes of buffer memory: addresses 0 to 0xFFFFFFFF (R10 `ADDR_W`, R70). -/
def addressSpace : Nat := 2 ^ 32

/-- Bytes of a block (R9). -/
def blockBytes : Nat := 16

/-- A 16-byte internal register after the command, or for `saved` the block step, that used it (R41 to R43, U2): draw number,
which register. -/
opaque freeBlock : Nat → Nat → Block

/-- An internal counter after the command that used it (R44, R45, U2): draw number, which counter. -/
opaque freeIndex : Nat → Nat → Nat

/-- `cur_op` outside a command (R21, U2). -/
opaque freeOp : Nat → BitVec 4

/-- The model's schedule under construction outside `EXPAND_KEY` (U2). -/
opaque freeSchedule : Nat → List Word

/-- `Rcon[j]` for `j` outside 1 to 7: of these the spec gives no value and lets none be assumed (R142; log 22). -/
opaque freeRcon : Nat → Byte

/-- How many internal steps a CBC command still took before a reset stopped it (R273, U4). -/
opaque resetLag : Nat → Nat

/-- Whether byte `j` of the block in flight holds its new value after a reset (R273, U4): draw number, `j`. -/
opaque tornByte : Nat → Nat → Bool

end Sys2Proof.Config
end

