-- ==== Sys2Proof/Machine/State.lean ====
section
/-! DEFINITION. The machine's state as plain data (spec 10_state.md), the reasons a step can stop, and the state
after reset (70 R271). -/

namespace Sys2Proof.Machine

/-- The sequencer phase (R21); `STATUS.BUSY` is 1 exactly when it is `busy` (R25). -/
inductive Phase where
  | idle
  | busy
  deriving DecidableEq, Repr

/-- Where the sequencer stands inside the command in progress (model's own; implied by R68, R143, R171, R205). -/
inductive Stage where
  /-- `EXPAND_KEY` computes the next word (R143). -/
  | expand
  /-- A CBC command reads block `k` (R205, memory-visible step 1). -/
  | read
  /-- The block transform does the next round (R171, R172). -/
  | round
  /-- A CBC command writes output block `k` (R205, memory-visible step 2). -/
  | write
  /-- The completion step is next (R68). -/
  | finish
  deriving DecidableEq, Repr

/-- The internal storage the host can never read (R21, R41 to R45). -/
structure Internal where
  /-- `cur_op` (R21). -/
  curOp : BitVec 4
  /-- The working State `s[0..15]` (R41). -/
  work : Block
  /-- The chaining value (R42). -/
  cv : Block
  /-- The input ciphertext block of `CBC_DECRYPT` (R43). -/
  saved : Block
  /-- The block index `k` (R45). -/
  blockIndex : Nat
  /-- The round index (R44). -/
  round : Nat
  /-- The key-schedule round counter (R44). -/
  rcon : Nat
  /-- The schedule under construction, last word first: the local `w` of R143 (model's own). -/
  sched : List Word
  /-- Model's own. -/
  stage : Stage
  deriving DecidableEq, Repr

/-- A run of backed byte addresses `base` to `base + size - 1` (R75). -/
structure Region where
  base : Nat
  size : Nat
  deriving DecidableEq, Repr

/-- Buffer memory as address and byte pairs in one canonical form (R70; log 2). -/
abbrev Memory := List Host.Cell

/-- The whole system: the core's registers and internal storage, the platform's memory, and the host's coming
turns. -/
structure State where
  phase : Phase
  done : Bool
  ksValid : Bool
  err : BitVec 4
  src : Word
  dst : Word
  len : Word
  key : Key
  iv : Quad
  din : Quad
  dout : Quad
  ks : KeySchedule
  int : Internal
  mem : Memory
  backed : List Region
  turns : List Turn
  moves : Nat
  readData : Word
  hostByte : Byte
  draws : Nat
  deriving DecidableEq, Repr

/-- Why the machine stops with a fault. -/
inductive Fault where
  /-- Raised by an internal step of a `BUSY` core whose sequencer is in a place no run reaches (R241, U9: "A model
  that finds such a case has a bug, and must not give it a value"). Safe: the model stops. -/
  | internalInvariant
  /-- Raised by a host turn that reads or writes a buffer-memory address the platform does not back (R75; log 11).
  Safe: the model stops where the spec gives the host's access no meaning. -/
  | hostUnbacked
  deriving DecidableEq, Repr

/-- Why the machine gives a step no meaning. -/
inductive Refusal where
  /-- The arm of `exec` has no meaning yet. Safe. -/
  | notModelled (mnemonic : String)
  /-- Raised by a host turn that touches the buffer of a running CBC command (R80 (5), R282, U7: "a model refuses a program
  that does it"). Safe: the model stops. -/
  | bufferRace
  deriving DecidableEq, Repr

/-- The outcome of a step. -/
abbrev Result := Host.Outcome State Fault Refusal

/-- The internal storage at reset: unspecified and unobservable in R271; the values named here are log 1. -/
def Internal.reset : Internal where
  curOp := 0
  work := Vector.replicate 16 0
  cv := Vector.replicate 16 0
  saved := Vector.replicate 16 0
  blockIndex := 0
  round := 0
  rcon := 1
  sched := []
  stage := .finish

/-- The state after reset (R271), with a platform that backs the whole address space (log 3), nothing in memory
(log 2) and no host turn waiting (log 5). The pace `moves` is 0, the model's choice, `LAT` being open (log 4): a command that
`withFetchWord` places in this state is accepted in its step and makes its internal steps in the steps after. -/
def State.reset : State where
  phase := .idle
  done := false
  ksValid := false
  err := 0
  src := 0
  dst := 0
  len := 0
  key := Vector.replicate 8 0
  iv := Vector.replicate 4 0
  din := Vector.replicate 4 0
  dout := Vector.replicate 4 0
  ks := Vector.replicate 60 0
  int := Internal.reset
  mem := []
  backed := [⟨0, Config.addressSpace⟩]
  turns := []
  moves := 0
  readData := 0
  hostByte := 0
  draws := 0

end Sys2Proof.Machine
end

