-- ==== Sys2Proof/Machine/Operands.lean ====
section
/-! DEFINITION. Operand forms: how byte sequences are packed into registers (spec 10 R38), how the KS store is sliced
(41 R144), and which register an offset selects (10 R22, 20 R60). -/

namespace Sys2Proof.Machine

/-- Byte `j` (0 to 3) of a word: byte 0 is in bits 31:24 (R38). -/
def byteOfWord (w : Word) (j : Nat) : Byte := w.extractLsb' (8 * (3 - j)) 8

/-- Four bytes as a word, the first in bits 31:24 (R38). -/
def wordOfBytes (b0 b1 b2 b3 : Byte) : Word := b0 ++ b1 ++ b2 ++ b3

/-- The block four registers hold (R34, R35, R38). -/
def blockOfQuad (q : Quad) : Block :=
  tabulate fun j => byteOfWord (q[j.val / 4]'(by omega)) (j.val % 4)

/-- The four registers that hold a block (R36, R38). -/
def quadOfBlock (b : Block) : Quad :=
  tabulate fun m =>
    wordOfBytes (b[4 * m.val]'(by omega)) (b[4 * m.val + 1]'(by omega)) (b[4 * m.val + 2]'(by omega))
      (b[4 * m.val + 3]'(by omega))

/-- Byte `i` of the key (R33). -/
def keyByte (k : Key) (i : Nat) : Byte := byteOfWord (k.toList.getD (i / 4) 0) (i % 4)

/-- Byte `ks[i]` of the KS store (R37, R40). -/
def ksByte (ks : KeySchedule) (i : Nat) : Byte := byteOfWord (ks.toList.getD (i / 4) 0) (i % 4)

/-- Round key `r`: `ks[16r .. 16r+15]` (R144). -/
def roundKey (ks : KeySchedule) (r : Nat) : Block := tabulate fun j => ksByte ks (16 * r + j.val)

/-- The offset of each register (R22). -/
def regOffset : Reg → Offset
  | .cmd => 0x000
  | .status => 0x004
  | .src => 0x008
  | .dst => 0x00C
  | .len => 0x010
  | .key m => BitVec.ofNat 12 (0x020 + 4 * m.val)
  | .iv m => BitVec.ofNat 12 (0x040 + 4 * m.val)
  | .din m => BitVec.ofNat 12 (0x050 + 4 * m.val)
  | .dout m => BitVec.ofNat 12 (0x060 + 4 * m.val)
  | .ks w => BitVec.ofNat 12 (0x100 + 4 * w.val)

/-- The offset an access acts on: bits 1:0 are ignored (R60). -/
def wordOffset (off : Offset) : Nat := (off &&& 0xFFC).toNat

/-- The register an access at `off` selects, none where the offset is unmapped (R22, R39, R60). -/
def regAt (off : Offset) : Option Reg :=
  let o := wordOffset off
  if o = 0x000 then some .cmd
  else if o = 0x004 then some .status
  else if o = 0x008 then some .src
  else if o = 0x00C then some .dst
  else if o = 0x010 then some .len
  else if h : 0x020 ≤ o ∧ o ≤ 0x03C then some (.key ⟨(o - 0x020) / 4, by omega⟩)
  else if h : 0x040 ≤ o ∧ o ≤ 0x04C then some (.iv ⟨(o - 0x040) / 4, by omega⟩)
  else if h : 0x050 ≤ o ∧ o ≤ 0x05C then some (.din ⟨(o - 0x050) / 4, by omega⟩)
  else if h : 0x060 ≤ o ∧ o ≤ 0x06C then some (.dout ⟨(o - 0x060) / 4, by omega⟩)
  else if h : 0x100 ≤ o ∧ o ≤ 0x1EC then some (.ks ⟨(o - 0x100) / 4, by omega⟩)
  else none

end Sys2Proof.Machine
end

