-- ==== Sys2Proof/Machine/Flags.lean ====
section
/-! DEFINITION. The status word (spec 10 R24 to R29), the error codes (60 R240) and the checks of a command
(60 R242). -/

namespace Sys2Proof.Machine

/-- The errors that reject a command (R240). -/
inductive ErrCode where
  | opcode
  | noKey
  | len
  | range
  | overlap
  deriving DecidableEq, Repr

/-- The code written to `STATUS.ERR` (R240); 0 is `OK`, 6 to 15 are never written. -/
def errCode : ErrCode → BitVec 4
  | .opcode => 1
  | .noKey => 2
  | .len => 3
  | .range => 4
  | .overlap => 5

/-- `STATUS.BUSY` (R25). -/
def busyBit (s : State) : Bool :=
  match s.phase with
  | .idle => false
  | .busy => true

/-- `x[STATUS] = zext_32({ERR, 0b0, KS_VALID, DONE, BUSY})` (R24). -/
def statusWord (s : State) : Word :=
  (s.err ++ 0#1 ++ BitVec.ofBool s.ksValid ++ BitVec.ofBool s.done ++ BitVec.ofBool (busyBit s)).setWidth 32

/-- The output pin `done`: "equals `STATUS.DONE` at all times" (R49). -/
def donePin (s : State) : Bool := s.done

/-- The number of blocks of a CBC command: `LEN / 16` (R205). -/
def blockCount (s : State) : Nat := s.len.toNat / 16

/-- The checks of a buffer, in exact integer arithmetic: length, range, overlap (R244 to R246). -/
def checkBuffer (a d n : Nat) : Option ErrCode :=
  if n % 16 ≠ 0 then some .len
  else if a + n > Config.addressSpace ∨ d + n > Config.addressSpace then some .range
  else if 0 < n ∧ a ≠ d ∧ a < d + n ∧ d < a + n then some .overlap
  else none

/-- `check(op)`: the first failing check, or none for `OK` (R242, R249). It reads only registers. -/
def check (op : BitVec 4) (s : State) : Option ErrCode :=
  if decodeOp op = none then some .opcode
  else if op ≠ 0x1 ∧ s.ksValid = false then some .noKey
  else if op = 0x4 ∨ op = 0x5 then checkBuffer s.src.toNat s.dst.toNat s.len.toNat
  else none

end Sys2Proof.Machine
end

