-- ==== Sys2Proof/Machine/Ops.lean ====
section
/-! DEFINITION. The named operations over buffer memory (spec 20 R70 to R77), over the register window (20 R60 to
R65), and the operations every command shares: acceptance (20 R66), rejection (60 R243), completion (20 R68). -/

namespace Sys2Proof.Machine

/-- What a buffer-memory byte that nothing has written reads as (log 2). -/
def unwritten : Byte := 0

/-- One byte of buffer memory. -/
def readByte : Memory → Nat → Byte
  | [], _ => unwritten
  | (x, b) :: rest, a => if x = a then b else readByte rest a

/-- Put a cell in front unless it holds what an unlisted address reads as. -/
def consCell (a : Nat) (b : Byte) (rest : Memory) : Memory :=
  if b = unwritten then rest else (a, b) :: rest

/-- Write one byte of buffer memory, keeping the canonical form. -/
def writeByte : Memory → Nat → Byte → Memory
  | [], a, b => consCell a b []
  | (x, c) :: rest, a, b =>
    if a < x then consCell a b ((x, c) :: rest)
    else if a = x then consCell a b rest
    else (x, c) :: writeByte rest a b

/-- Cells at addresses that rise strictly from `lo`, inside the address space, none equal to an unwritten byte. -/
def risingFrom : Nat → Memory → Bool
  | _, [] => true
  | lo, (a, b) :: rest =>
    decide (lo ≤ a) && decide (a < Config.addressSpace) && decide (b ≠ unwritten) && risingFrom (a + 1) rest

/-- The canonical form of buffer memory. -/
def Memory.wf (m : Memory) : Bool := risingFrom 0 m

/-- `MemRead(a, 16)`: byte `i` is the byte at `a + i` (R71, R76). -/
def readBlock (m : Memory) (a : Nat) : Block := tabulate fun j => readByte m (a + j.val)

/-- Writes `n` bytes in ascending order from address `a`, byte `i` being `f i` (R13). -/
def writeBytes : Nat → Memory → Nat → (Nat → Byte) → Memory
  | 0, m, _, _ => m
  | n + 1, m, a, f => writeBytes n (writeByte m a (f 0)) (a + 1) (fun i => f (i + 1))

/-- `MemWrite(a, 16, v)`: byte `v[i]` goes to address `a + i` (R13, R71, R76). -/
def writeBlock (m : Memory) (a : Nat) (v : Block) : Memory := writeBytes 16 m a (fun i => v.toList.getD i 0)

/-- Whether the platform backs byte address `a` (R75); no address outside the space is backed (R70). -/
def admitted (s : State) (a : Nat) : Bool :=
  decide (a < Config.addressSpace) && s.backed.any fun r => decide (r.base ≤ a) && decide (a < r.base + r.size)

/-- Whether a 16-byte request at `a` touches backed addresses only (R75). -/
def blockAdmitted (s : State) (a : Nat) : Bool := (List.range 16).all fun j => admitted s (a + j)

/-- The value of a register at the port: write-only registers read 0, the KS window reads 0 while
`KS_VALID = 0` (R37, R39, R62). -/
def readNamed (r : Reg) (s : State) : Word :=
  match r with
  | .cmd => 0
  | .status => statusWord s
  | .src => s.src
  | .dst => s.dst
  | .len => s.len
  | .key _ => 0
  | .iv m => s.iv[m]
  | .din m => s.din[m]
  | .dout m => s.dout[m]
  | .ks w => if s.ksValid then s.ks[w] else 0

/-- Register read (R62): an unmapped offset reads 0 (R39). Served in both phases. -/
def readReg (off : Offset) (s : State) : Word :=
  match regAt off with
  | some r => readNamed r s
  | none => 0

/-- Register write while `IDLE`, but for `CMD` (R63); read-only registers ignore it (R39). -/
def writeNamed (r : Reg) (v : Word) (s : State) : State :=
  match r with
  | .cmd => s
  | .status => s
  | .src => { s with src := v }
  | .dst => { s with dst := v }
  | .len => { s with len := v }
  | .key m => { s with key := s.key.set m v }
  | .iv m => { s with iv := s.iv.set m v }
  | .din m => { s with din := s.din.set m v }
  | .dout _ => s
  | .ks _ => s

/-- A write to a register other than `CMD`: it takes effect in its own step while `IDLE` (R63) and is ignored while
`BUSY` (R65). An unmapped offset ignores it (R39). -/
def writeReg (off : Offset) (v : Word) (s : State) : State :=
  match s.phase, regAt off with
  | .busy, _ => s
  | .idle, some r => writeNamed r v s
  | .idle, none => s

/-- Rejection, the core's only form of exception (R243, R250): `ERR` and `DONE` are written and nothing else. The
core has no trap entry and no return (R250, R251). -/
def reject (e : ErrCode) (s : State) : State := { s with done := true, err := errCode e }

/-- What acceptance writes when every check passes (R66): `DONE` and `ERR` cleared, `BUSY` set, `cur_op` latched. -/
def accepted (op : BitVec 4) (s : State) : State :=
  { s with done := false, err := 0, phase := .busy, int := { s.int with curOp := op } }

/-- The internal storage once a command has ended: unspecified and unobservable (R20, R41 to R45, U2), so free
(log 7); the counters keep the bounds R44 and R45 give. -/
def leftover (d : Nat) (i : Internal) : Internal where
  curOp := Config.freeOp d
  work := Config.freeBlock d 0
  cv := Config.freeBlock d 1
  saved := Config.freeBlock d 2
  blockIndex := Config.freeIndex d 0 % 2 ^ 28
  round := Config.freeIndex d 1 % 15
  rcon := 1 + Config.freeIndex d 2 % 8
  sched := Config.freeSchedule d
  stage := i.stage

/-- The part of the completion step all commands share (R68): `BUSY` cleared and `DONE` set; `ERR` stays. -/
def complete (s : State) : State :=
  { s with phase := .idle, done := true, int := leftover s.draws s.int, draws := s.draws + 1 }

/-- Go on from a next state; a fault or a refusal stops. -/
def andThen (r : Result) (f : State → Result) : Result :=
  match r with
  | .next s => f s
  | .fault e => .fault e
  | .refused e => .refused e

end Sys2Proof.Machine
end

