-- ==== Sys2Proof/Machine/BlockTransform.lean ====
section
/-! DEFINITION. The block transform (spec 42_block_transform.md): S-box, round operations, the cipher and its inverse,
and the internal steps of `ENCRYPT_BLOCK` and `DECRYPT_BLOCK`. -/

namespace Sys2Proof.Machine

/-- The S-box table of R160, one row per high nibble. -/
def sboxTable : List (List Byte) :=
  [[0x63, 0x7c, 0x77, 0x7b, 0xf2, 0x6b, 0x6f, 0xc5, 0x30, 0x01, 0x67, 0x2b, 0xfe, 0xd7, 0xab, 0x76],
   [0xca, 0x82, 0xc9, 0x7d, 0xfa, 0x59, 0x47, 0xf0, 0xad, 0xd4, 0xa2, 0xaf, 0x9c, 0xa4, 0x72, 0xc0],
   [0xb7, 0xfd, 0x93, 0x26, 0x36, 0x3f, 0xf7, 0xcc, 0x34, 0xa5, 0xe5, 0xf1, 0x71, 0xd8, 0x31, 0x15],
   [0x04, 0xc7, 0x23, 0xc3, 0x18, 0x96, 0x05, 0x9a, 0x07, 0x12, 0x80, 0xe2, 0xeb, 0x27, 0xb2, 0x75],
   [0x09, 0x83, 0x2c, 0x1a, 0x1b, 0x6e, 0x5a, 0xa0, 0x52, 0x3b, 0xd6, 0xb3, 0x29, 0xe3, 0x2f, 0x84],
   [0x53, 0xd1, 0x00, 0xed, 0x20, 0xfc, 0xb1, 0x5b, 0x6a, 0xcb, 0xbe, 0x39, 0x4a, 0x4c, 0x58, 0xcf],
   [0xd0, 0xef, 0xaa, 0xfb, 0x43, 0x4d, 0x33, 0x85, 0x45, 0xf9, 0x02, 0x7f, 0x50, 0x3c, 0x9f, 0xa8],
   [0x51, 0xa3, 0x40, 0x8f, 0x92, 0x9d, 0x38, 0xf5, 0xbc, 0xb6, 0xda, 0x21, 0x10, 0xff, 0xf3, 0xd2],
   [0xcd, 0x0c, 0x13, 0xec, 0x5f, 0x97, 0x44, 0x17, 0xc4, 0xa7, 0x7e, 0x3d, 0x64, 0x5d, 0x19, 0x73],
   [0x60, 0x81, 0x4f, 0xdc, 0x22, 0x2a, 0x90, 0x88, 0x46, 0xee, 0xb8, 0x14, 0xde, 0x5e, 0x0b, 0xdb],
   [0xe0, 0x32, 0x3a, 0x0a, 0x49, 0x06, 0x24, 0x5c, 0xc2, 0xd3, 0xac, 0x62, 0x91, 0x95, 0xe4, 0x79],
   [0xe7, 0xc8, 0x37, 0x6d, 0x8d, 0xd5, 0x4e, 0xa9, 0x6c, 0x56, 0xf4, 0xea, 0x65, 0x7a, 0xae, 0x08],
   [0xba, 0x78, 0x25, 0x2e, 0x1c, 0xa6, 0xb4, 0xc6, 0xe8, 0xdd, 0x74, 0x1f, 0x4b, 0xbd, 0x8b, 0x8a],
   [0x70, 0x3e, 0xb5, 0x66, 0x48, 0x03, 0xf6, 0x0e, 0x61, 0x35, 0x57, 0xb9, 0x86, 0xc1, 0x1d, 0x9e],
   [0xe1, 0xf8, 0x98, 0x11, 0x69, 0xd9, 0x8e, 0x94, 0x9b, 0x1e, 0x87, 0xe9, 0xce, 0x55, 0x28, 0xdf],
   [0x8c, 0xa1, 0x89, 0x0d, 0xbf, 0xe6, 0x42, 0x68, 0x41, 0x99, 0x2d, 0x0f, 0xb0, 0x54, 0xbb, 0x16]]

/-- The inverse S-box table of R161, one row per high nibble. -/
def invSboxTable : List (List Byte) :=
  [[0x52, 0x09, 0x6a, 0xd5, 0x30, 0x36, 0xa5, 0x38, 0xbf, 0x40, 0xa3, 0x9e, 0x81, 0xf3, 0xd7, 0xfb],
   [0x7c, 0xe3, 0x39, 0x82, 0x9b, 0x2f, 0xff, 0x87, 0x34, 0x8e, 0x43, 0x44, 0xc4, 0xde, 0xe9, 0xcb],
   [0x54, 0x7b, 0x94, 0x32, 0xa6, 0xc2, 0x23, 0x3d, 0xee, 0x4c, 0x95, 0x0b, 0x42, 0xfa, 0xc3, 0x4e],
   [0x08, 0x2e, 0xa1, 0x66, 0x28, 0xd9, 0x24, 0xb2, 0x76, 0x5b, 0xa2, 0x49, 0x6d, 0x8b, 0xd1, 0x25],
   [0x72, 0xf8, 0xf6, 0x64, 0x86, 0x68, 0x98, 0x16, 0xd4, 0xa4, 0x5c, 0xcc, 0x5d, 0x65, 0xb6, 0x92],
   [0x6c, 0x70, 0x48, 0x50, 0xfd, 0xed, 0xb9, 0xda, 0x5e, 0x15, 0x46, 0x57, 0xa7, 0x8d, 0x9d, 0x84],
   [0x90, 0xd8, 0xab, 0x00, 0x8c, 0xbc, 0xd3, 0x0a, 0xf7, 0xe4, 0x58, 0x05, 0xb8, 0xb3, 0x45, 0x06],
   [0xd0, 0x2c, 0x1e, 0x8f, 0xca, 0x3f, 0x0f, 0x02, 0xc1, 0xaf, 0xbd, 0x03, 0x01, 0x13, 0x8a, 0x6b],
   [0x3a, 0x91, 0x11, 0x41, 0x4f, 0x67, 0xdc, 0xea, 0x97, 0xf2, 0xcf, 0xce, 0xf0, 0xb4, 0xe6, 0x73],
   [0x96, 0xac, 0x74, 0x22, 0xe7, 0xad, 0x35, 0x85, 0xe2, 0xf9, 0x37, 0xe8, 0x1c, 0x75, 0xdf, 0x6e],
   [0x47, 0xf1, 0x1a, 0x71, 0x1d, 0x29, 0xc5, 0x89, 0x6f, 0xb7, 0x62, 0x0e, 0xaa, 0x18, 0xbe, 0x1b],
   [0xfc, 0x56, 0x3e, 0x4b, 0xc6, 0xd2, 0x79, 0x20, 0x9a, 0xdb, 0xc0, 0xfe, 0x78, 0xcd, 0x5a, 0xf4],
   [0x1f, 0xdd, 0xa8, 0x33, 0x88, 0x07, 0xc7, 0x31, 0xb1, 0x12, 0x10, 0x59, 0x27, 0x80, 0xec, 0x5f],
   [0x60, 0x51, 0x7f, 0xa9, 0x19, 0xb5, 0x4a, 0x0d, 0x2d, 0xe5, 0x7a, 0x9f, 0x93, 0xc9, 0x9c, 0xef],
   [0xa0, 0xe0, 0x3b, 0x4d, 0xae, 0x2a, 0xf5, 0xb0, 0xc8, 0xeb, 0xbb, 0x3c, 0x83, 0x53, 0x99, 0x61],
   [0x17, 0x2b, 0x04, 0x7e, 0xba, 0x77, 0xd6, 0x26, 0xe1, 0x69, 0x14, 0x63, 0x55, 0x21, 0x0c, 0x7d]]

/-- The entry of a table at row high nibble, column low nibble (R160). -/
def tableEntry (t : List (List Byte)) (x : Byte) : Byte := (t.getD (x.toNat / 16) []).getD (x.toNat % 16) 0

/-- `sbox(x)` (R160). -/
def sbox (x : Byte) : Byte := tableEntry sboxTable x

/-- `inv_sbox(y)` (R161). -/
def invSbox (y : Byte) : Byte := tableEntry invSboxTable y

/-- The State byte at a row and column, both taken modulo 4: index `column*4 + row` (R162). -/
def stateAt (s : Block) (row col : Nat) : Byte := s[(col % 4) * 4 + row % 4]'(by omega)

/-- Byte-wise exclusive-or of two blocks (R12). -/
def xorBlock (x y : Block) : Block := tabulate fun j => x[j] ^^^ y[j]

/-- SubBytes (R164). -/
def subBytes (s : Block) : Block := tabulate fun j => sbox s[j]

/-- ShiftRows (R165): new (row r, column c) is old (row r, column c + r mod 4). -/
def shiftRows (s : Block) : Block := tabulate fun j => stateAt s (j.val % 4) (j.val / 4 + j.val % 4)

/-- One column of MixColumns (R166): the byte of the given row. -/
def mixColumn (a0 a1 a2 a3 : Byte) : Nat → Byte
  | 0 => gfMult a0 2 ^^^ gfMult a1 3 ^^^ a2 ^^^ a3
  | 1 => a0 ^^^ gfMult a1 2 ^^^ gfMult a2 3 ^^^ a3
  | 2 => a0 ^^^ a1 ^^^ gfMult a2 2 ^^^ gfMult a3 3
  | _ => gfMult a0 3 ^^^ a1 ^^^ a2 ^^^ gfMult a3 2

/-- One column of InvMixColumns (R170): the byte of the given row. -/
def invMixColumn (a0 a1 a2 a3 : Byte) : Nat → Byte
  | 0 => gfMult a0 14 ^^^ gfMult a1 11 ^^^ gfMult a2 13 ^^^ gfMult a3 9
  | 1 => gfMult a0 9 ^^^ gfMult a1 14 ^^^ gfMult a2 11 ^^^ gfMult a3 13
  | 2 => gfMult a0 13 ^^^ gfMult a1 9 ^^^ gfMult a2 14 ^^^ gfMult a3 11
  | _ => gfMult a0 11 ^^^ gfMult a1 13 ^^^ gfMult a2 9 ^^^ gfMult a3 14

/-- A column transform applied to each of the four columns. -/
def onColumns (f : Byte → Byte → Byte → Byte → Nat → Byte) (s : Block) : Block :=
  tabulate fun j =>
    let c := j.val / 4
    f (stateAt s 0 c) (stateAt s 1 c) (stateAt s 2 c) (stateAt s 3 c) (j.val % 4)

/-- MixColumns (R166). -/
def mixColumns (s : Block) : Block := onColumns mixColumn s

/-- AddRoundKey (R167). -/
def addRoundKey (s rk : Block) : Block := xorBlock s rk

/-- InvSubBytes (R168). -/
def invSubBytes (s : Block) : Block := tabulate fun j => invSbox s[j]

/-- InvShiftRows (R169): new (row r, column c) is old (row r, column c - r mod 4). -/
def invShiftRows (s : Block) : Block := tabulate fun j => stateAt s (j.val % 4) (j.val / 4 + 4 - j.val % 4)

/-- InvMixColumns (R170). -/
def invMixColumns (s : Block) : Block := onColumns invMixColumn s

/-- Rounds 1 to 13 of the cipher (R171). -/
def encFullRound (ks : KeySchedule) (s : Block) (r : Nat) : Block :=
  addRoundKey (mixColumns (shiftRows (subBytes s))) (roundKey ks r)

/-- `encrypt_block(ks, in)` (R171). -/
def encryptBlock (ks : KeySchedule) (b : Block) : Block :=
  let s0 := addRoundKey b (roundKey ks 0)
  let s13 := [1, 2, 3, 4, 5, 6, 7, 8, 9, 10, 11, 12, 13].foldl (encFullRound ks) s0
  addRoundKey (shiftRows (subBytes s13)) (roundKey ks 14)

/-- Rounds 13 down to 1 of the inverse cipher (R172). -/
def decFullRound (ks : KeySchedule) (s : Block) (r : Nat) : Block :=
  invMixColumns (addRoundKey (invSubBytes (invShiftRows s)) (roundKey ks r))

/-- `decrypt_block(ks, in)` (R172). -/
def decryptBlock (ks : KeySchedule) (b : Block) : Block :=
  let s0 := addRoundKey b (roundKey ks 14)
  let s13 := [13, 12, 11, 10, 9, 8, 7, 6, 5, 4, 3, 2, 1].foldl (decFullRound ks) s0
  addRoundKey (invSubBytes (invShiftRows s13)) (roundKey ks 0)

/-- What the cipher does to the State at round index `r` = 0 to 14 (R44, R171). -/
def encRound (ks : KeySchedule) (r : Nat) (s : Block) : Block :=
  if r = 0 then addRoundKey s (roundKey ks 0)
  else if r < 14 then encFullRound ks s r
  else addRoundKey (shiftRows (subBytes s)) (roundKey ks 14)

/-- What the inverse cipher does to the State at round index `r` = 0 to 14, round keys in reverse order
(R44, R172). -/
def decRound (ks : KeySchedule) (r : Nat) (s : Block) : Block :=
  if r = 0 then addRoundKey s (roundKey ks 14)
  else if r < 14 then decFullRound ks s (14 - r)
  else addRoundKey (invSubBytes (invShiftRows s)) (roundKey ks 0)

/-- One round of the block transform on the working State; after round 14 the sequencer goes to `after`. A round index
past 14 is an internal invariant failure (R44, R241). -/
def roundMove (f : KeySchedule → Nat → Block → Block) (after : Stage) (s : State) : Result :=
  let w := f s.ks s.int.round s.int.work
  if s.int.round < 14 then .next { s with int := { s.int with work := w, round := s.int.round + 1 } }
  else if s.int.round = 14 then .next { s with int := { s.int with work := w, stage := after } }
  else .fault .internalInvariant

/-- Load a block into the working State and start at round 0 (R41, R162). -/
def loadState (b : Block) (i : Internal) : Internal := { i with work := b, round := 0, stage := .round }

/-- `start(ENCRYPT_BLOCK)`: the input block is `DIN0..3` (R175). -/
def startEncryptBlock (s : State) : State := { s with int := loadState (blockOfQuad s.din) s.int }

/-- `start(DECRYPT_BLOCK)`: the input block is `DIN0..3` (R176). -/
def startDecryptBlock (s : State) : State := { s with int := loadState (blockOfQuad s.din) s.int }

/-- An internal step of `ENCRYPT_BLOCK`: a round, or the completion step that commits `DOUT0..3` (R68, R175). -/
def moveEncryptBlock (s : State) : Result :=
  match s.int.stage with
  | .round => roundMove encRound .finish s
  | .finish => .next (complete { s with dout := quadOfBlock s.int.work })
  | .expand => .fault .internalInvariant
  | .read => .fault .internalInvariant
  | .write => .fault .internalInvariant

/-- An internal step of `DECRYPT_BLOCK`: a round, or the completion step that commits `DOUT0..3` (R68, R176). -/
def moveDecryptBlock (s : State) : Result :=
  match s.int.stage with
  | .round => roundMove decRound .finish s
  | .finish => .next (complete { s with dout := quadOfBlock s.int.work })
  | .expand => .fault .internalInvariant
  | .read => .fault .internalInvariant
  | .write => .fault .internalInvariant

end Sys2Proof.Machine
end

