-- ==== Sys2Proof/Machine/Cbc.lean ====
section
/-! DEFINITION. The chaining mode (spec 43_cbc_mode.md) and the internal steps of `CBC_ENCRYPT` and `CBC_DECRYPT`. -/

namespace Sys2Proof.Machine

/-- `cbc_enc_step(ks, cv, p)`: the output block and the next chaining value (R201). -/
def cbcEncStep (ks : KeySchedule) (cv p : Block) : Block × Block :=
  let c := encryptBlock ks (xorBlock p cv)
  (c, c)

/-- `cbc_dec_step(ks, cv, c)`: the output block and the next chaining value (R202). -/
def cbcDecStep (ks : KeySchedule) (cv c : Block) : Block × Block :=
  (xorBlock (decryptBlock ks c) cv, c)

/-- The output blocks of a chaining step over a list of input blocks, from chaining value `cv` (R207, R208). -/
def cbcChain (f : Block → Block → Block × Block) : Block → List Block → List Block
  | _, [] => []
  | cv, b :: rest => (f cv b).1 :: cbcChain f (f cv b).2 rest

/-- The ciphertext blocks of R207's closed form. -/
def cbcEncryptBlocks (ks : KeySchedule) (iv : Block) (p : List Block) : List Block := cbcChain (cbcEncStep ks) iv p

/-- The plaintext blocks of R208's closed form. -/
def cbcDecryptBlocks (ks : KeySchedule) (iv : Block) (c : List Block) : List Block := cbcChain (cbcDecStep ks) iv c

/-- The `n` blocks of buffer memory from byte address `a` (R204). -/
def loadBlocks : Nat → Memory → Nat → List Block
  | 0, _, _ => []
  | n + 1, m, a => readBlock m a :: loadBlocks n m (a + 16)

/-- Blocks written one after another from byte address `a` (R204). -/
def storeBlocks : Memory → Nat → List Block → Memory
  | m, _, [] => m
  | m, a, b :: rest => storeBlocks (writeBlock m a b) (a + 16) rest

/-- The byte address of input block `k` (R204). -/
def srcAddr (s : State) (k : Nat) : Nat := s.src.toNat + 16 * k

/-- The byte address of output block `k` (R204). -/
def dstAddr (s : State) (k : Nat) : Nat := s.dst.toNat + 16 * k

/-- What follows when `k` blocks are finished: the next block's read, or completion (R205 to R208). -/
def cbcStage (s : State) (k : Nat) : Stage := if k < blockCount s then .read else .finish

/-- The start of a CBC command: the chaining value is `IV0..3` and no block is finished (R45, R203). -/
def startCbc (s : State) : State :=
  { s with int := { s.int with cv := blockOfQuad s.iv, blockIndex := 0, stage := cbcStage s 0 } }

/-- `start(CBC_ENCRYPT)` (R207). -/
def startCbcEncrypt (s : State) : State := startCbc s

/-- `start(CBC_DECRYPT)` (R208). -/
def startCbcDecrypt (s : State) : State := startCbc s

/-- Memory-visible step 1 of block `k`: `MemRead(SRC + 16k, 16)` (R205). A request that touches an unbacked address has no
step: nothing changes and the core stays `BUSY` (R75, log 9). -/
def cbcRead (load : Block → Internal → Internal) (s : State) : Result :=
  let k := s.int.blockIndex
  if k < blockCount s then
    if blockAdmitted s (srcAddr s k) then .next { s with int := load (readBlock s.mem (srcAddr s k)) s.int }
    else .next s
  else .fault .internalInvariant

/-- Memory-visible step 2 of block `k`: `MemWrite(DST + 16k, 16, out)`, then `cv <- cv'` and `k <- k + 1` (R205), the
register `saved` becoming `saved'`; an unbacked address as in `cbcRead`. -/
def cbcWrite (out cv' saved' : Block) (s : State) : Result :=
  let k := s.int.blockIndex
  if k < blockCount s then
    if blockAdmitted s (dstAddr s k) then
      .next { s with
        mem := writeBlock s.mem (dstAddr s k) out
        int := { s.int with cv := cv', saved := saved', blockIndex := k + 1, stage := cbcStage s (k + 1) } }
    else .next s
  else .fault .internalInvariant

/-- `CBC_ENCRYPT` loads the plaintext block XOR the chaining value (R201). -/
def loadCbcEncrypt (b : Block) (i : Internal) : Internal := loadState (xorBlock b i.cv) i

/-- `CBC_DECRYPT` captures the ciphertext block in `saved` and loads it (R202). -/
def loadCbcDecrypt (b : Block) (i : Internal) : Internal := loadState b { i with saved := b }

/-- An internal step of `CBC_ENCRYPT` (R205, R207): the ciphertext block is written and becomes the chaining value. -/
def moveCbcEncrypt (s : State) : Result :=
  match s.int.stage with
  | .read => cbcRead loadCbcEncrypt s
  | .round => roundMove encRound .write s
  | .write => cbcWrite s.int.work s.int.work s.int.saved s
  | .finish => .next (complete s)
  | .expand => .fault .internalInvariant

/-- `saved` once the chaining value has been updated from it: unspecified until the next block is read (R43), so free
(log 24); registers 0 to 2 of the draw are those of `leftover`. -/
def staleSaved (s : State) : Block := Config.freeBlock s.draws (3 + s.int.blockIndex)

/-- An internal step of `CBC_DECRYPT` (R205, R208): the result XOR the chaining value is written, and `saved` becomes the
chaining value and is spent. -/
def moveCbcDecrypt (s : State) : Result :=
  match s.int.stage with
  | .read => cbcRead loadCbcDecrypt s
  | .round => roundMove decRound .write s
  | .write => cbcWrite (xorBlock s.int.work s.int.cv) s.int.saved (staleSaved s) s
  | .finish => .next (complete s)
  | .expand => .fault .internalInvariant

end Sys2Proof.Machine
end

