-- ==== Sys2Proof/Machine/KeyExpansion.lean ====
section
/-! DEFINITION. The key schedule (spec 41_key_schedule.md) and the internal steps of `EXPAND_KEY`. The schedule is built
a 4-byte word at a time, the byte position `i` of R143 being 4 times the number of words built. -/

namespace Sys2Proof.Machine

/-- `rot_word(t) = [t[1], t[2], t[3], t[0]]` (R141). -/
def rotWord (t : Word) : Word := wordOfBytes (byteOfWord t 1) (byteOfWord t 2) (byteOfWord t 3) (byteOfWord t 0)

/-- `sub_word`: each byte through the S-box (R141). -/
def subWord (t : Word) : Word :=
  wordOfBytes (sbox (byteOfWord t 0)) (sbox (byteOfWord t 1)) (sbox (byteOfWord t 2)) (sbox (byteOfWord t 3))

/-- `Rcon[1]` to `Rcon[7]`; no other entry is ever read (R142). -/
def rconTable : List Byte := [0x01, 0x02, 0x04, 0x08, 0x10, 0x20, 0x40]

/-- Whether `Rcon[j]` has a value (R142). -/
def rconDefined (j : Nat) : Bool := decide (1 ≤ j ∧ j ≤ 7)

/-- `Rcon[j]` (R142); outside 1 to 7 an opaque value, the model's choice (log 22), which no key's schedule reads (R147). -/
def rconAt (j : Nat) : Byte := if rconDefined j then rconTable.getD (j - 1) 0 else Config.freeRcon j

/-- The word `temp` of R143 at byte position `i`, from the previous word and the round counter. -/
def scheduleTemp (i rc : Nat) (prev : Word) : Word :=
  if i % 32 = 0 then subWord (rotWord prev) ^^^ wordOfBytes (rconAt rc) 0 0 0
  else if i % 32 = 16 then subWord prev
  else prev

/-- The round counter after byte position `i`: it rises each time the Rcon branch fires (R143). -/
def nextRcon (i rc : Nat) : Nat := if i % 32 = 0 then rc + 1 else rc

/-- One iteration of R143's loop on the words built so far, last word first: `w[i-4..i-1]` is the first of the list and
`w[i-32..i-29]` the eighth. -/
def wordStep (i rc : Nat) (w : List Word) : List Word :=
  (w.getD 7 0 ^^^ scheduleTemp i rc (w.getD 0 0)) :: w

/-- `n` iterations of R143's loop from byte position `i`. -/
def expandLoop : Nat → Nat → Nat → List Word → List Word
  | 0, _, _, w => w
  | n + 1, i, rc, w => expandLoop n (i + 4) (nextRcon i rc) (wordStep i rc w)

/-- The 60 words of a finished schedule, given last word first. -/
def scheduleOf (w : List Word) : KeySchedule := tabulate fun n => w.reverse.getD n.val 0

/-- `expand_key(key)` (R143): the key, then 52 iterations from `i = 32` with the round counter starting at 1 (R147). -/
def expandKey (k : Key) : KeySchedule := scheduleOf (expandLoop 52 32 1 k.toList.reverse)

/-- `start(EXPAND_KEY)`: the first 32 bytes are the key, the round counter starts at 1 (R143, R146). -/
def startExpandKey (s : State) : State :=
  { s with int := { s.int with sched := s.key.toList.reverse, rcon := 1, stage := .expand } }

/-- One iteration of R143's loop in the sequencer; after word 59 the completion step is next. A schedule outside 8 to
59 words, or an Rcon branch with a round counter that has no Rcon, is an internal invariant failure (R241; log 12). -/
def expandMove (s : State) : Result :=
  let n := s.int.sched.length
  if 8 ≤ n ∧ n < 60 ∧ (4 * n % 32 = 0 → rconDefined s.int.rcon = true) then
    .next { s with int := { s.int with
      sched := wordStep (4 * n) s.int.rcon s.int.sched
      rcon := nextRcon (4 * n) s.int.rcon
      stage := if n = 59 then .finish else .expand } }
  else .fault .internalInvariant

/-- An internal step of `EXPAND_KEY`: the next word, or the completion step that commits all 240 bytes and sets
`KS_VALID` (R68, R146). -/
def moveExpandKey (s : State) : Result :=
  match s.int.stage with
  | .expand => expandMove s
  | .finish => .next (complete { s with ks := scheduleOf s.int.sched, ksValid := true })
  | .read => .fault .internalInvariant
  | .round => .fault .internalInvariant
  | .write => .fault .internalInvariant

end Sys2Proof.Machine
end

