-- ==== Sys2Proof/Machine/Sequencer.lean ====
section
/-! DEFINITION. The command sequencer (spec 10 R21, 20 R66, R67): the internal step of the command in progress, the core's
progress between two host turns, and command acceptance. -/

namespace Sys2Proof.Machine

/-- The internal step of each command. -/
def moveOf (i : Instr) (s : State) : Result :=
  match i with
  | .expandKey => moveExpandKey s
  | .encryptBlock => moveEncryptBlock s
  | .decryptBlock => moveDecryptBlock s
  | .cbcEncrypt => moveCbcEncrypt s
  | .cbcDecrypt => moveCbcDecrypt s

/-- One internal step of the core: an idle core does nothing (R258), a busy one moves the command `cur_op` on (R67). A busy
core whose `cur_op` is no command is an internal invariant failure (R241). -/
def coreMove (s : State) : Result :=
  match s.phase, decodeOp s.int.curOp with
  | .idle, _ => .next s
  | .busy, some i => moveOf i s
  | .busy, none => .fault .internalInvariant

/-- At most `n` internal steps, none after the command has completed (R67). -/
def advance : Nat → State → Result
  | 0, s => .next s
  | n + 1, s =>
    match s.phase with
    | .idle => .next s
    | .busy => andThen (coreMove s) (fun t => advance n t)

/-- A write of opcode `op` to `CMD`, followed by the internal steps the core takes before the host's next turn. While
`BUSY` the write is ignored (R65). While `IDLE` it runs `accept(op)` (R66): a failing check rejects the command in this
step (R243); otherwise the command starts and the core runs it on (R67). -/
def issue (op : BitVec 4) (start : State → State) (s : State) : Result :=
  match s.phase, check op s with
  | .busy, _ => advance s.moves s
  | .idle, some e => .next (reject e s)
  | .idle, none => advance s.moves (start (accepted op s))

end Sys2Proof.Machine
end

