-- ==== Sys2Proof/Machine/Commands.lean ====
section
/-! DEFINITION. The meaning of each command: its word written to `CMD`, and the core's progress on it before the host's next
turn. The command's own internal steps and its completion are `move…` and `start…` in its family's file. -/

namespace Sys2Proof.Machine

/-- `EXPAND_KEY` (R146). -/
def execExpandKey (s : State) : Result := issue (opcode .expandKey) startExpandKey s

/-- `ENCRYPT_BLOCK` (R175). -/
def execEncryptBlock (s : State) : Result := issue (opcode .encryptBlock) startEncryptBlock s

/-- `DECRYPT_BLOCK` (R176). -/
def execDecryptBlock (s : State) : Result := issue (opcode .decryptBlock) startDecryptBlock s

/-- `CBC_ENCRYPT` (R207). -/
def execCbcEncrypt (s : State) : Result := issue (opcode .cbcEncrypt) startCbcEncrypt s

/-- `CBC_DECRYPT` (R208). -/
def execCbcDecrypt (s : State) : Result := issue (opcode .cbcDecrypt) startCbcDecrypt s

/-- A word written to `CMD` whose `OP` is no command: `check` fails first with `ERR_OPCODE` (R94, R248). -/
def execIllegal (op : BitVec 4) (s : State) : Result := issue op (fun t => t) s

end Sys2Proof.Machine
end

