-- ==== Sys2Proof/Machine/Reset.lean ====
section
/-! DEFINITION. Reset (spec 70 R270 to R273). -/

namespace Sys2Proof.Machine

/-- Up to `n` internal steps, stopping where the core has none. -/
def coast : Nat → State → State
  | 0, s => s
  | n + 1, s =>
    match coreMove s with
    | .next t => coast n t
    | .fault _ => s
    | .refused _ => s

/-- The block step of a CBC command; none for the other commands (R201, R202). -/
def cbcStepOf : Instr → Option (KeySchedule → Block → Block → Block × Block)
  | .expandKey => none
  | .encryptBlock => none
  | .decryptBlock => none
  | .cbcEncrypt => some cbcEncStep
  | .cbcDecrypt => some cbcDecStep

/-- A block each byte of which is the new or the old one, as the free draw says (R273). -/
def tornBlock (d : Nat) (old new : Block) : Block :=
  tabulate fun j => if Config.tornByte d j.val then new[j] else old[j]

/-- The block in flight when reset stops a CBC command: every byte of output block `k` holds its old or its new value
(R273). A block whose addresses are not backed is never written (R75). -/
def tear (f : KeySchedule → Block → Block → Block × Block) (s : State) : Memory :=
  let k := s.int.blockIndex
  if s.phase = .busy ∧ k < blockCount s ∧ blockAdmitted s (srcAddr s k) ∧ blockAdmitted s (dstAddr s k) then
    writeBlock s.mem (dstAddr s k)
      (tornBlock s.draws (readBlock s.mem (dstAddr s k)) (f s.ks s.int.cv (readBlock s.mem (srcAddr s k))).1)
  else s.mem

/-- Buffer memory after a reset: only a CBC command in progress changes it, by a free number of further internal steps and
a torn block (R272, R273; log 8). -/
def memAfterReset (s : State) : Memory :=
  match s.phase, (decodeOp s.int.curOp).bind cbcStepOf with
  | .busy, some f => tear f (coast (Config.resetLag s.draws) s)
  | .busy, none => s.mem
  | .idle, _ => s.mem

/-- A step with `rst = 1` puts every piece of core state at its reset value (R270, R271); the platform and the host's turns
are not core state (R272). -/
def resetCore (s : State) : State :=
  { State.reset with
    mem := memAfterReset s
    backed := s.backed
    turns := s.turns
    moves := s.moves
    readData := s.readData
    hostByte := s.hostByte
    draws := s.draws + 1 }

end Sys2Proof.Machine
end

