-- ==== Sys2Proof/Machine/HostPort.lean ====
section
/-! DEFINITION. One step of the system: a host turn on the register port, on buffer memory or on `rst`, followed by the
internal steps the core takes before the host's next turn. -/

namespace Sys2Proof.Machine

/-- Whether byte address `a` lies in `[base, base + len)`. -/
def inRange (a base len : Nat) : Bool := decide (base ≤ a) && decide (a < base + len)

/-- A CBC command is in progress. -/
def cbcBusy (s : State) : Bool :=
  busyBit s && (decide (decodeOp s.int.curOp = some .cbcEncrypt) || decide (decodeOp s.int.curOp = some .cbcDecrypt))

/-- "host accesses to bytes in `[SRC, SRC+LEN)` or `[DST, DST+LEN)` while `BUSY` are a race the model does not resolve"
(R80 (5)): a read or a write of either range of a CBC command in progress (R276, R282, U7; log 10). -/
def hostRace (s : State) (a : Nat) : Bool :=
  cbcBusy s && (inRange a s.src.toNat s.len.toNat || inRange a s.dst.toNat s.len.toNat)

/-- A host read of one byte of buffer memory, then `go`. -/
def hostMemRead (a : Address) (s : State) (go : State → Result) : Result :=
  if hostRace s a.toNat then .refused .bufferRace
  else if admitted s a.toNat then go { s with hostByte := readByte s.mem a.toNat }
  else .fault .hostUnbacked

/-- A host write of one byte of buffer memory, then `go`. -/
def hostMemWrite (a : Address) (b : Byte) (s : State) (go : State → Result) : Result :=
  if hostRace s a.toNat then .refused .bufferRace
  else if admitted s a.toNat then go { s with mem := writeByte s.mem a.toNat b }
  else .fault .hostUnbacked

/-- The read of a `POLL`: while `v & mask` differs from `value` the poll stays the host's next turn (R99). So a `WAIT`
right after an accepted `GO` may read `BUSY = 1` first, where R102 lets it end at its first read: the model's choice (log 6).
Each repeated read leaves the core at least one internal step, so that no poll keeps it from stepping for ever (R291). -/
def pollRead (off : Offset) (mask value : Word) (n : Nat) (s : State) : State :=
  let v := readReg off s
  if v &&& mask = value then { s with readData := v }
  else { s with readData := v, turns := ⟨false, .poll off mask value, max 1 n⟩ :: s.turns }

/-- A register write (R63, R65): a word written to `CMD` is decoded and runs its command. -/
def regWriteTurn (run : Instr → State → Result) (off : Offset) (v : Word) (s : State) : Result :=
  if regAt off = some .cmd then
    match decode v with
    | .ok i => run i s
    | .error (.illegalOpcode op) => execIllegal op s
  else advance s.moves (writeReg off v s)

/-- A turn with `rst = 0`. The core then takes `moves` internal steps. -/
def plainTurn (run : Instr → State → Result) (act : HostAct) (s : State) : Result :=
  match act with
  | .quiet => advance s.moves s
  | .regRead off => advance s.moves { s with readData := readReg off s }
  | .regWrite off v => regWriteTurn run off v s
  | .poll off mask value => advance s.moves (pollRead off mask value s.moves s)
  | .memRead a => hostMemRead a s (fun t => advance t.moves t)
  | .memWrite a b => hostMemWrite a b s (fun t => advance t.moves t)

/-- A turn with `rst = 1`: reset wins, a register write has no effect and a register read returns the reset value (R270);
buffer memory is the host's and its accesses are made (R272, log 14). -/
def resetTurn (act : HostAct) (s : State) : Result :=
  match act with
  | .quiet => .next (resetCore s)
  | .regRead off => .next { resetCore s with readData := readReg off (resetCore s) }
  | .regWrite _ _ => .next (resetCore s)
  | .poll off mask value => .next (pollRead off mask value s.moves (resetCore s))
  | .memRead a => hostMemRead a s (fun t => .next (resetCore t))
  | .memWrite a b => hostMemWrite a b s (fun t => .next (resetCore t))

/-- How many internal steps the core may take in the step a state takes next: none in a turn with `rst = 1`. -/
def stepPace (s : State) : Nat :=
  match s.turns with
  | [] => 1
  | t :: _ => if t.rst then 0 else t.moves

/-- One step: the host's next turn, or, with no turn waiting, one internal step of the core (R67, R291; log 4). -/
def takeTurn (run : Instr → State → Result) (s : State) : Result :=
  match s.turns with
  | [] => coreMove s
  | t :: rest =>
    let s' := { s with turns := rest, moves := t.moves }
    if t.rst then resetTurn t.act s' else plainTurn run t.act s'

end Sys2Proof.Machine
end

