-- ==== Sys2Proof/Machine/Step.lean ====
section
/-! DEFINITION. The step of the system and the placing of the host's next command. -/

namespace Sys2Proof.Machine

/-- One step of the system. -/
def step (s : State) : Host.Outcome State Fault Refusal := takeTurn exec s

/-- `s` with a write of the opcode table's word `w` to `CMD` as the host's next turn, the pace of the core unchanged: the
core fetches no instruction, its commands are delivered by register writes (R21; log 5). -/
def State.withFetchWord (s : State) (nbits w : Nat) : State :=
  { s with turns := ⟨false, .regWrite (regOffset .cmd) (tableWord nbits w), s.moves⟩ :: s.turns }

end Sys2Proof.Machine
end

