-- ==== Sys2Proof/WellFormed.lean ====
section
/-! DEFINITION. Well-formedness of what the syntax can write down. -/

namespace Sys2Proof

/-- Every command is well formed: it has no operand that could be out of range (R93). -/
def Instr.wellFormed : Instr → Bool
  | .expandKey => true
  | .encryptBlock => true
  | .decryptBlock => true
  | .cbcEncrypt => true
  | .cbcDecrypt => true

/-- "a value of more than 32 bits is an assembly error" (R100). -/
def fitsWord (v : Nat) : Bool := decide (v < 2 ^ 32)

/-- An offset lies in the 4 KiB window (R60). -/
def RegArg.wellFormed : RegArg → Bool
  | .named _ => true
  | .offset off => decide (off < 2 ^ 12)

/-- A numeric immediate fits 32 bits (R100); a mnemonic is always its opcode (R99). -/
def Imm.wellFormed : Imm → Bool
  | .value v => fitsWord v
  | .mnemonic _ => true

/-- A command mnemonic stands for a value only in `WR CMD, m` (R99), with `CMD` given by name or by its offset, of which
bits 1:0 are ignored (R60; log 20). -/
def mnemonicOnlyForCmd : RegArg → Imm → Bool
  | _, .value _ => true
  | .named r, .mnemonic _ => decide (r = .cmd)
  | .offset off, .mnemonic _ => decide (off / 4 = 0)

/-- R99 to R101: operands in range, and byte strings of exactly the written number of hex digits. -/
def AsmInstr.wellFormed : AsmInstr → Bool
  | .wr reg imm => reg.wellFormed && imm.wellFormed && mnemonicOnlyForCmd reg imm
  | .rd reg => reg.wellFormed
  | .poll reg mask value => reg.wellFormed && fitsWord mask && fitsWord value
  | .ldkey digits => decide (digits.length = 64)
  | .ldiv digits => decide (digits.length = 32)
  | .lddin digits => decide (digits.length = 32)
  | .setbuf src dst len => fitsWord src && fitsWord dst && fitsWord len
  | .go m => m.wellFormed
  | .wait => true
  | .rdout => true
  | .check => true

end Sys2Proof
end

