-- ==== Sys2Proof/Machine/HostAsm.lean ====
section
/-! DEFINITION. The host assembly (spec 30 R99 to R101) as host turns. -/

namespace Sys2Proof.Machine

/-- A register name stands for its offset (R99). -/
def regArgOffset : RegArg → Offset
  | .named r => regOffset r
  | .offset off => BitVec.ofNat 12 off

/-- An immediate is `zext_32` of its value; a mnemonic stands for its `OP` value zero-extended (R99, R100). -/
def immWord : Imm → Word
  | .value v => BitVec.ofNat 32 v
  | .mnemonic i => encode i

/-- A hex string read byte 0 first, high digit first (R12, R101). -/
def hexBytes : List (BitVec 4) → List Byte
  | hi :: lo :: rest => (hi ++ lo : BitVec 8) :: hexBytes rest
  | [_] => []
  | [] => []

/-- Consecutive bytes packed into words (R38, R101). -/
def wordsOfBytes : List Byte → List Word
  | b0 :: b1 :: b2 :: b3 :: rest => wordOfBytes b0 b1 b2 b3 :: wordsOfBytes rest
  | [_, _, _] => []
  | [_, _] => []
  | [_] => []
  | [] => []

/-- Writes of words to consecutive registers from byte offset `base` (R101). -/
def writeWords : Nat → List Word → List HostAct
  | _, [] => []
  | base, w :: rest => .regWrite (BitVec.ofNat 12 base) w :: writeWords (base + 4) rest

/-- Writes of a hex string to consecutive registers (R101). -/
def loadDigits (base : Nat) (digits : List (BitVec 4)) : List HostAct :=
  writeWords base (wordsOfBytes (hexBytes digits))

/-- The accesses of each host instruction (R99) and the expansion of each pseudo-instruction (R101). -/
def asmActs : AsmInstr → List HostAct
  | .wr reg imm => [.regWrite (regArgOffset reg) (immWord imm)]
  | .rd reg => [.regRead (regArgOffset reg)]
  | .poll reg mask value => [.poll (regArgOffset reg) (BitVec.ofNat 32 mask) (BitVec.ofNat 32 value)]
  | .ldkey digits => loadDigits 0x020 digits
  | .ldiv digits => loadDigits 0x040 digits
  | .lddin digits => loadDigits 0x050 digits
  | .setbuf src dst len =>
    [.regWrite (regOffset .src) (BitVec.ofNat 32 src), .regWrite (regOffset .dst) (BitVec.ofNat 32 dst),
      .regWrite (regOffset .len) (BitVec.ofNat 32 len)]
  | .go m => [.regWrite (regOffset .cmd) (immWord m)]
  | .wait => [.poll (regOffset .status) 0x00000001 0x00000000]
  | .rdout =>
    [.regRead (regOffset (.dout 0)), .regRead (regOffset (.dout 1)), .regRead (regOffset (.dout 2)),
      .regRead (regOffset (.dout 3))]
  | .check => [.regRead (regOffset .status)]

/-- A program as host turns, the core taking `pace` internal steps after each; none for a program with an assembly error
(R100). -/
def assemble (pace : Nat) (p : List AsmInstr) : Option (List Turn) :=
  if p.all AsmInstr.wellFormed then some ((p.flatMap asmActs).map fun a => ⟨false, a, pace⟩) else none

end Sys2Proof.Machine
end

