-- ==== Sys2Proof/Machine/Ports.lean ====
section
/-! DEFINITION. The ports of the core and of its subblocks (spec 10 R49, 40 R120, R122, 41 R140, 42 R163, R174, 43 R200):
the pure functions on bit vectors that carry byte 0 in the most significant bits. -/

namespace Sys2Proof.Machine

/-- A byte sequence as one number, byte 0 most significant (R140, R163). -/
def packBytes (l : List Byte) : Nat := l.foldl (fun acc b => acc * 256 + b.toNat) 0

/-- A word sequence as one number, word 0 most significant (R140 with R38). -/
def packWords (l : List Word) : Nat := l.foldl (fun acc w => acc * 2 ^ 32 + w.toNat) 0

/-- A 128-bit State port: byte `j` in bits `127-8j : 120-8j` (R163). -/
def blockPort (b : Block) : BitVec 128 := BitVec.ofNat 128 (packBytes b.toList)

/-- The block a 128-bit port carries (R163). -/
def blockOfPort (p : BitVec 128) : Block := tabulate fun j => p.extractLsb' (120 - 8 * j.val) 8

/-- The `key` port: byte `j` in bits `255-8j : 248-8j` (R140). -/
def keyPort (k : Key) : BitVec 256 := BitVec.ofNat 256 (packWords k.toList)

/-- The key a 256-bit port carries (R140). -/
def keyOfPort (p : BitVec 256) : Key := tabulate fun m => p.extractLsb' (224 - 32 * m.val) 32

/-- The `ks` port: byte `j` in bits `1919-8j : 1912-8j` (R140). -/
def schedulePort (ks : KeySchedule) : BitVec 1920 := BitVec.ofNat 1920 (packWords ks.toList)

/-- The schedule a 1920-bit port carries (R140, R174). -/
def scheduleOfPort (p : BitVec 1920) : KeySchedule := tabulate fun m => p.extractLsb' (1888 - 32 * m.val) 32

/-- `gf256_double` (R120). -/
def gf256Double (a : BitVec 8) : BitVec 8 := gfDouble a

/-- `gf256_mult` (R122). -/
def gf256Mult (a b : BitVec 8) : BitVec 8 := gfMult a b

/-- `aes_key_schedule` (R140). -/
def aesKeySchedule (key : BitVec 256) : BitVec 1920 := schedulePort (expandKey (keyOfPort key))

/-- `subbytes_lut` (R163). -/
def subbytesLut (s : BitVec 128) : BitVec 128 := blockPort (subBytes (blockOfPort s))

/-- `inv_subbytes_lut` (R163). -/
def invSubbytesLut (s : BitVec 128) : BitVec 128 := blockPort (invSubBytes (blockOfPort s))

/-- `shiftrows` (R163). -/
def shiftrowsPort (s : BitVec 128) : BitVec 128 := blockPort (shiftRows (blockOfPort s))

/-- `inv_shiftrows` (R163). -/
def invShiftrowsPort (s : BitVec 128) : BitVec 128 := blockPort (invShiftRows (blockOfPort s))

/-- `mixcolumns` (R163). -/
def mixcolumnsPort (s : BitVec 128) : BitVec 128 := blockPort (mixColumns (blockOfPort s))

/-- `inv_mixcolumns` (R163). -/
def invMixcolumnsPort (s : BitVec 128) : BitVec 128 := blockPort (invMixColumns (blockOfPort s))

/-- `addroundkey` (R163). -/
def addroundkeyPort (s rk : BitVec 128) : BitVec 128 := blockPort (addRoundKey (blockOfPort s) (blockOfPort rk))

/-- `aes_block_transform`: `mode` 0 is `encrypt_block`, 1 is `decrypt_block` (R174). -/
def aesBlockTransform (ks : BitVec 1920) (din : BitVec 128) (mode : BitVec 1) : BitVec 128 :=
  if mode = 0 then blockPort (encryptBlock (scheduleOfPort ks) (blockOfPort din))
  else blockPort (decryptBlock (scheduleOfPort ks) (blockOfPort din))

/-- A request of the memory port: `MemRead(a, 16)` or `MemWrite(a, 16, v)` (R49, R71). -/
inductive MemRequest where
  | read (a : Address)
  | write (a : Address) (v : Block)
  deriving DecidableEq, Repr

/-- The inputs of one use of `aes_block_transform` (R174). -/
structure TransformInputs where
  ks : BitVec 1920
  din : BitVec 128
  mode : BitVec 1
  deriving DecidableEq, Repr

/-- The output of `aes_block_transform` for these inputs (R174). -/
def transformOutput (p : TransformInputs) : BitVec 128 := aesBlockTransform p.ks p.din p.mode

/-- Port `dec`: 0 for `CBC_ENCRYPT`, 1 for `CBC_DECRYPT`; no value for a command that is none of them (R200). -/
def cbcDec : Instr → Option (BitVec 1)
  | .expandKey => none
  | .encryptBlock => none
  | .decryptBlock => none
  | .cbcEncrypt => some 0
  | .cbcDecrypt => some 1

/-- The CBC direction of the command in progress; none when no CBC command is in progress. -/
def runningDec (s : State) : Option (BitVec 1) :=
  match s.phase with
  | .idle => none
  | .busy => (decodeOp s.int.curOp).bind cbcDec

/-- Port `start` in the step that writes the word of command `i` to `CMD`: a pulse exactly when that is the acceptance of a
CBC command (R200, R66). -/
def cbcStart (i : Instr) (s : State) : BitVec 1 :=
  BitVec.ofBool (decide (s.phase = .idle) && decide (check (opcode i) s = none) && (cbcDec i).isSome)

/-- Port `finish` in the internal step a state takes next: a pulse exactly when that is the completion step of a CBC command
(R200, R68). -/
def cbcFinish (s : State) : BitVec 1 := BitVec.ofBool ((runningDec s).isSome && decide (s.int.stage = .finish))

/-- The output block of the block in hand once its transform is complete (R201, R202). -/
def cbcOutput (dec : BitVec 1) (s : State) : Block := if dec = 0 then s.int.work else xorBlock s.int.work s.int.cv

/-- The memory port in the internal step a state takes next: block `k` is read from `SRC + 16k`, its output block written at
`DST + 16k` (R204, R205); no other step, and no other command, makes a request (R72). -/
def memRequest (s : State) : Option MemRequest :=
  match runningDec s, s.int.stage with
  | some _, .read => some (.read (BitVec.ofNat 32 (srcAddr s s.int.blockIndex)))
  | some dec, .write => some (.write (BitVec.ofNat 32 (dstAddr s s.int.blockIndex)) (cbcOutput dec s))
  | some _, .round => none
  | some _, .finish => none
  | some _, .expand => none
  | none, _ => none

/-- The 16-byte read data of the memory port in that step (R49, R76): none without a read request, and none for a request
that touches an unbacked address, which has no step (R75). -/
def memReadData (s : State) : Option Block :=
  match memRequest s with
  | some (.read _) =>
    let a := srcAddr s s.int.blockIndex
    if blockAdmitted s a then some (readBlock s.mem a) else none
  | some (.write _ _) => none
  | none => none

/-- The use of `aes_block_transform` that block `b`, just read, starts: the cipher on `b` XOR the chaining value, or the
inverse cipher on `b` (R201, R202, R174). -/
def transformInputs (dec : BitVec 1) (b : Block) (s : State) : TransformInputs where
  ks := schedulePort s.ks
  din := blockPort (if dec = 0 then xorBlock b s.int.cv else b)
  mode := dec

/-- The ports of `cbc_mode_cipher` in the internal step a state takes next (R200). The pulse `start` belongs to the step that
writes `CMD` and is `cbcStart`. -/
structure CbcPorts where
  dec : Option (BitVec 1)
  iv : BitVec 128
  src : BitVec 32
  dst : BitVec 32
  len : BitVec 32
  /-- Memory port, out. -/
  request : Option MemRequest
  /-- Memory port, in. -/
  readData : Option Block
  /-- Block transform, out: the inputs of the use that starts in this step. -/
  transform : Option TransformInputs
  /-- Block transform, in: the result, when it is complete and used. -/
  result : Option (BitVec 128)
  finish : BitVec 1
  deriving DecidableEq, Repr

/-- `cbc_mode_cipher` between its neighbours: the register file, the memory port, `aes_block_transform` and the command
sequencer (R200). -/
def cbcPorts (s : State) : CbcPorts where
  dec := runningDec s
  iv := blockPort (blockOfQuad s.iv)
  src := s.src
  dst := s.dst
  len := s.len
  request := memRequest s
  readData := memReadData s
  transform := (runningDec s).bind fun dec => (memReadData s).map fun b => transformInputs dec b s
  result := if (runningDec s).isSome && decide (s.int.stage = .write) then some (blockPort s.int.work) else none
  finish := cbcFinish s

end Sys2Proof.Machine
end

