-- ==== Sys2Proof/Safety.lean ====
section
/-! DEFINITION. What a safe run is: the invariant of the system, the host's duty, and how many internal steps a command
still needs. -/

namespace Sys2Proof.Machine

/-- The State after rounds 0 to `r - 1` of a block transform given by its round function. -/
def roundsFrom (f : KeySchedule → Nat → Block → Block) (ks : KeySchedule) : Nat → Block → Block
  | 0, b => b
  | r + 1, b => f ks r (roundsFrom f ks r b)

/-- `EXPAND_KEY` in progress: the words built so far are those of R143 for the key registers, and the round counter has
counted the Rcon branches taken (R147). -/
def expandOk (s : State) : Bool :=
  let n := s.int.sched.length
  decide (8 ≤ n ∧ n ≤ 60) && decide (s.int.rcon = 1 + (n - 1) / 8) &&
    decide (s.int.sched = expandLoop (n - 8) 32 1 s.key.toList.reverse) &&
    decide (s.int.stage = if n = 60 then .finish else .expand)

/-- A block transform in progress on input block `b`: before `after` the working State holds the rounds done so far, at
`after` the whole result (R171, R172). -/
def transformOk (f : KeySchedule → Nat → Block → Block) (whole : KeySchedule → Block → Block) (after : Stage)
    (b : Block) (s : State) : Bool :=
  if s.int.stage = .round then
    decide (s.int.round ≤ 14) && decide (s.int.work = roundsFrom f s.ks s.int.round b)
  else decide (s.int.stage = after) && decide (s.int.work = whole s.ks b)

/-- A CBC command in progress: the sequencer is inside block `k < n` with the transform of that block on track, or past
the last block (R205); `transform` is the check of the block in the transform. -/
def cbcOk (transform : State → Bool) (s : State) : Bool :=
  match s.int.stage with
  | .expand => false
  | .read => decide (s.int.blockIndex < blockCount s)
  | .round => decide (s.int.blockIndex < blockCount s) && transform s
  | .write => decide (s.int.blockIndex < blockCount s) && transform s
  | .finish => decide (s.int.blockIndex = blockCount s)

/-- Input block `k` of the CBC command in progress (R204). -/
def currentInput (s : State) : Block := readBlock s.mem (srcAddr s s.int.blockIndex)

/-- The sequencer's place and the internal registers fit the command in progress. -/
def commandOk (i : Instr) (s : State) : Bool :=
  match i with
  | .expandKey => expandOk s
  | .encryptBlock => transformOk encRound encryptBlock .finish (blockOfQuad s.din) s
  | .decryptBlock => transformOk decRound decryptBlock .finish (blockOfQuad s.din) s
  | .cbcEncrypt => cbcOk (fun t => transformOk encRound encryptBlock .write (xorBlock (currentInput t) t.int.cv) t) s
  | .cbcDecrypt =>
    cbcOk (fun t => decide (t.int.saved = currentInput t) && transformOk decRound decryptBlock .write t.int.saved t) s

/-- A busy core runs a command whose checks hold (R66), and is on track with it. -/
def sequencerOk (s : State) : Bool :=
  match s.phase, decodeOp s.int.curOp with
  | .idle, _ => true
  | .busy, some i => decide (check s.int.curOp s = none) && commandOk i s
  | .busy, none => false

/-- The invariant of the system. -/
structure Inv (s : State) : Prop where
  /-- Buffer memory is in canonical form. -/
  memory : s.mem.wf = true
  /-- `BUSY = 1` and `DONE = 1` never hold together (R26). -/
  exclusive : ¬(s.phase = .busy ∧ s.done = true)
  /-- Codes 6 to 15 are never written (R28). -/
  errCode : s.err.toNat ≤ 5
  /-- `ERR` is 0 while a command runs (R68). -/
  busyErr : s.phase = .busy → s.err = 0
  /-- The sequencer is on track. -/
  sequencer : sequencerOk s = true

/-- The registers only the host writes (R30 to R35, R48). -/
structure OperandsKept (s t : State) : Prop where
  src : t.src = s.src
  dst : t.dst = s.dst
  len : t.len = s.len
  key : t.key = s.key
  iv : t.iv = s.iv
  din : t.din = s.din

/-- The platform, the host's coming turns and what the host has read. -/
structure PortKept (s t : State) : Prop where
  backed : t.backed = s.backed
  turns : t.turns = s.turns
  moves : t.moves = s.moves
  readData : t.readData = s.readData
  hostByte : t.hostByte = s.hostByte

/-- The results a command commits (R68). -/
structure ResultsKept (s t : State) : Prop where
  ksValid : t.ksValid = s.ksValid
  ks : t.ks = s.ks
  dout : t.dout = s.dout

/-- The host's next turn obeys R80 (5), R276 and R282 and touches only backed addresses. -/
def turnObeys (s : State) : Bool :=
  match s.turns with
  | [] => true
  | t :: _ =>
    match t.act with
    | .memRead a => !hostRace s a.toNat && admitted s a.toNat
    | .memWrite a _ => !hostRace s a.toNat && admitted s a.toNat
    | .quiet => true
    | .regRead _ => true
    | .regWrite _ _ => true
    | .poll _ _ _ => true

/-- The platform backs every byte of the source and destination ranges (R75). -/
def bufferBacked (s : State) : Prop :=
  ∀ a, inRange a s.src.toNat s.len.toNat = true ∨ inRange a s.dst.toNat s.len.toNat = true → admitted s a = true

/-- The operands of a CBC command pass every check but the one on the schedule (R242): whole blocks (R244), ranges that do
not pass the top of memory (R245), and equal or disjoint ranges (R246). -/
structure BufferLegal (s : State) : Prop where
  blocks : s.len.toNat % 16 = 0
  srcEnd : s.src.toNat + s.len.toNat ≤ 2 ^ 32
  dstEnd : s.dst.toNat + s.len.toNat ≤ 2 ^ 32
  apart : s.src = s.dst ∨
    ∀ a, ¬(inRange a s.src.toNat s.len.toNat = true ∧ inRange a s.dst.toNat s.len.toNat = true)

/-- An infinite run of the system. -/
def IsRun (r : Nat → State) : Prop := ∀ n, step (r n) = .next (r (n + 1))

/-- The core can step: an internal step of the command in progress changes something. A core that waits on an unbacked address
cannot (R75, R291). -/
def coreCanStep (s : State) : Prop := s.phase = .busy ∧ coreMove s ≠ .next s

/-- The core is given an internal step, of the command in progress, in the step a state takes next. -/
def coreSteps (s : State) : Prop := s.phase = .busy ∧ 0 < stepPace s

/-- Weak fairness of the core: "if the core can step, it eventually does" (R291). -/
def WeaklyFair (r : Nat → State) : Prop := ∀ n, (∀ m ≥ n, coreCanStep (r m)) → ∃ m ≥ n, coreSteps (r m)

/-- The host never asserts `rst` in the run. -/
def NoReset (r : Nat → State) : Prop := ∀ n turn rest, (r n).turns = turn :: rest → turn.rst = false

/-- The internal registers the command in progress has yet to read agree: those of another command, and those the command
writes before it reads them, may differ (R41 to R45). -/
def liveEq (i : Instr) (a b : Internal) : Prop :=
  a.curOp = b.curOp ∧ a.stage = b.stage ∧
    match i with
    | .expandKey => a.sched = b.sched ∧ a.rcon = b.rcon
    | .encryptBlock => a.work = b.work ∧ a.round = b.round
    | .decryptBlock => a.work = b.work ∧ a.round = b.round
    | .cbcEncrypt =>
      a.cv = b.cv ∧ a.blockIndex = b.blockIndex ∧ (a.stage = .round ∨ a.stage = .write → a.work = b.work ∧ a.round = b.round)
    | .cbcDecrypt =>
      a.cv = b.cv ∧ a.blockIndex = b.blockIndex ∧
        (a.stage = .round ∨ a.stage = .write → a.work = b.work ∧ a.round = b.round ∧ a.saved = b.saved)

/-- Two states that differ in internal storage alone, and there only in registers no rule will read before writing them. -/
def Indistinguishable (s t : State) : Prop :=
  { s with int := t.int } = t ∧
    (s.phase = .busy → s.int.curOp = t.int.curOp ∧ ∀ i, decodeOp s.int.curOp = some i → liveEq i s.int t.int)

/-- Outcomes of one kind whose states are indistinguishable. -/
def SameOutcome (r q : Result) : Prop :=
  match r, q with
  | .next s, .next t => Indistinguishable s t
  | .fault e, .fault f => e = f
  | .refused e, .refused f => e = f
  | _, _ => False

/-- How many internal steps the command in progress still needs: one per word of the schedule, one per round, one per
memory request, one for completion. -/
def movesLeft (s : State) : Nat :=
  match s.phase, decodeOp s.int.curOp with
  | .idle, _ => 0
  | .busy, none => 0
  | .busy, some .expandKey => 61 - s.int.sched.length
  | .busy, some .encryptBlock => if s.int.stage = .round then 16 - s.int.round else 1
  | .busy, some .decryptBlock => if s.int.stage = .round then 16 - s.int.round else 1
  | .busy, some .cbcEncrypt => cbcMovesLeft s
  | .busy, some .cbcDecrypt => cbcMovesLeft s
where
  /-- 17 internal steps a block (a read, 15 rounds, a write), then completion. -/
  cbcMovesLeft (s : State) : Nat :=
    match s.int.stage with
    | .read => 17 * (blockCount s - s.int.blockIndex) + 1
    | .round => 17 * (blockCount s - s.int.blockIndex) - s.int.round
    | .write => 17 * (blockCount s - s.int.blockIndex) - 15
    | .finish => 1
    | .expand => 1

end Sys2Proof.Machine
end

