-- ==== Sys2Proof/Certificates/Slice0/Obligations.lean ====
section
/-! DEFINITION. The statements for the provers. In a statement about a host turn, the state the turn acts on is
the state before the step with that turn taken from the queue: `turns := rest`, `moves` the turn's own pace. -/

open Sys2Proof Sys2Proof.Machine

/-! ### Commands and their encoding -/

/-- Words written out from the opcode map of 30_encoding.md section 1 (R92), two with reserved bits set. -/
def Obligations.CommandWordsDecode : Prop :=
  decode 0x00000001 = .ok .expandKey ∧ decode 0x00000002 = .ok .encryptBlock ∧
    decode 0x00000003 = .ok .decryptBlock ∧ decode 0x00000004 = .ok .cbcEncrypt ∧
    decode 0x00000005 = .ok .cbcDecrypt ∧ decode 0xABCDEF04 = .ok .cbcEncrypt ∧
    decode 0xFFFFFFF1 = .ok .expandKey ∧ decode 0x00000000 = .error (.illegalOpcode 0x0) ∧
    decode 0x00000006 = .error (.illegalOpcode 0x6) ∧ decode 0x0000000F = .error (.illegalOpcode 0xF)

/-- R92: the match value of each command under the mask 0x0000000F, and the reserved values of `OP`. -/
def Obligations.MatchAndMaskSelectTheCommand : Prop :=
  ∀ v : Word,
    (decode v = .ok .expandKey ↔ v &&& 0x0000000F = 0x00000001) ∧
    (decode v = .ok .encryptBlock ↔ v &&& 0x0000000F = 0x00000002) ∧
    (decode v = .ok .decryptBlock ↔ v &&& 0x0000000F = 0x00000003) ∧
    (decode v = .ok .cbcEncrypt ↔ v &&& 0x0000000F = 0x00000004) ∧
    (decode v = .ok .cbcDecrypt ↔ v &&& 0x0000000F = 0x00000005) ∧
    ((∃ op, decode v = .error (.illegalOpcode op)) ↔
      v &&& 0x0000000F = 0 ∨ 6 ≤ (v &&& 0x0000000F).toNat)

/-- Decode and encode agree for every well-formed command and every value of the reserved bits (R95, R96): each
word of a command decodes to it, each word that decodes to a command is one of its words, and no two encodings
share a word. -/
def Obligations.DecodeInvertsEncode : Prop :=
  (∀ (i : Instr) (r : BitVec 28), i.wellFormed = true → decode (encodeWith r i) = .ok i) ∧
    (∀ (v : Word) (i : Instr), decode v = .ok i → ∃ r : BitVec 28, v = encodeWith r i) ∧
    (∀ (i j : Instr) (r q : BitVec 28), encodeWith r i = encodeWith q j → i = j ∧ r = q) ∧
    ∀ i : Instr, encode i = encodeWith 0 i

/-- A step whose host turn writes a command's word to `CMD` is `exec` of that command, in every phase; a word placed
by `withFetchWord` runs in the very next step. -/
def Obligations.StepRunsDecodedCommand : Prop :=
  (∀ (s : State) (rest : List Turn) (off : Offset) (v : Word) (n : Nat) (i : Instr),
      s.turns = ⟨false, .regWrite off v, n⟩ :: rest → off &&& 0xFFC = 0 → decode v = .ok i →
        step s = exec i { s with turns := rest, moves := n }) ∧
    ∀ (s : State) (w : Nat) (i : Instr), decodeTableWord 32 w = some i → step (s.withFetchWord 32 w) = exec i s

/-- R248: a `CMD` write whose `OP` is not 0x1 to 0x5 is reported as `ERR_OPCODE` whatever the other registers hold. -/
def Obligations.IllegalOpcodeIsReported : Prop :=
  ∀ (s : State) (rest : List Turn) (off : Offset) (v : Word) (n : Nat),
    s.phase = .idle → s.turns = ⟨false, .regWrite off v, n⟩ :: rest → off &&& 0xFFC = 0 →
      ¬(1 ≤ (v &&& 0xF).toNat ∧ (v &&& 0xF).toNat ≤ 5) →
        step s = .next { s with turns := rest, moves := n, done := true, err := 1 }

/-! ### The register port -/

/-- R62, the whole read map, in every phase. -/
def Obligations.RegisterReadMap : Prop :=
  ∀ (s : State) (off : Offset),
    let o := (off &&& 0xFFC).toNat
    readReg off s =
      if o = 0x004 then statusWord s
      else if o = 0x008 then s.src
      else if o = 0x00C then s.dst
      else if o = 0x010 then s.len
      else if 0x040 ≤ o ∧ o ≤ 0x04C then s.iv.toList.getD ((o - 0x040) / 4) 0
      else if 0x050 ≤ o ∧ o ≤ 0x05C then s.din.toList.getD ((o - 0x050) / 4) 0
      else if 0x060 ≤ o ∧ o ≤ 0x06C then s.dout.toList.getD ((o - 0x060) / 4) 0
      else if 0x100 ≤ o ∧ o ≤ 0x1EC then
        let w := (o - 0x100) / 4
        if (statusWord s).getLsbD 2 = true then
          wordOfBytes (ksByte s.ks (4 * w)) (ksByte s.ks (4 * w + 1)) (ksByte s.ks (4 * w + 2))
            (ksByte s.ks (4 * w + 3))
        else 0
      else 0

/-- R63, the whole write map while `IDLE`, as one step. -/
def Obligations.RegisterWriteMap : Prop :=
  ∀ (s : State) (rest : List Turn) (off : Offset) (v : Word) (n : Nat),
    s.phase = .idle → s.turns = ⟨false, .regWrite off v, n⟩ :: rest →
      let u : State := { s with turns := rest, moves := n }
      let o := (off &&& 0xFFC).toNat
      step s =
        if o = 0x000 then
          match decodeOp (v.extractLsb' 0 4) with
          | some i => exec i u
          | none => .next { u with done := true, err := 1 }
        else if o = 0x008 then .next { u with src := v }
        else if o = 0x00C then .next { u with dst := v }
        else if o = 0x010 then .next { u with len := v }
        else if 0x020 ≤ o ∧ o ≤ 0x03C then .next { u with key := u.key.setIfInBounds ((o - 0x020) / 4) v }
        else if 0x040 ≤ o ∧ o ≤ 0x04C then .next { u with iv := u.iv.setIfInBounds ((o - 0x040) / 4) v }
        else if 0x050 ≤ o ∧ o ≤ 0x05C then .next { u with din := u.din.setIfInBounds ((o - 0x050) / 4) v }
        else .next u

/-- R65: while `BUSY` a write at any offset, `CMD` included, is the same as no access at all; so the meaning of a command
delivered while `BUSY` is the progress of the command already running (log 16), at the pace of the turn (log 4). -/
def Obligations.BusyWritesAreIgnored : Prop :=
  (∀ (s : State) (rest : List Turn) (off : Offset) (v : Word) (n : Nat),
      s.phase = .busy → s.turns = ⟨false, .regWrite off v, n⟩ :: rest →
        step s = step { s with turns := ⟨false, .quiet, n⟩ :: rest }) ∧
    ∀ (s : State) (i : Instr), s.phase = .busy → exec i s = advance s.moves s

/-- R61: a register read returns the value at the moment of the step and has no side effect: in the same step without it
the system does the same, but for the port's read data (the model's latch `readData`, log 13). -/
def Obligations.ReadsHaveNoSideEffect : Prop :=
  ∀ (s : State) (rest : List Turn) (off : Offset) (n : Nat),
    s.turns = ⟨false, .regRead off, n⟩ :: rest →
      match step s, step { s with turns := ⟨false, .quiet, n⟩ :: rest } with
      | .next t, .next u => t = { u with readData := readReg off s }
      | .fault e, .fault f => e = f
      | .refused e, .refused f => e = f
      | _, _ => False

/-- R39: unmapped offsets, read-only registers and write-only registers. -/
def Obligations.WrongDirectionAccessesAreHarmless : Prop :=
  ∀ (s : State) (off : Offset) (v : Word),
    (regAt off = none → readReg off s = 0 ∧ writeReg off v s = s) ∧
    (regAt off = some .status → writeReg off v s = s) ∧
    (∀ m, regAt off = some (.dout m) → writeReg off v s = s) ∧
    (∀ w, regAt off = some (.ks w) → writeReg off v s = s) ∧
    (regAt off = some .cmd → readReg off s = 0) ∧
    (∀ m, regAt off = some (.key m) → readReg off s = 0)

/-- Every register is selected by its offset of R22, whatever the two low bits of the offset (R60), and an offset selects
at most the register whose offset it is. -/
def Obligations.OffsetsSelectTheirRegisters : Prop :=
  (∀ (r : Reg) (off : Offset), off &&& 0xFFC = regOffset r → regAt off = some r) ∧
    ∀ (off : Offset) (r : Reg), regAt off = some r → off &&& 0xFFC = regOffset r

/-- R29 and the layout of R24: the place of each field, and the reserved bits; the `done` pin is bit 1 (R49). -/
def Obligations.StatusLayout : Prop :=
  ∀ s : State,
    ((statusWord s).getLsbD 0 = true ↔ s.phase = .busy) ∧ (statusWord s).getLsbD 1 = s.done ∧
      (statusWord s).getLsbD 2 = s.ksValid ∧ (statusWord s).getLsbD 3 = false ∧
      (statusWord s).extractLsb' 4 4 = s.err ∧ (statusWord s).extractLsb' 8 24 = 0 ∧
      donePin s = (statusWord s).getLsbD 1

/-- R38: byte `4m + j` of a block is byte `j` of register `m`, byte 0 in bits 31:24, and packing loses nothing. -/
def Obligations.RegistersPackBigEndian : Prop :=
  (∀ (b : Block) (m : Fin 4), (quadOfBlock b)[m] =
      (b.toList.getD (4 * m.val) 0 ++ b.toList.getD (4 * m.val + 1) 0 ++ b.toList.getD (4 * m.val + 2) 0 ++
        b.toList.getD (4 * m.val + 3) 0 : BitVec 32)) ∧
    (∀ b : Block, blockOfQuad (quadOfBlock b) = b) ∧ ∀ q : Quad, quadOfBlock (blockOfQuad q) = q

/-- While `KS_VALID = 0` the content of the KS store cannot be observed (R37, R40): no read depends on it, every command
that needs a schedule is rejected whatever it is, and `EXPAND_KEY` gives the same result. -/
def Obligations.UnexpandedScheduleIsUnobservable : Prop :=
  ∀ (s : State) (k : KeySchedule), s.ksValid = false →
    (∀ off, readReg off { s with ks := k } = readReg off s) ∧
      (s.phase = .idle → ∀ (i : Instr) (t : State), exec i s = .next t →
        ∃ u, exec i { s with ks := k } = .next u ∧ { u with ks := t.ks } = t ∧ (t.ksValid = true → u.ks = t.ks))

/-- A `POLL` turn (R99): the read that meets the mask and value ends the poll, any other leaves it the host's next turn,
which then gives the core an internal step (the model's form of the wait, and its reading of R99 against R102, log 6). -/
def Obligations.PollRepeatsUntilItMatches : Prop :=
  ∀ (s : State) (rest : List Turn) (off : Offset) (mask value : Word),
    s.turns = ⟨false, .poll off mask value, 0⟩ :: rest →
      (readReg off s &&& mask = value →
        step s = .next { s with turns := rest, moves := 0, readData := readReg off s }) ∧
      (readReg off s &&& mask ≠ value →
        step s = .next { s with
          turns := ⟨false, .poll off mask value, 1⟩ :: rest, moves := 0, readData := readReg off s })

/-! ### Acceptance and rejection -/

/-- R242: the code of the first failing check in the order opcode, key, length, range, overlap, 0 for `OK`; the checks
read no memory. -/
def Obligations.ChecksInOrder : Prop :=
  ∀ (op : BitVec 4) (s : State),
    (match check op s with
      | some e => errCode e
      | none => 0) =
      (if op ∉ [0x1#4, 0x2#4, 0x3#4, 0x4#4, 0x5#4] then 1
       else if op ≠ 0x1 ∧ s.ksValid = false then 2
       else if op ∈ [0x4#4, 0x5#4] then
         if s.len.toNat % 16 ≠ 0 then 3
         else if s.src.toNat + s.len.toNat > 2 ^ 32 ∨ s.dst.toNat + s.len.toNat > 2 ^ 32 then 4
         else if 0 < s.len.toNat ∧ s.src ≠ s.dst ∧ s.src.toNat < s.dst.toNat + s.len.toNat ∧
           s.dst.toNat < s.src.toNat + s.len.toNat then 5
         else 0
       else 0) ∧
    ∀ m : Memory, check op { s with mem := m } = check op s

/-- R243: a rejected command writes `ERR` and `DONE` in its own step and nothing else, as the meaning of each command and
as the step of any word written to `CMD`. -/
def Obligations.RejectionChangesOnlyStatus : Prop :=
  (∀ (s : State) (i : Instr) (e : ErrCode), s.phase = .idle → check (opcode i) s = some e →
    exec i s = .next { s with done := true, err := errCode e } ∧ errCode e ≠ 0) ∧
  ∀ (s : State) (rest : List Turn) (off : Offset) (v : Word) (n : Nat) (e : ErrCode),
    s.phase = .idle → s.turns = ⟨false, .regWrite off v, n⟩ :: rest → off &&& 0xFFC = 0 →
      check (v.extractLsb' 0 4) s = some e →
        step s = .next { s with turns := rest, moves := n, done := true, err := errCode e }

/-- R66 with no time for the core (`moves` 0, log 4): what the acceptance step of each command writes. -/
def Obligations.AcceptanceStartsTheCommand : Prop :=
  ∀ (s : State) (i : Instr), s.phase = .idle → s.moves = 0 → check (opcode i) s = none →
    ∃ j : Internal, j.curOp = opcode i ∧
      ((i = .cbcEncrypt ∨ i = .cbcDecrypt) → j.cv = blockOfQuad s.iv ∧ j.blockIndex = 0) ∧
      exec i s = .next { s with phase := .busy, done := false, err := 0, int := j }

/-- R247: `ERR_NOKEY` exactly for a cipher command with no schedule. -/
def Obligations.NoScheduleIsReported : Prop :=
  ∀ (s : State) (i : Instr), s.phase = .idle → s.ksValid = false →
    (i ≠ .expandKey → exec i s = .next { s with done := true, err := 2 }) ∧
      check (opcode .expandKey) s = none

/-- R244: with a schedule, a CBC command is rejected with code 3 exactly when `LEN % 16 ≠ 0`. -/
def Obligations.BadLengthIsReported : Prop :=
  ∀ (s : State) (i : Instr), s.phase = .idle → s.ksValid = true → i = .cbcEncrypt ∨ i = .cbcDecrypt →
    (s.len.toNat % 16 ≠ 0 ↔ exec i s = .next { s with done := true, err := 3 })

/-- R245: with a schedule and whole blocks, a CBC command is rejected with code 4 exactly when a range passes the top of
memory, computed without wrap-around; never with `LEN = 0`. -/
def Obligations.RangePastTopIsReported : Prop :=
  ∀ (s : State) (i : Instr), s.phase = .idle → s.ksValid = true → i = .cbcEncrypt ∨ i = .cbcDecrypt →
    s.len.toNat % 16 = 0 →
      (s.src.toNat + s.len.toNat > 2 ^ 32 ∨ s.dst.toNat + s.len.toNat > 2 ^ 32 ↔
        exec i s = .next { s with done := true, err := 4 }) ∧
      (s.len = 0 → exec i s ≠ .next { s with done := true, err := 4 })

/-- R246: with a schedule, whole blocks and ranges in bounds, a CBC command is rejected with code 5 exactly when
`LEN > 0`, `SRC ≠ DST` and the two ranges share a byte. -/
def Obligations.PartialOverlapIsReported : Prop :=
  ∀ (s : State) (i : Instr), s.phase = .idle → s.ksValid = true → i = .cbcEncrypt ∨ i = .cbcDecrypt →
    s.len.toNat % 16 = 0 → s.src.toNat + s.len.toNat ≤ 2 ^ 32 → s.dst.toNat + s.len.toNat ≤ 2 ^ 32 →
      ((0 < s.len.toNat ∧ s.src ≠ s.dst ∧
          ∃ a, inRange a s.src.toNat s.len.toNat = true ∧ inRange a s.dst.toNat s.len.toNat = true) ↔
        exec i s = .next { s with done := true, err := 5 })

/-! ### What each command does -/

/-- R146: `EXPAND_KEY` always passes its checks, and given time for its 52 words and its completion step it ends with the
expanded key in the KS store; nothing else changes but `STATUS` and storage that is not observable. The pace of 53 internal
steps (log 4) and the draw counter (log 7) are the model's choice. -/
def Obligations.ExpandKeyCompletes : Prop :=
  ∀ s : State, s.phase = .idle → 53 ≤ s.moves →
    ∃ j : Internal, exec .expandKey s = .next { s with
      phase := .idle, done := true, err := 0, ksValid := true, ks := expandKey s.key, int := j,
      draws := s.draws + 1 }

/-- R175: `ENCRYPT_BLOCK` with a schedule and time for its 15 round indexes and its completion step. The pace of 16 internal
steps (log 4) and the draw counter (log 7) are the model's choice. -/
def Obligations.EncryptBlockCompletes : Prop :=
  ∀ s : State, s.phase = .idle → s.ksValid = true → 16 ≤ s.moves →
    ∃ j : Internal, exec .encryptBlock s = .next { s with
      phase := .idle, done := true, err := 0, dout := quadOfBlock (encryptBlock s.ks (blockOfQuad s.din)), int := j,
      draws := s.draws + 1 }

/-- R176: `DECRYPT_BLOCK` with a schedule and time for its 15 round indexes and its completion step. The pace of 16 internal
steps (log 4) and the draw counter (log 7) are the model's choice. -/
def Obligations.DecryptBlockCompletes : Prop :=
  ∀ s : State, s.phase = .idle → s.ksValid = true → 16 ≤ s.moves →
    ∃ j : Internal, exec .decryptBlock s = .next { s with
      phase := .idle, done := true, err := 0, dout := quadOfBlock (decryptBlock s.ks (blockOfQuad s.din)), int := j,
      draws := s.draws + 1 }

/-- R207: `CBC_ENCRYPT` with a schedule, legal operands, backed ranges and time for its blocks writes the chained
ciphertext of the source blocks at `DST`; the source blocks are those of memory at acceptance, in place or not. The pace of
17 internal steps a block (log 4) and the draw counter (log 7) are the model's choice. -/
def Obligations.CbcEncryptCompletes : Prop :=
  ∀ s : State, s.phase = .idle → s.mem.wf = true → s.ksValid = true → BufferLegal s → bufferBacked s →
    17 * (s.len.toNat / 16) + 1 ≤ s.moves →
      ∃ j : Internal, exec .cbcEncrypt s = .next { s with
        phase := .idle, done := true, err := 0, int := j, draws := s.draws + 1,
        mem := storeBlocks s.mem s.dst.toNat
          (cbcEncryptBlocks s.ks (blockOfQuad s.iv) (loadBlocks (s.len.toNat / 16) s.mem s.src.toNat)) }

/-- R208: `CBC_DECRYPT` with a schedule, legal operands, backed ranges and time for its blocks writes the chained
plaintext of the source blocks at `DST`; the source blocks are those of memory at acceptance, in place or not. The pace of
17 internal steps a block (log 4) and the draw counter (log 7) are the model's choice. -/
def Obligations.CbcDecryptCompletes : Prop :=
  ∀ s : State, s.phase = .idle → s.mem.wf = true → s.ksValid = true → BufferLegal s → bufferBacked s →
    17 * (s.len.toNat / 16) + 1 ≤ s.moves →
      ∃ j : Internal, exec .cbcDecrypt s = .next { s with
        phase := .idle, done := true, err := 0, int := j, draws := s.draws + 1,
        mem := storeBlocks s.mem s.dst.toNat
          (cbcDecryptBlocks s.ks (blockOfQuad s.iv) (loadBlocks (s.len.toNat / 16) s.mem s.src.toNat)) }

/-- R206: a CBC command over no block completes, or is rejected for want of a schedule; memory is untouched.
The completion step is one internal step (log 4), and the draw counter (log 7) is the model's choice. -/
def Obligations.ZeroLengthCbcTouchesNoMemory : Prop :=
  ∀ (s : State) (i : Instr), s.phase = .idle → i = .cbcEncrypt ∨ i = .cbcDecrypt → s.len = 0 → 1 ≤ s.moves →
    (s.ksValid = true → ∃ j : Internal, exec i s = .next { s with
      phase := .idle, done := true, err := 0, int := j, draws := s.draws + 1 }) ∧
    (s.ksValid = false → exec i s = .next { s with done := true, err := 2 })

/-- R68: an internal step of a command on track either shows the host nothing new, `DONE` and `ERR` still 0, or is the
completion step, which commits the command's own results, clears `BUSY`, sets `DONE` and leaves `ERR` 0. -/
def Obligations.CompletionCommitsAtOnce : Prop :=
  ∀ (s t : State) (i : Instr), Inv s → s.phase = .busy → decodeOp s.int.curOp = some i → coreMove s = .next t →
    (t.phase = .busy ∧ t.done = false ∧ t.err = 0 ∧ ResultsKept s t) ∨
      (t.phase = .idle ∧ t.done = true ∧ t.err = 0 ∧
        match i with
        | .expandKey => t.ks = expandKey s.key ∧ t.ksValid = true ∧ t.dout = s.dout
        | .encryptBlock =>
          t.dout = quadOfBlock (encryptBlock s.ks (blockOfQuad s.din)) ∧ t.ks = s.ks ∧ t.ksValid = s.ksValid
        | .decryptBlock =>
          t.dout = quadOfBlock (decryptBlock s.ks (blockOfQuad s.din)) ∧ t.ks = s.ks ∧ t.ksValid = s.ksValid
        | .cbcEncrypt => ResultsKept s t
        | .cbcDecrypt => ResultsKept s t)

/-! ### Frames -/

/-- What `EXPAND_KEY`, `ENCRYPT_BLOCK` and `DECRYPT_BLOCK` leave unchanged, whether rejected, still running or complete:
every operand register, the port, every byte of memory; `EXPAND_KEY` also `DOUT0..3`, the other two also the schedule. -/
def Obligations.RegisterCommandsFrame : Prop :=
  ∀ (s t : State) (i : Instr), s.phase = .idle →
    i = .expandKey ∨ i = .encryptBlock ∨ i = .decryptBlock → exec i s = .next t →
      OperandsKept s t ∧ PortKept s t ∧ (∀ a, readByte t.mem a = readByte s.mem a) ∧
        (i = .expandKey → t.dout = s.dout) ∧ (i ≠ .expandKey → t.ks = s.ks ∧ t.ksValid = s.ksValid)

/-- What the CBC commands leave unchanged, whether rejected, still running or complete: every register but `STATUS`, and
every byte of memory but those of the output blocks, at `DST + 16k` for `k < LEN / 16`. -/
def Obligations.CbcCommandsFrame : Prop :=
  ∀ (s t : State) (i : Instr), s.phase = .idle → s.mem.wf = true → i = .cbcEncrypt ∨ i = .cbcDecrypt →
    exec i s = .next t →
      OperandsKept s t ∧ PortKept s t ∧ ResultsKept s t ∧
        ∀ a, (∀ k < blockCount s, ¬(dstAddr s k ≤ a ∧ a < dstAddr s k + 16)) →
          readByte t.mem a = readByte s.mem a

/-- No command writes an operand register (R48, D39): in a step without reset, and whose host turn writes no register but
`CMD`, `SRC`, `DST`, `LEN`, `KEY0..7`, `IV0..3` and `DIN0..3` keep their values. -/
def Obligations.OnlyTheHostWritesOperands : Prop :=
  ∀ s t : State, step s = .next t →
    (∀ turn rest, s.turns = turn :: rest → turn.rst = false ∧
        ∀ off v, turn.act = .regWrite off v → off &&& 0xFFC = 0) →
      OperandsKept s t

/-- The core writes no byte outside `[DST, DST+LEN)` (R72): in a step whose host turn is no memory write and no reset, every
byte of buffer memory outside that range keeps its value. -/
def Obligations.StepsWriteOnlyTheDestination : Prop :=
  ∀ s t : State, s.mem.wf = true → step s = .next t →
    (∀ turn rest, s.turns = turn :: rest → turn.rst = false ∧ ∀ a b, turn.act ≠ .memWrite a b) →
      ∀ a, inRange a s.dst.toNat s.len.toNat = false → readByte t.mem a = readByte s.mem a

/-- `KS_VALID` (R27): only the completion of `EXPAND_KEY` sets it, with the schedule of the key then in `KEY0..7`; without
reset no step clears it. -/
def Obligations.KsValidIsSetOnlyByExpandKey : Prop :=
  ∀ s t : State, Inv s → step s = .next t → (∀ turn rest, s.turns = turn :: rest → turn.rst = false) →
    (s.ksValid = true → t.ksValid = true) ∧
      (s.ksValid = false → t.ksValid = true → t.ks = expandKey s.key ∧ t.phase = .idle ∧ t.done = true)

/-! ### The invariant and progress -/

/-- The state after reset meets the invariant. -/
def Obligations.ResetMeetsTheInvariant : Prop := Inv State.reset

/-- Every step keeps the invariant, whatever the host does: canonical memory, `BUSY` and `DONE` exclusive (R26), no
reserved error code (R28), and a running command whose checks hold and whose internal registers are on track. -/
def Obligations.StepKeepsTheInvariant : Prop :=
  ∀ s t : State, Inv s → step s = .next t → Inv t

/-- From a state that meets the invariant, a step whose host turn obeys R80 (5) and touches backed addresses answers a next
state: no internal invariant failure arises (R241), and the system stops for no other reason (log 10 to 12). -/
def Obligations.ObedientStepsAnswer : Prop :=
  ∀ s : State, Inv s → turnObeys s = true → ∃ t, step s = .next t

/-- Every accepted command on backed addresses completes within a bound proportional to the buffer length (R67, R290); the
constants of the bound are the model's grain of internal steps (log 4). And every run of the system is fair to the core
(R291), so in every run without a reset the command completes, whatever else the host does. -/
def Obligations.RunningCommandsComplete : Prop :=
  (∀ s : State, Inv s → s.phase = .busy →
    (decodeOp s.int.curOp = some .cbcEncrypt ∨ decodeOp s.int.curOp = some .cbcDecrypt → bufferBacked s) →
      (movesLeft s ≤ 53 + 17 * (s.len.toNat / 16) ∧
        ∃ t, advance (movesLeft s) s = .next t ∧ t.phase = .idle ∧ t.done = true ∧ t.err = 0) ∧
      ∀ r : Nat → State, IsRun r → NoReset r → r 0 = s →
        ∃ n, (r n).phase = .idle ∧ (r n).done = true ∧ (r n).err = 0) ∧
    ∀ r : Nat → State, IsRun r → WeaklyFair r

/-- A CBC command whose next request touches an unbacked address has no step, however long the core is given, and the core
stays `BUSY` (R75). That having no step is an internal step that changes nothing is the model's form (log 9). -/
def Obligations.UnbackedRequestIsStuck : Prop :=
  ∀ (s : State) (i : Instr), s.phase = .busy → decodeOp s.int.curOp = some i → i = .cbcEncrypt ∨ i = .cbcDecrypt →
    s.int.blockIndex < blockCount s →
      (s.int.stage = .read ∧ ∃ j < 16, admitted s (srcAddr s s.int.blockIndex + j) = false) ∨
        (s.int.stage = .write ∧ ∃ j < 16, admitted s (dstAddr s s.int.blockIndex + j) = false) →
        ∀ n, advance n s = .next s

/-- R80 (5), R276 and U7: a step is refused as a race exactly when the host reads or writes a byte of the source or the
destination range of a CBC command in progress. That reading the source range, of which R282 does not speak, is a race, and
that a race in a turn with `rst = 1` is refused too, is the model's reading (log 10). -/
def Obligations.BufferRaceIsRefused : Prop :=
  ∀ s : State,
    step s = .refused .bufferRace ↔
      s.phase = .busy ∧
        (decodeOp s.int.curOp = some .cbcEncrypt ∨ decodeOp s.int.curOp = some .cbcDecrypt) ∧
        ∃ turn rest a, s.turns = turn :: rest ∧
          (turn.act = .memRead a ∨ ∃ b, turn.act = .memWrite a b) ∧
          (inRange a.toNat s.src.toNat s.len.toNat = true ∨ inRange a.toNat s.dst.toNat s.len.toNat = true)

/-- Internal storage left by earlier commands is never observable (R20, R41 to R45): indistinguishable states take
indistinguishable steps, and every register reads the same in both. -/
def Obligations.LeftoverStorageIsNeverObserved : Prop :=
  ∀ s t : State, Indistinguishable s t →
    SameOutcome (step s) (step t) ∧ (∀ off, readReg off s = readReg off t) ∧ s.mem = t.mem

/-! ### Reset -/

/-- R271 at the register port: every register reads 0 after reset, and the `done` pin is 0. -/
def Obligations.ResetRegistersReadZero : Prop :=
  (∀ off, readReg off State.reset = 0) ∧ State.reset.phase = .idle ∧ donePin State.reset = false ∧
    State.reset.key = Vector.replicate 8 0

/-- R270: a step with `rst = 1` puts the core at its reset values whatever else happens in it; a register write in the same
step has no effect and a register read returns the reset value. Without an access to memory in it the step always
answers. An access to memory in a reset step is the host's and is made (log 14). -/
def Obligations.ResetWins : Prop :=
  (∀ (s t : State) (turn : Turn) (rest : List Turn), s.turns = turn :: rest → turn.rst = true → step s = .next t →
    (t.phase = .idle ∧ t.done = false ∧ t.ksValid = false ∧ t.err = 0 ∧ t.src = 0 ∧ t.dst = 0 ∧ t.len = 0 ∧
      t.key = Vector.replicate 8 0 ∧ t.iv = Vector.replicate 4 0 ∧ t.din = Vector.replicate 4 0 ∧
      t.dout = Vector.replicate 4 0) ∧
    (∀ off, turn.act = .regRead off → t.readData = 0)) ∧
    ∀ (s : State) (turn : Turn) (rest : List Turn), s.turns = turn :: rest → turn.rst = true →
      (∀ a, turn.act ≠ .memRead a) → (∀ a b, turn.act ≠ .memWrite a b) → ∃ t, step s = .next t

/-- R272: reset does not touch buffer memory; with a CBC command in progress only its destination range is in doubt
(R273). -/
def Obligations.ResetKeepsMemory : Prop :=
  ∀ (s t : State) (turn : Turn) (rest : List Turn), s.mem.wf = true → s.turns = turn :: rest → turn.rst = true →
    (∀ a b, turn.act ≠ .memWrite a b) → step s = .next t →
      (cbcBusy s = false → t.mem = s.mem) ∧
        ∀ a, inRange a s.dst.toNat s.len.toNat = false → readByte t.mem a = readByte s.mem a

/-- R273: reset during a CBC command. Of the blocks not yet written, some number `m` is fully written, each byte of the
next holds its old or its new value, the others are unchanged, and so is every byte outside them. Which `m` and which bytes
is a free draw (log 8), of which nothing is said. -/
def Obligations.ResetDuringCbcLeavesAPrefix : Prop :=
  ∀ (s t : State) (i : Instr) (f : KeySchedule → Block → Block → Block × Block) (n : Nat) (rest : List Turn),
    Inv s → s.phase = .busy → decodeOp s.int.curOp = some i → cbcStepOf i = some f →
      s.turns = ⟨true, .quiet, n⟩ :: rest → step s = .next t →
        let k := s.int.blockIndex
        let outs := cbcChain (f s.ks) s.int.cv (loadBlocks (blockCount s - k) s.mem (srcAddr s k))
        t.phase = .idle ∧ t.done = false ∧ t.err = 0 ∧
          (∃ m ≤ blockCount s - k, ∀ j < blockCount s - k, ∀ b < 16,
            let old := readByte s.mem (dstAddr s (k + j) + b)
            let new := (outs.getD j (Vector.replicate 16 0)).toList.getD b 0
            let now := readByte t.mem (dstAddr s (k + j) + b)
            (j < m → now = new) ∧ (j = m → now = old ∨ now = new) ∧ (m < j → now = old)) ∧
          ∀ a, (∀ j < blockCount s - k, ¬(dstAddr s (k + j) ≤ a ∧ a < dstAddr s (k + j) + 16)) →
            readByte t.mem a = readByte s.mem a

/-! ### The cipher -/

/-- R125: the laws of the field. -/
def Obligations.FieldLaws : Prop :=
  ∀ a b c : Byte,
    gfMult a b = gfMult b a ∧ gfMult a (b ^^^ c) = gfMult a b ^^^ gfMult a c ∧
      gfMult (gfMult a b) c = gfMult a (gfMult b c) ∧ gfMult a 0x01 = a ∧ gfMult a 0x00 = 0x00

/-- R124: the loop runs once per bit of `b` up to the highest set bit, so at most 8 times, and more iterations than that
change nothing. -/
def Obligations.MultiplyLoopIterations : Prop :=
  ∀ (b : Byte),
    gfIterations 8 b ≤ 8 ∧ (b = 0 → gfIterations 8 b = 0) ∧
      (∀ m, b.getLsbD m = true → (∀ j, m < j → b.getLsbD j = false) → gfIterations 8 b = m + 1) ∧
      ∀ (n : Nat) (p a : Byte), gfMultLoop (gfIterations 8 b + n) p a b = gfMultLoop (gfIterations 8 b) p a b

/-- R126: the constant multipliers in terms of `gf_double` and exclusive-or. -/
def Obligations.ConstantMultipliers : Prop :=
  ∀ a : Byte,
    let d1 := gfDouble a
    let d2 := gfDouble d1
    let d3 := gfDouble d2
    gfMult a 0x01 = a ∧ gfMult a 0x02 = d1 ∧ gfMult a 0x03 = d1 ^^^ a ∧ gfMult a 0x09 = d3 ^^^ a ∧
      gfMult a 0x0B = d3 ^^^ d1 ^^^ a ∧ gfMult a 0x0D = d3 ^^^ d2 ^^^ a ∧ gfMult a 0x0E = d3 ^^^ d2 ^^^ d1

/-- The S-box is a permutation with no fixed point (R160) and `inv_sbox(y)` is the unique `x` with `sbox(x) = y` (R161). -/
def Obligations.SboxIsAPermutation : Prop :=
  (∀ x : Byte, sbox x ≠ x) ∧ (∀ x : Byte, invSbox (sbox x) = x) ∧ ∀ y : Byte, sbox (invSbox y) = y

/-- ShiftRows and its inverse as the tables of R165 and R169, and four ShiftRows are the identity. -/
def Obligations.ShiftRowsTables : Prop :=
  ∀ s : Block,
    (∀ j : Fin 16, (shiftRows s)[j] =
      s.toList.getD ([0, 5, 10, 15, 4, 9, 14, 3, 8, 13, 2, 7, 12, 1, 6, 11].getD j.val 0) 0) ∧
    (∀ j : Fin 16, (invShiftRows s)[j] =
      s.toList.getD ([0, 13, 10, 7, 4, 1, 14, 11, 8, 5, 2, 15, 12, 9, 6, 3].getD j.val 0) 0) ∧
    shiftRows (shiftRows (shiftRows (shiftRows s))) = s

/-- Each inverse round operation undoes its operation, in both orders (R167 to R170). -/
def Obligations.RoundOperationsInvert : Prop :=
  ∀ s rk : Block,
    invSubBytes (subBytes s) = s ∧ subBytes (invSubBytes s) = s ∧
      invShiftRows (shiftRows s) = s ∧ shiftRows (invShiftRows s) = s ∧
      invMixColumns (mixColumns s) = s ∧ mixColumns (invMixColumns s) = s ∧
      addRoundKey (addRoundKey s rk) rk = s ∧ invShiftRows (invSubBytes s) = invSubBytes (invShiftRows s)

/-- R173: the cipher and the inverse cipher are inverse to each other under every schedule. -/
def Obligations.CipherInverse : Prop :=
  ∀ (ks : KeySchedule) (b : Block), decryptBlock ks (encryptBlock ks b) = b ∧ encryptBlock ks (decryptBlock ks b) = b

/-- R143, byte by byte: the first 32 bytes are the key; byte `j` of the word at `i` is byte `i - 32 + j` XOR byte `j` of
`temp`, in the three cases of the position, the round counter being `i / 32`. -/
def Obligations.ScheduleRecurrence : Prop :=
  ∀ key : Key,
    (∀ i < 32, ksByte (expandKey key) i = keyByte key i) ∧
      ∀ n, 8 ≤ n → n < 60 → ∀ j < 4,
        let i := 4 * n
        let w := ksByte (expandKey key)
        w (i + j) = w (i - 32 + j) ^^^
          (if i % 32 = 0 then
            sbox (w (i - 4 + (j + 1) % 4)) ^^^ (if j = 0 then rconAt (i / 32) else 0)
          else if i % 32 = 16 then sbox (w (i - 4 + j))
          else w (i - 4 + j))

/-- The closed form of CBC decryption undoes that of encryption under the same schedule and IV (R210 (1)). -/
def Obligations.CbcRoundTrip : Prop :=
  ∀ (ks : KeySchedule) (iv : Block) (p : List Block),
    cbcDecryptBlocks ks iv (cbcEncryptBlocks ks iv p) = p ∧ (cbcEncryptBlocks ks iv p).length = p.length

/-- Chaining dependency (R210 (2)): a change of plaintext block `k` alone leaves the ciphertext blocks before `k` and
changes block `k` and every later one. -/
def Obligations.ChainingDependency : Prop :=
  ∀ (ks : KeySchedule) (iv x y : Block) (before after : List Block), x ≠ y →
    let c := cbcEncryptBlocks ks iv (before ++ x :: after)
    let d := cbcEncryptBlocks ks iv (before ++ y :: after)
    (∀ j : Nat, j < before.length → c.getD j iv = d.getD j iv) ∧
      ∀ j : Nat, before.length ≤ j → j < (before ++ x :: after).length → c.getD j iv ≠ d.getD j iv

/-- Decryption locality (R210 (3)): a change of ciphertext block `k` alone changes plaintext blocks `k` and, where there is
one, `k + 1`, and no other. -/
def Obligations.DecryptionLocality : Prop :=
  ∀ (ks : KeySchedule) (iv x y : Block) (before after : List Block),
    let p := cbcDecryptBlocks ks iv (before ++ x :: after)
    let q := cbcDecryptBlocks ks iv (before ++ y :: after)
    let k := before.length
    (∀ j : Nat, j ≠ k → j ≠ k + 1 → p.getD j iv = q.getD j iv) ∧
      (x ≠ y → p.getD k iv ≠ q.getD k iv ∧ (after ≠ [] → p.getD (k + 1) iv ≠ q.getD (k + 1) iv))

/-- Chunked processing (R209): a buffer split into two commands gives the one-command result when the second starts from
the last ciphertext block of the first. -/
def Obligations.ChunksChain : Prop :=
  ∀ (ks : KeySchedule) (iv : Block) (a b : List Block),
    cbcEncryptBlocks ks iv (a ++ b) =
        cbcEncryptBlocks ks iv a ++ cbcEncryptBlocks ks ((cbcEncryptBlocks ks iv a).getLastD iv) b ∧
      cbcDecryptBlocks ks iv (a ++ b) = cbcDecryptBlocks ks iv a ++ cbcDecryptBlocks ks (a.getLastD iv) b

/-- The subblock ports (R140, R163): byte `j` of a block in bits `127-8j : 120-8j`, word `m` of a key or schedule most
significant first, and nothing lost. -/
def Obligations.PortsCarryByteZeroFirst : Prop :=
  (∀ (b : Block) (j : Fin 16), (blockPort b).extractLsb' (120 - 8 * j.val) 8 = b[j]) ∧
    (∀ p : BitVec 128, blockPort (blockOfPort p) = p) ∧
    (∀ (k : Key) (j : Fin 32), (keyPort k).extractLsb' (248 - 8 * j.val) 8 = keyByte k j.val) ∧
    ∀ (ks : KeySchedule) (j : Fin 240), (schedulePort ks).extractLsb' (1912 - 8 * j.val) 8 = ksByte ks j.val

/-! ### Buffer memory -/

/-- Byte reads and writes: the byte written is read back, every other is as before, and the canonical form is kept. -/
def Obligations.MemoryReadsWhatWasWritten : Prop :=
  ∀ (m : Memory) (a x : Nat) (b : Byte), m.wf = true → a < 2 ^ 32 →
    readByte (writeByte m a b) x = (if x = a then b else readByte m x) ∧ (writeByte m a b).wf = true

/-- Blocks stored one after another at any address are read back in order, byte `i` of a block at its address plus `i`
(R76), and no other byte changes. -/
def Obligations.StoredBlocksReadBack : Prop :=
  ∀ (m : Memory) (a : Nat) (bs : List Block), m.wf = true → a + 16 * bs.length ≤ 2 ^ 32 →
    loadBlocks bs.length (storeBlocks m a bs) a = bs ∧
      (∀ x, ¬(a ≤ x ∧ x < a + 16 * bs.length) → readByte (storeBlocks m a bs) x = readByte m x) ∧
      ∀ (b : Block) (i : Nat) (h : i < 16), bs = [b] → readByte (storeBlocks m a bs) (a + i) = b[i]
end

