-- ==== Sys2Proof/Laws/Vectors.lean ====
section
/-! SUPPORT. Lemmas about vectors built entry by entry, and about the blocks made of them. -/

namespace Sys2Proof

@[simp] theorem tabulate_getElem {α : Type} {n : Nat} (f : Fin n → α) (i : Nat) (h : i < n) :
    (tabulate f)[i] = f ⟨i, h⟩ := by
  simp [tabulate]

@[simp] theorem tabulate_toList {α : Type} {n : Nat} (f : Fin n → α) : (tabulate f).toList = List.ofFn f := by
  simp [tabulate]

/-- A vector is the table of its entries. -/
theorem tabulate_eta {α : Type} {n : Nat} (v : Vector α n) : tabulate (fun i => v[i]) = v := by
  ext i h
  simp

end Sys2Proof

namespace Sys2Proof.Machine

@[simp] theorem xorBlock_getElem (x y : Block) (i : Nat) (h : i < 16) : (xorBlock x y)[i] = x[i] ^^^ y[i] := by
  simp [xorBlock]

@[simp] theorem readBlock_getElem (m : Memory) (a i : Nat) (h : i < 16) : (readBlock m a)[i] = readByte m (a + i) := by
  simp [readBlock]

theorem xorBlock_comm (x y : Block) : xorBlock x y = xorBlock y x := by
  ext i h
  simp [BitVec.xor_comm]

/-- Adding the same block twice changes nothing (R167). -/
@[simp] theorem xorBlock_cancel (x y : Block) : xorBlock (xorBlock x y) y = x := by
  ext i h : 1
  simp

end Sys2Proof.Machine
end

