-- ==== Sys2Proof/Laws/Memory.lean ====
section
/-! SUPPORT. Buffer memory: read after write, and every operation keeps the canonical form. -/

namespace Sys2Proof.Machine

theorem readByte_of_lt {lo a : Nat} {m : Memory} (h : risingFrom lo m = true) (ha : a < lo) :
    readByte m a = unwritten := by
  induction m generalizing lo with
  | nil => rfl
  | cons c rest ih =>
    obtain ⟨x, b⟩ := c
    simp only [risingFrom, Bool.and_eq_true, decide_eq_true_eq] at h
    have hx : x ≠ a := by omega
    simp only [readByte, if_neg hx]
    exact ih h.2 (by omega)

theorem risingFrom_mono {lo lo' : Nat} {m : Memory} (h : risingFrom lo m = true) (hle : lo' ≤ lo) :
    risingFrom lo' m = true := by
  cases m with
  | nil => rfl
  | cons c rest =>
    obtain ⟨x, b⟩ := c
    simp only [risingFrom, Bool.and_eq_true, decide_eq_true_eq] at h ⊢
    exact ⟨⟨⟨by omega, h.1.1.2⟩, h.1.2⟩, h.2⟩

/-- Reading a memory with one more cell in front. -/
theorem readByte_consCell {a x : Nat} {b : Byte} {m : Memory} (h : risingFrom (a + 1) m = true) :
    readByte (consCell a b m) x = if a = x then b else readByte m x := by
  unfold consCell
  split
  · next hb =>
    split
    · next hx => rw [hb, ← hx]; exact readByte_of_lt h (by omega)
    · rfl
  · rfl

theorem risingFrom_consCell {lo a : Nat} {b : Byte} {m : Memory} (h : risingFrom (a + 1) m = true) (hlo : lo ≤ a)
    (ha : a < Config.addressSpace) : risingFrom lo (consCell a b m) = true := by
  unfold consCell
  split
  · exact risingFrom_mono h (by omega)
  · next hb => simp [risingFrom, hlo, ha, hb, h]

/-- A write inside the address space keeps the canonical form. -/
theorem risingFrom_writeByte {lo a : Nat} {b : Byte} {m : Memory} (h : risingFrom lo m = true) (hlo : lo ≤ a)
    (ha : a < Config.addressSpace) : risingFrom lo (writeByte m a b) = true := by
  induction m generalizing lo with
  | nil => exact risingFrom_consCell rfl hlo ha
  | cons c rest ih =>
    obtain ⟨x, d⟩ := c
    have h' := h
    simp only [risingFrom, Bool.and_eq_true, decide_eq_true_eq] at h'
    simp only [writeByte]
    split
    · refine risingFrom_consCell ?_ hlo ha
      simp only [risingFrom, Bool.and_eq_true, decide_eq_true_eq]
      exact ⟨⟨⟨by omega, h'.1.1.2⟩, h'.1.2⟩, h'.2⟩
    · split
      · next _ hx => subst hx; exact risingFrom_consCell h'.2 hlo ha
      · simp only [risingFrom, Bool.and_eq_true, decide_eq_true_eq]
        exact ⟨⟨⟨h'.1.1.1, h'.1.1.2⟩, h'.1.2⟩, ih h'.2 (by omega)⟩

/-- Reading after one write: the byte written there, every other byte as before. -/
theorem readByte_writeByte {lo a x : Nat} {b : Byte} {m : Memory} (h : risingFrom lo m = true) :
    readByte (writeByte m a b) x = if a = x then b else readByte m x := by
  induction m generalizing lo with
  | nil => exact readByte_consCell rfl
  | cons c rest ih =>
    obtain ⟨y, d⟩ := c
    have h' := h
    simp only [risingFrom, Bool.and_eq_true, decide_eq_true_eq] at h'
    simp only [writeByte]
    split
    · refine readByte_consCell ?_
      simp only [risingFrom, Bool.and_eq_true, decide_eq_true_eq]
      exact ⟨⟨⟨by omega, h'.1.1.2⟩, h'.1.2⟩, h'.2⟩
    · split
      · next _ hy =>
        subst hy
        rw [readByte_consCell h'.2]
        by_cases hx : a = x <;> simp [readByte, hx]
      · next h1 h2 =>
        simp only [readByte]
        by_cases hy : y = x
        · simp [hy, show a ≠ x by omega]
        · simp only [if_neg hy]; exact ih h'.2

theorem writeByte_wf {m : Memory} {a : Nat} {b : Byte} (h : m.wf = true) (ha : a < Config.addressSpace) :
    (writeByte m a b).wf = true :=
  risingFrom_writeByte h (Nat.zero_le _) ha

theorem readByte_writeByte_of_wf {m : Memory} {a x : Nat} {b : Byte} (h : m.wf = true) :
    readByte (writeByte m a b) x = if a = x then b else readByte m x :=
  readByte_writeByte h

theorem writeBytes_wf {n : Nat} {m : Memory} {a : Nat} {f : Nat → Byte} (h : m.wf = true)
    (ha : a + n ≤ Config.addressSpace) : (writeBytes n m a f).wf = true := by
  induction n generalizing m a f with
  | zero => exact h
  | succ n ih => exact ih (writeByte_wf h (by omega)) (by omega)

/-- What a run of writes leaves at each address. -/
theorem readByte_writeBytes {n : Nat} {m : Memory} {a x : Nat} {f : Nat → Byte} (h : m.wf = true)
    (ha : a + n ≤ Config.addressSpace) :
    readByte (writeBytes n m a f) x = if a ≤ x ∧ x < a + n then f (x - a) else readByte m x := by
  induction n generalizing m a f with
  | zero => simp [writeBytes, show ¬(a ≤ x ∧ x < a) by omega]
  | succ n ih =>
    simp only [writeBytes]
    rw [ih (writeByte_wf h (by omega)) (by omega), readByte_writeByte_of_wf h]
    by_cases hx : a = x
    · subst hx; simp
    · by_cases hr : a + 1 ≤ x ∧ x < a + 1 + n
      · rw [if_pos hr, if_pos (by omega), show x - (a + 1) + 1 = x - a by omega]
      · rw [if_neg hr, if_neg hx, if_neg (by omega)]

theorem writeBlock_wf {m : Memory} {a : Nat} {v : Block} (h : m.wf = true) (ha : a + 16 ≤ Config.addressSpace) :
    (writeBlock m a v).wf = true :=
  writeBytes_wf h ha

/-- What `MemWrite(a, 16, v)` leaves at each address (R13, R76). -/
theorem readByte_writeBlock {m : Memory} {a x : Nat} {v : Block} (h : m.wf = true)
    (ha : a + 16 ≤ Config.addressSpace) :
    readByte (writeBlock m a v) x = if a ≤ x ∧ x < a + 16 then v.toList.getD (x - a) 0 else readByte m x :=
  readByte_writeBytes h ha

theorem admitted_lt {s : State} {a : Nat} (h : admitted s a = true) : a < Config.addressSpace := by
  simp only [admitted, Bool.and_eq_true, decide_eq_true_eq] at h
  exact h.1

/-- A request at backed addresses lies inside the address space (R74). -/
theorem blockAdmitted_le {s : State} {a : Nat} (h : blockAdmitted s a = true) : a + 16 ≤ Config.addressSpace := by
  have := admitted_lt (List.all_eq_true.1 h 15 (by simp))
  omega

theorem blockAdmitted_byte {s : State} {a j : Nat} (h : blockAdmitted s a = true) (hj : j < 16) :
    admitted s (a + j) = true :=
  List.all_eq_true.1 h j (by simpa using hj)

theorem blockAdmitted_of_bytes {s : State} {a : Nat} (h : ∀ j < 16, admitted s (a + j) = true) :
    blockAdmitted s a = true :=
  List.all_eq_true.2 fun j hj => h j (by simpa using hj)

/-- Which addresses are backed depends on `MEM_ADMIT` alone. -/
theorem admitted_congr {s t : State} (h : t.backed = s.backed) (a : Nat) : admitted t a = admitted s a := by
  simp [admitted, h]

theorem blockAdmitted_congr {s t : State} (h : t.backed = s.backed) (a : Nat) :
    blockAdmitted t a = blockAdmitted s a := by
  simp [blockAdmitted, admitted_congr h]

end Sys2Proof.Machine
end

