-- ==== Sys2Proof/Laws/State.lean ====
section
/-! SUPPORT. One lemma per field for each operation that updates the state. -/

namespace Sys2Proof.Machine

@[simp] theorem reject_phase (e : ErrCode) (s : State) : (reject e s).phase = s.phase := rfl
@[simp] theorem reject_done (e : ErrCode) (s : State) : (reject e s).done = true := rfl
@[simp] theorem reject_ksValid (e : ErrCode) (s : State) : (reject e s).ksValid = s.ksValid := rfl
@[simp] theorem reject_err (e : ErrCode) (s : State) : (reject e s).err = errCode e := rfl
@[simp] theorem reject_src (e : ErrCode) (s : State) : (reject e s).src = s.src := rfl
@[simp] theorem reject_dst (e : ErrCode) (s : State) : (reject e s).dst = s.dst := rfl
@[simp] theorem reject_len (e : ErrCode) (s : State) : (reject e s).len = s.len := rfl
@[simp] theorem reject_key (e : ErrCode) (s : State) : (reject e s).key = s.key := rfl
@[simp] theorem reject_iv (e : ErrCode) (s : State) : (reject e s).iv = s.iv := rfl
@[simp] theorem reject_din (e : ErrCode) (s : State) : (reject e s).din = s.din := rfl
@[simp] theorem reject_dout (e : ErrCode) (s : State) : (reject e s).dout = s.dout := rfl
@[simp] theorem reject_ks (e : ErrCode) (s : State) : (reject e s).ks = s.ks := rfl
@[simp] theorem reject_int (e : ErrCode) (s : State) : (reject e s).int = s.int := rfl
@[simp] theorem reject_mem (e : ErrCode) (s : State) : (reject e s).mem = s.mem := rfl
@[simp] theorem reject_backed (e : ErrCode) (s : State) : (reject e s).backed = s.backed := rfl
@[simp] theorem reject_turns (e : ErrCode) (s : State) : (reject e s).turns = s.turns := rfl
@[simp] theorem reject_moves (e : ErrCode) (s : State) : (reject e s).moves = s.moves := rfl
@[simp] theorem reject_readData (e : ErrCode) (s : State) : (reject e s).readData = s.readData := rfl
@[simp] theorem reject_hostByte (e : ErrCode) (s : State) : (reject e s).hostByte = s.hostByte := rfl
@[simp] theorem reject_draws (e : ErrCode) (s : State) : (reject e s).draws = s.draws := rfl

@[simp] theorem accepted_phase (op : BitVec 4) (s : State) : (accepted op s).phase = .busy := rfl
@[simp] theorem accepted_done (op : BitVec 4) (s : State) : (accepted op s).done = false := rfl
@[simp] theorem accepted_ksValid (op : BitVec 4) (s : State) : (accepted op s).ksValid = s.ksValid := rfl
@[simp] theorem accepted_err (op : BitVec 4) (s : State) : (accepted op s).err = 0 := rfl
@[simp] theorem accepted_src (op : BitVec 4) (s : State) : (accepted op s).src = s.src := rfl
@[simp] theorem accepted_dst (op : BitVec 4) (s : State) : (accepted op s).dst = s.dst := rfl
@[simp] theorem accepted_len (op : BitVec 4) (s : State) : (accepted op s).len = s.len := rfl
@[simp] theorem accepted_key (op : BitVec 4) (s : State) : (accepted op s).key = s.key := rfl
@[simp] theorem accepted_iv (op : BitVec 4) (s : State) : (accepted op s).iv = s.iv := rfl
@[simp] theorem accepted_din (op : BitVec 4) (s : State) : (accepted op s).din = s.din := rfl
@[simp] theorem accepted_dout (op : BitVec 4) (s : State) : (accepted op s).dout = s.dout := rfl
@[simp] theorem accepted_ks (op : BitVec 4) (s : State) : (accepted op s).ks = s.ks := rfl
@[simp] theorem accepted_int (op : BitVec 4) (s : State) : (accepted op s).int = { s.int with curOp := op } := rfl
@[simp] theorem accepted_mem (op : BitVec 4) (s : State) : (accepted op s).mem = s.mem := rfl
@[simp] theorem accepted_backed (op : BitVec 4) (s : State) : (accepted op s).backed = s.backed := rfl
@[simp] theorem accepted_turns (op : BitVec 4) (s : State) : (accepted op s).turns = s.turns := rfl
@[simp] theorem accepted_moves (op : BitVec 4) (s : State) : (accepted op s).moves = s.moves := rfl
@[simp] theorem accepted_readData (op : BitVec 4) (s : State) : (accepted op s).readData = s.readData := rfl
@[simp] theorem accepted_hostByte (op : BitVec 4) (s : State) : (accepted op s).hostByte = s.hostByte := rfl
@[simp] theorem accepted_draws (op : BitVec 4) (s : State) : (accepted op s).draws = s.draws := rfl

@[simp] theorem complete_phase (s : State) : (complete s).phase = .idle := rfl
@[simp] theorem complete_done (s : State) : (complete s).done = true := rfl
@[simp] theorem complete_ksValid (s : State) : (complete s).ksValid = s.ksValid := rfl
@[simp] theorem complete_err (s : State) : (complete s).err = s.err := rfl
@[simp] theorem complete_src (s : State) : (complete s).src = s.src := rfl
@[simp] theorem complete_dst (s : State) : (complete s).dst = s.dst := rfl
@[simp] theorem complete_len (s : State) : (complete s).len = s.len := rfl
@[simp] theorem complete_key (s : State) : (complete s).key = s.key := rfl
@[simp] theorem complete_iv (s : State) : (complete s).iv = s.iv := rfl
@[simp] theorem complete_din (s : State) : (complete s).din = s.din := rfl
@[simp] theorem complete_dout (s : State) : (complete s).dout = s.dout := rfl
@[simp] theorem complete_ks (s : State) : (complete s).ks = s.ks := rfl
@[simp] theorem complete_int (s : State) : (complete s).int = leftover s.draws s.int := rfl
@[simp] theorem complete_mem (s : State) : (complete s).mem = s.mem := rfl
@[simp] theorem complete_backed (s : State) : (complete s).backed = s.backed := rfl
@[simp] theorem complete_turns (s : State) : (complete s).turns = s.turns := rfl
@[simp] theorem complete_moves (s : State) : (complete s).moves = s.moves := rfl
@[simp] theorem complete_readData (s : State) : (complete s).readData = s.readData := rfl
@[simp] theorem complete_hostByte (s : State) : (complete s).hostByte = s.hostByte := rfl
@[simp] theorem complete_draws (s : State) : (complete s).draws = s.draws + 1 := rfl

@[simp] theorem startExpandKey_phase (s : State) : (startExpandKey s).phase = s.phase := rfl
@[simp] theorem startExpandKey_done (s : State) : (startExpandKey s).done = s.done := rfl
@[simp] theorem startExpandKey_ksValid (s : State) : (startExpandKey s).ksValid = s.ksValid := rfl
@[simp] theorem startExpandKey_err (s : State) : (startExpandKey s).err = s.err := rfl
@[simp] theorem startExpandKey_src (s : State) : (startExpandKey s).src = s.src := rfl
@[simp] theorem startExpandKey_dst (s : State) : (startExpandKey s).dst = s.dst := rfl
@[simp] theorem startExpandKey_len (s : State) : (startExpandKey s).len = s.len := rfl
@[simp] theorem startExpandKey_key (s : State) : (startExpandKey s).key = s.key := rfl
@[simp] theorem startExpandKey_iv (s : State) : (startExpandKey s).iv = s.iv := rfl
@[simp] theorem startExpandKey_din (s : State) : (startExpandKey s).din = s.din := rfl
@[simp] theorem startExpandKey_dout (s : State) : (startExpandKey s).dout = s.dout := rfl
@[simp] theorem startExpandKey_ks (s : State) : (startExpandKey s).ks = s.ks := rfl
@[simp] theorem startExpandKey_int (s : State) : (startExpandKey s).int = { s.int with sched := s.key.toList.reverse, rcon := 1, stage := .expand } := rfl
@[simp] theorem startExpandKey_mem (s : State) : (startExpandKey s).mem = s.mem := rfl
@[simp] theorem startExpandKey_backed (s : State) : (startExpandKey s).backed = s.backed := rfl
@[simp] theorem startExpandKey_turns (s : State) : (startExpandKey s).turns = s.turns := rfl
@[simp] theorem startExpandKey_moves (s : State) : (startExpandKey s).moves = s.moves := rfl
@[simp] theorem startExpandKey_readData (s : State) : (startExpandKey s).readData = s.readData := rfl
@[simp] theorem startExpandKey_hostByte (s : State) : (startExpandKey s).hostByte = s.hostByte := rfl
@[simp] theorem startExpandKey_draws (s : State) : (startExpandKey s).draws = s.draws := rfl

@[simp] theorem startEncryptBlock_phase (s : State) : (startEncryptBlock s).phase = s.phase := rfl
@[simp] theorem startEncryptBlock_done (s : State) : (startEncryptBlock s).done = s.done := rfl
@[simp] theorem startEncryptBlock_ksValid (s : State) : (startEncryptBlock s).ksValid = s.ksValid := rfl
@[simp] theorem startEncryptBlock_err (s : State) : (startEncryptBlock s).err = s.err := rfl
@[simp] theorem startEncryptBlock_src (s : State) : (startEncryptBlock s).src = s.src := rfl
@[simp] theorem startEncryptBlock_dst (s : State) : (startEncryptBlock s).dst = s.dst := rfl
@[simp] theorem startEncryptBlock_len (s : State) : (startEncryptBlock s).len = s.len := rfl
@[simp] theorem startEncryptBlock_key (s : State) : (startEncryptBlock s).key = s.key := rfl
@[simp] theorem startEncryptBlock_iv (s : State) : (startEncryptBlock s).iv = s.iv := rfl
@[simp] theorem startEncryptBlock_din (s : State) : (startEncryptBlock s).din = s.din := rfl
@[simp] theorem startEncryptBlock_dout (s : State) : (startEncryptBlock s).dout = s.dout := rfl
@[simp] theorem startEncryptBlock_ks (s : State) : (startEncryptBlock s).ks = s.ks := rfl
@[simp] theorem startEncryptBlock_int (s : State) : (startEncryptBlock s).int = loadState (blockOfQuad s.din) s.int := rfl
@[simp] theorem startEncryptBlock_mem (s : State) : (startEncryptBlock s).mem = s.mem := rfl
@[simp] theorem startEncryptBlock_backed (s : State) : (startEncryptBlock s).backed = s.backed := rfl
@[simp] theorem startEncryptBlock_turns (s : State) : (startEncryptBlock s).turns = s.turns := rfl
@[simp] theorem startEncryptBlock_moves (s : State) : (startEncryptBlock s).moves = s.moves := rfl
@[simp] theorem startEncryptBlock_readData (s : State) : (startEncryptBlock s).readData = s.readData := rfl
@[simp] theorem startEncryptBlock_hostByte (s : State) : (startEncryptBlock s).hostByte = s.hostByte := rfl
@[simp] theorem startEncryptBlock_draws (s : State) : (startEncryptBlock s).draws = s.draws := rfl

@[simp] theorem startDecryptBlock_phase (s : State) : (startDecryptBlock s).phase = s.phase := rfl
@[simp] theorem startDecryptBlock_done (s : State) : (startDecryptBlock s).done = s.done := rfl
@[simp] theorem startDecryptBlock_ksValid (s : State) : (startDecryptBlock s).ksValid = s.ksValid := rfl
@[simp] theorem startDecryptBlock_err (s : State) : (startDecryptBlock s).err = s.err := rfl
@[simp] theorem startDecryptBlock_src (s : State) : (startDecryptBlock s).src = s.src := rfl
@[simp] theorem startDecryptBlock_dst (s : State) : (startDecryptBlock s).dst = s.dst := rfl
@[simp] theorem startDecryptBlock_len (s : State) : (startDecryptBlock s).len = s.len := rfl
@[simp] theorem startDecryptBlock_key (s : State) : (startDecryptBlock s).key = s.key := rfl
@[simp] theorem startDecryptBlock_iv (s : State) : (startDecryptBlock s).iv = s.iv := rfl
@[simp] theorem startDecryptBlock_din (s : State) : (startDecryptBlock s).din = s.din := rfl
@[simp] theorem startDecryptBlock_dout (s : State) : (startDecryptBlock s).dout = s.dout := rfl
@[simp] theorem startDecryptBlock_ks (s : State) : (startDecryptBlock s).ks = s.ks := rfl
@[simp] theorem startDecryptBlock_int (s : State) : (startDecryptBlock s).int = loadState (blockOfQuad s.din) s.int := rfl
@[simp] theorem startDecryptBlock_mem (s : State) : (startDecryptBlock s).mem = s.mem := rfl
@[simp] theorem startDecryptBlock_backed (s : State) : (startDecryptBlock s).backed = s.backed := rfl
@[simp] theorem startDecryptBlock_turns (s : State) : (startDecryptBlock s).turns = s.turns := rfl
@[simp] theorem startDecryptBlock_moves (s : State) : (startDecryptBlock s).moves = s.moves := rfl
@[simp] theorem startDecryptBlock_readData (s : State) : (startDecryptBlock s).readData = s.readData := rfl
@[simp] theorem startDecryptBlock_hostByte (s : State) : (startDecryptBlock s).hostByte = s.hostByte := rfl
@[simp] theorem startDecryptBlock_draws (s : State) : (startDecryptBlock s).draws = s.draws := rfl

@[simp] theorem startCbcEncrypt_phase (s : State) : (startCbcEncrypt s).phase = s.phase := rfl
@[simp] theorem startCbcEncrypt_done (s : State) : (startCbcEncrypt s).done = s.done := rfl
@[simp] theorem startCbcEncrypt_ksValid (s : State) : (startCbcEncrypt s).ksValid = s.ksValid := rfl
@[simp] theorem startCbcEncrypt_err (s : State) : (startCbcEncrypt s).err = s.err := rfl
@[simp] theorem startCbcEncrypt_src (s : State) : (startCbcEncrypt s).src = s.src := rfl
@[simp] theorem startCbcEncrypt_dst (s : State) : (startCbcEncrypt s).dst = s.dst := rfl
@[simp] theorem startCbcEncrypt_len (s : State) : (startCbcEncrypt s).len = s.len := rfl
@[simp] theorem startCbcEncrypt_key (s : State) : (startCbcEncrypt s).key = s.key := rfl
@[simp] theorem startCbcEncrypt_iv (s : State) : (startCbcEncrypt s).iv = s.iv := rfl
@[simp] theorem startCbcEncrypt_din (s : State) : (startCbcEncrypt s).din = s.din := rfl
@[simp] theorem startCbcEncrypt_dout (s : State) : (startCbcEncrypt s).dout = s.dout := rfl
@[simp] theorem startCbcEncrypt_ks (s : State) : (startCbcEncrypt s).ks = s.ks := rfl
@[simp] theorem startCbcEncrypt_int (s : State) : (startCbcEncrypt s).int = { s.int with cv := blockOfQuad s.iv, blockIndex := 0, stage := cbcStage s 0 } := rfl
@[simp] theorem startCbcEncrypt_mem (s : State) : (startCbcEncrypt s).mem = s.mem := rfl
@[simp] theorem startCbcEncrypt_backed (s : State) : (startCbcEncrypt s).backed = s.backed := rfl
@[simp] theorem startCbcEncrypt_turns (s : State) : (startCbcEncrypt s).turns = s.turns := rfl
@[simp] theorem startCbcEncrypt_moves (s : State) : (startCbcEncrypt s).moves = s.moves := rfl
@[simp] theorem startCbcEncrypt_readData (s : State) : (startCbcEncrypt s).readData = s.readData := rfl
@[simp] theorem startCbcEncrypt_hostByte (s : State) : (startCbcEncrypt s).hostByte = s.hostByte := rfl
@[simp] theorem startCbcEncrypt_draws (s : State) : (startCbcEncrypt s).draws = s.draws := rfl

@[simp] theorem startCbcDecrypt_phase (s : State) : (startCbcDecrypt s).phase = s.phase := rfl
@[simp] theorem startCbcDecrypt_done (s : State) : (startCbcDecrypt s).done = s.done := rfl
@[simp] theorem startCbcDecrypt_ksValid (s : State) : (startCbcDecrypt s).ksValid = s.ksValid := rfl
@[simp] theorem startCbcDecrypt_err (s : State) : (startCbcDecrypt s).err = s.err := rfl
@[simp] theorem startCbcDecrypt_src (s : State) : (startCbcDecrypt s).src = s.src := rfl
@[simp] theorem startCbcDecrypt_dst (s : State) : (startCbcDecrypt s).dst = s.dst := rfl
@[simp] theorem startCbcDecrypt_len (s : State) : (startCbcDecrypt s).len = s.len := rfl
@[simp] theorem startCbcDecrypt_key (s : State) : (startCbcDecrypt s).key = s.key := rfl
@[simp] theorem startCbcDecrypt_iv (s : State) : (startCbcDecrypt s).iv = s.iv := rfl
@[simp] theorem startCbcDecrypt_din (s : State) : (startCbcDecrypt s).din = s.din := rfl
@[simp] theorem startCbcDecrypt_dout (s : State) : (startCbcDecrypt s).dout = s.dout := rfl
@[simp] theorem startCbcDecrypt_ks (s : State) : (startCbcDecrypt s).ks = s.ks := rfl
@[simp] theorem startCbcDecrypt_int (s : State) : (startCbcDecrypt s).int = { s.int with cv := blockOfQuad s.iv, blockIndex := 0, stage := cbcStage s 0 } := rfl
@[simp] theorem startCbcDecrypt_mem (s : State) : (startCbcDecrypt s).mem = s.mem := rfl
@[simp] theorem startCbcDecrypt_backed (s : State) : (startCbcDecrypt s).backed = s.backed := rfl
@[simp] theorem startCbcDecrypt_turns (s : State) : (startCbcDecrypt s).turns = s.turns := rfl
@[simp] theorem startCbcDecrypt_moves (s : State) : (startCbcDecrypt s).moves = s.moves := rfl
@[simp] theorem startCbcDecrypt_readData (s : State) : (startCbcDecrypt s).readData = s.readData := rfl
@[simp] theorem startCbcDecrypt_hostByte (s : State) : (startCbcDecrypt s).hostByte = s.hostByte := rfl
@[simp] theorem startCbcDecrypt_draws (s : State) : (startCbcDecrypt s).draws = s.draws := rfl

@[simp] theorem resetCore_phase (s : State) : (resetCore s).phase = State.reset.phase := rfl
@[simp] theorem resetCore_done (s : State) : (resetCore s).done = State.reset.done := rfl
@[simp] theorem resetCore_ksValid (s : State) : (resetCore s).ksValid = State.reset.ksValid := rfl
@[simp] theorem resetCore_err (s : State) : (resetCore s).err = State.reset.err := rfl
@[simp] theorem resetCore_src (s : State) : (resetCore s).src = State.reset.src := rfl
@[simp] theorem resetCore_dst (s : State) : (resetCore s).dst = State.reset.dst := rfl
@[simp] theorem resetCore_len (s : State) : (resetCore s).len = State.reset.len := rfl
@[simp] theorem resetCore_key (s : State) : (resetCore s).key = State.reset.key := rfl
@[simp] theorem resetCore_iv (s : State) : (resetCore s).iv = State.reset.iv := rfl
@[simp] theorem resetCore_din (s : State) : (resetCore s).din = State.reset.din := rfl
@[simp] theorem resetCore_dout (s : State) : (resetCore s).dout = State.reset.dout := rfl
@[simp] theorem resetCore_ks (s : State) : (resetCore s).ks = State.reset.ks := rfl
@[simp] theorem resetCore_int (s : State) : (resetCore s).int = State.reset.int := rfl
@[simp] theorem resetCore_mem (s : State) : (resetCore s).mem = memAfterReset s := rfl
@[simp] theorem resetCore_backed (s : State) : (resetCore s).backed = s.backed := rfl
@[simp] theorem resetCore_turns (s : State) : (resetCore s).turns = s.turns := rfl
@[simp] theorem resetCore_moves (s : State) : (resetCore s).moves = s.moves := rfl
@[simp] theorem resetCore_readData (s : State) : (resetCore s).readData = s.readData := rfl
@[simp] theorem resetCore_hostByte (s : State) : (resetCore s).hostByte = s.hostByte := rfl
@[simp] theorem resetCore_draws (s : State) : (resetCore s).draws = s.draws + 1 := rfl

@[simp] theorem loadState_curOp (b : Block) (i : Internal) : (loadState b i).curOp = i.curOp := rfl
@[simp] theorem loadState_work (b : Block) (i : Internal) : (loadState b i).work = b := rfl
@[simp] theorem loadState_cv (b : Block) (i : Internal) : (loadState b i).cv = i.cv := rfl
@[simp] theorem loadState_saved (b : Block) (i : Internal) : (loadState b i).saved = i.saved := rfl
@[simp] theorem loadState_blockIndex (b : Block) (i : Internal) : (loadState b i).blockIndex = i.blockIndex := rfl
@[simp] theorem loadState_round (b : Block) (i : Internal) : (loadState b i).round = 0 := rfl
@[simp] theorem loadState_rcon (b : Block) (i : Internal) : (loadState b i).rcon = i.rcon := rfl
@[simp] theorem loadState_sched (b : Block) (i : Internal) : (loadState b i).sched = i.sched := rfl
@[simp] theorem loadState_stage (b : Block) (i : Internal) : (loadState b i).stage = .round := rfl

end Sys2Proof.Machine
end

