-- ==== Sys2Proof/Laws/Sequencer.lean ====
section
/-! SUPPORT. What an internal step can do, said once; the core's progress between host turns; the cases of a command's
acceptance. -/

namespace Sys2Proof.Machine

@[simp] theorem andThen_next (s : State) (f : State → Result) : andThen (.next s) f = f s := rfl
@[simp] theorem andThen_fault (e : Fault) (f : State → Result) : andThen (.fault e) f = .fault e := rfl
@[simp] theorem andThen_refused (e : Refusal) (f : State → Result) : andThen (.refused e) f = .refused e := rfl

theorem andThen_eq_next {r : Result} {f : State → Result} {t : State} :
    andThen r f = .next t ↔ ∃ s, r = .next s ∧ f s = .next t := by
  cases r <;> simp [andThen]

theorem andThen_assoc (r : Result) (f g : State → Result) :
    andThen (andThen r f) g = andThen r (fun s => andThen (f s) g) := by
  cases r <;> rfl

theorem busyBit_idle {s : State} (h : s.phase = .idle) : busyBit s = false := by simp [busyBit, h]
theorem busyBit_busy {s : State} (h : s.phase = .busy) : busyBit s = true := by simp [busyBit, h]

theorem decodeOp_opcode (i : Instr) : decodeOp (opcode i) = some i := by cases i <;> rfl

/-- The opcode map has no two values for one command. -/
theorem decodeOp_eq_some {op : BitVec 4} {i : Instr} (h : decodeOp op = some i) : op = opcode i := by
  revert op; cases i <;> decide

/-- Everything an internal step of a command can do (R67, R68, R205): it changes the internal storage alone, it also writes
one output block at backed addresses, or it completes the command. -/
inductive Moved (s : State) : State → Prop
  | internal (j : Internal) (hop : j.curOp = s.int.curOp) : Moved s { s with int := j }
  | store (v : Block) (j : Internal) (hop : j.curOp = s.int.curOp) (hk : s.int.blockIndex < blockCount s)
      (ha : blockAdmitted s (dstAddr s s.int.blockIndex) = true) (hi : j.blockIndex = s.int.blockIndex + 1) :
      Moved s { s with mem := writeBlock s.mem (dstAddr s s.int.blockIndex) v, int := j }
  | done (ks : KeySchedule) (valid : Bool) (out : Quad) :
      Moved s (complete { s with ks := ks, ksValid := valid, dout := out })

theorem Moved.self (s : State) : Moved s s := Moved.internal s.int rfl

theorem Moved.complete (s : State) : Moved s (complete s) := Moved.done s.ks s.ksValid s.dout

theorem roundMove_moved {f : KeySchedule → Nat → Block → Block} {after : Stage} {s t : State}
    (h : roundMove f after s = .next t) : Moved s t := by
  simp only [roundMove] at h
  split at h
  · cases h; exact .internal _ rfl
  · split at h
    · cases h; exact .internal _ rfl
    · cases h

theorem expandMove_moved {s t : State} (h : expandMove s = .next t) : Moved s t := by
  simp only [expandMove] at h
  split at h
  · cases h; exact .internal _ rfl
  · cases h

theorem cbcRead_moved {load : Block → Internal → Internal} (hload : ∀ b i, (load b i).curOp = i.curOp) {s t : State}
    (h : cbcRead load s = .next t) : Moved s t := by
  simp only [cbcRead] at h
  split at h
  · split at h
    · cases h; exact .internal _ (hload _ _)
    · cases h; exact .self _
  · cases h

theorem cbcWrite_moved {out cv' saved' : Block} {s t : State} (h : cbcWrite out cv' saved' s = .next t) : Moved s t := by
  simp only [cbcWrite] at h
  split at h
  · next hk =>
    split at h
    · next ha => cases h; exact .store _ _ rfl hk ha rfl
    · cases h; exact .self _
  · cases h

theorem moveExpandKey_moved {s t : State} (h : moveExpandKey s = .next t) : Moved s t := by
  unfold moveExpandKey at h
  split at h
  · exact expandMove_moved h
  · cases h; exact .done _ _ s.dout
  all_goals cases h

theorem moveEncryptBlock_moved {s t : State} (h : moveEncryptBlock s = .next t) : Moved s t := by
  unfold moveEncryptBlock at h
  split at h
  · exact roundMove_moved h
  · cases h; exact .done s.ks s.ksValid _
  all_goals cases h

theorem moveDecryptBlock_moved {s t : State} (h : moveDecryptBlock s = .next t) : Moved s t := by
  unfold moveDecryptBlock at h
  split at h
  · exact roundMove_moved h
  · cases h; exact .done s.ks s.ksValid _
  all_goals cases h

theorem moveCbcEncrypt_moved {s t : State} (h : moveCbcEncrypt s = .next t) : Moved s t := by
  unfold moveCbcEncrypt at h
  split at h
  · exact cbcRead_moved (load := loadCbcEncrypt) (fun _ _ => rfl) h
  · exact roundMove_moved h
  · exact cbcWrite_moved h
  · cases h; exact .complete s
  · cases h

theorem moveCbcDecrypt_moved {s t : State} (h : moveCbcDecrypt s = .next t) : Moved s t := by
  unfold moveCbcDecrypt at h
  split at h
  · exact cbcRead_moved (load := loadCbcDecrypt) (fun _ _ => rfl) h
  · exact roundMove_moved h
  · exact cbcWrite_moved h
  · cases h; exact .complete s
  · cases h

theorem moveOf_moved {i : Instr} {s t : State} (h : moveOf i s = .next t) : Moved s t := by
  cases i
  · exact moveExpandKey_moved h
  · exact moveEncryptBlock_moved h
  · exact moveDecryptBlock_moved h
  · exact moveCbcEncrypt_moved h
  · exact moveCbcDecrypt_moved h

theorem coreMove_idle {s : State} (h : s.phase = .idle) : coreMove s = .next s := by
  simp [coreMove, h]

theorem coreMove_busy {s : State} {i : Instr} (h : s.phase = .busy) (hi : decodeOp s.int.curOp = some i) :
    coreMove s = moveOf i s := by
  simp [coreMove, h, hi]

theorem coreMove_moved {s t : State} (h : coreMove s = .next t) : Moved s t := by
  unfold coreMove at h
  split at h
  · cases h; exact .self _
  · exact moveOf_moved h
  · cases h

theorem roundMove_ne_refused (f : KeySchedule → Nat → Block → Block) (after : Stage) (s : State) (r : Refusal) :
    roundMove f after s ≠ .refused r := by
  simp only [roundMove]; split <;> (try split) <;> simp

theorem expandMove_ne_refused (s : State) (r : Refusal) : expandMove s ≠ .refused r := by
  simp only [expandMove]; split <;> simp

theorem cbcRead_ne_refused (load : Block → Internal → Internal) (s : State) (r : Refusal) :
    cbcRead load s ≠ .refused r := by
  simp only [cbcRead]; split <;> (try split) <;> simp

theorem cbcWrite_ne_refused (out cv' saved' : Block) (s : State) (r : Refusal) : cbcWrite out cv' saved' s ≠ .refused r := by
  simp only [cbcWrite]; split <;> (try split) <;> simp

/-- An internal step never refuses. -/
theorem moveOf_ne_refused (i : Instr) (s : State) (r : Refusal) : moveOf i s ≠ .refused r := by
  cases i
  · simp only [moveOf, moveExpandKey]; split <;> simp [expandMove_ne_refused]
  · simp only [moveOf, moveEncryptBlock]; split <;> simp [roundMove_ne_refused]
  · simp only [moveOf, moveDecryptBlock]; split <;> simp [roundMove_ne_refused]
  · simp only [moveOf, moveCbcEncrypt]
    split <;> simp [roundMove_ne_refused, cbcRead_ne_refused, cbcWrite_ne_refused]
  · simp only [moveOf, moveCbcDecrypt]
    split <;> simp [roundMove_ne_refused, cbcRead_ne_refused, cbcWrite_ne_refused]

theorem coreMove_ne_refused (s : State) (r : Refusal) : coreMove s ≠ .refused r := by
  unfold coreMove
  split
  · simp
  · exact moveOf_ne_refused _ _ _
  · simp

theorem Moved.operands {s t : State} (h : Moved s t) : OperandsKept s t := by
  cases h <;> exact ⟨rfl, rfl, rfl, rfl, rfl, rfl⟩

theorem Moved.port {s t : State} (h : Moved s t) : PortKept s t := by
  cases h <;> exact ⟨rfl, rfl, rfl, rfl, rfl⟩

theorem Moved.err {s t : State} (h : Moved s t) : t.err = s.err := by
  cases h <;> rfl

/-- An internal step keeps the canonical form of buffer memory, whatever the state. -/
theorem Moved.memory {s t : State} (h : Moved s t) (hm : s.mem.wf = true) : t.mem.wf = true := by
  cases h with
  | internal => exact hm
  | store v j hop hk ha hi =>
    have hw := writeBlock_wf (v := v) hm (blockAdmitted_le ha)
    exact hw
  | done => exact hm

theorem blockCount_le (s : State) : 16 * blockCount s ≤ s.len.toNat := by
  simp only [blockCount]; omega

/-- An internal step writes no byte outside `[DST, DST+LEN)` (R72). -/
theorem Moved.readByte {s t : State} (h : Moved s t) (hm : s.mem.wf = true) {a : Nat}
    (ha : inRange a s.dst.toNat s.len.toNat = false) : readByte t.mem a = readByte s.mem a := by
  cases h with
  | internal => rfl
  | done => rfl
  | store v j hop hk hadm hi =>
    have hle := blockCount_le s
    simp only [inRange, Bool.and_eq_false_iff, decide_eq_false_iff_not] at ha
    simp only []
    rw [readByte_writeBlock hm (blockAdmitted_le hadm), if_neg]
    simp only [dstAddr]
    omega

/-- No internal step from an idle core. -/
theorem advance_idle {s : State} (h : s.phase = .idle) (n : Nat) : advance n s = .next s := by
  cases n <;> simp [advance, h]

theorem advance_busy {s : State} (h : s.phase = .busy) (n : Nat) :
    advance (n + 1) s = andThen (coreMove s) (fun t => advance n t) := by
  simp [advance, h]

/-- Progress in two parts is progress (R67, R80). -/
theorem advance_add (m n : Nat) (s : State) :
    advance (m + n) s = andThen (advance m s) (fun t => advance n t) := by
  induction m generalizing s with
  | zero => simp [advance]
  | succ m ih =>
    rw [Nat.add_right_comm]
    cases h : s.phase with
    | idle => simp [advance_idle h]
    | busy => simp only [advance_busy h, andThen_assoc, ih]

/-- A property that internal steps keep is kept by the core's progress. -/
theorem advance_induction {P : State → Prop} (hstep : ∀ s t, s.phase = .busy → P s → coreMove s = .next t → P t)
    {n : Nat} {s t : State} (hs : P s) (h : advance n s = .next t) : P t := by
  induction n generalizing s with
  | zero => cases h; exact hs
  | succ n ih =>
    cases hp : s.phase with
    | idle => rw [advance_idle hp] at h; cases h; exact hs
    | busy =>
      rw [advance_busy hp, andThen_eq_next] at h
      obtain ⟨u, hu, h⟩ := h
      exact ih (hstep s u hp hs hu) h

theorem advance_ne_refused (n : Nat) (s : State) (r : Refusal) : advance n s ≠ .refused r := by
  induction n generalizing s with
  | zero => simp [advance]
  | succ n ih =>
    cases hp : s.phase with
    | idle => simp [advance_idle hp]
    | busy =>
      rw [advance_busy hp]
      cases hc : coreMove s with
      | next u => exact ih u
      | fault e => simp
      | refused e => exact absurd hc (coreMove_ne_refused _ _)

theorem OperandsKept.refl (s : State) : OperandsKept s s := ⟨rfl, rfl, rfl, rfl, rfl, rfl⟩

theorem OperandsKept.trans {s t u : State} (h : OperandsKept s t) (g : OperandsKept t u) : OperandsKept s u :=
  ⟨g.src.trans h.src, g.dst.trans h.dst, g.len.trans h.len, g.key.trans h.key, g.iv.trans h.iv, g.din.trans h.din⟩

theorem PortKept.refl (s : State) : PortKept s s := ⟨rfl, rfl, rfl, rfl, rfl⟩

theorem PortKept.trans {s t u : State} (h : PortKept s t) (g : PortKept t u) : PortKept s u :=
  ⟨g.backed.trans h.backed, g.turns.trans h.turns, g.moves.trans h.moves, g.readData.trans h.readData,
    g.hostByte.trans h.hostByte⟩

theorem advance_operands {n : Nat} {s t : State} (h : advance n s = .next t) : OperandsKept s t :=
  advance_induction (P := OperandsKept s) (fun _ _ _ hp hc => hp.trans (coreMove_moved hc).operands) (.refl s) h

theorem advance_port {n : Nat} {s t : State} (h : advance n s = .next t) : PortKept s t :=
  advance_induction (P := PortKept s) (fun _ _ _ hp hc => hp.trans (coreMove_moved hc).port) (.refl s) h

theorem advance_err {n : Nat} {s t : State} (h : advance n s = .next t) : t.err = s.err :=
  advance_induction (P := fun u => u.err = s.err) (fun _ _ _ hp hc => (coreMove_moved hc).err.trans hp) rfl h

theorem advance_memory {n : Nat} {s t : State} (h : advance n s = .next t) (hm : s.mem.wf = true) : t.mem.wf = true :=
  advance_induction (P := fun u => u.mem.wf = true) (fun _ _ _ hp hc => (coreMove_moved hc).memory hp) hm h

/-- The three ways a write to `CMD` goes (R65, R66). -/
theorem issue_busy {s : State} (h : s.phase = .busy) (op : BitVec 4) (start : State → State) :
    issue op start s = advance s.moves s := by
  simp [issue, h]

theorem issue_rejected {s : State} {op : BitVec 4} {e : ErrCode} (h : s.phase = .idle) (hc : check op s = some e)
    (start : State → State) : issue op start s = .next (reject e s) := by
  simp [issue, h, hc]

theorem issue_accepted {s : State} {op : BitVec 4} (h : s.phase = .idle) (hc : check op s = none)
    (start : State → State) : issue op start s = advance s.moves (start (accepted op s)) := by
  simp [issue, h, hc]

/-- The `start` operation of each command (R146, R175, R176, R207, R208). -/
def startOf : Instr → State → State
  | .expandKey => startExpandKey
  | .encryptBlock => startEncryptBlock
  | .decryptBlock => startDecryptBlock
  | .cbcEncrypt => startCbcEncrypt
  | .cbcDecrypt => startCbcDecrypt

/-- Every command's meaning is the shared acceptance with its own opcode and start. -/
theorem exec_eq_issue (i : Instr) (s : State) : exec i s = issue (opcode i) (startOf i) s := by
  cases i <;> rfl

end Sys2Proof.Machine
end

