-- ==== Sys2Proof/Laws/Decoding.lean ====
section
/-! SUPPORT. The decoder, the register an offset selects, and the cases of a host turn. -/

namespace Sys2Proof

theorem decode_of_op {v : Word} {i : Instr} (h : decodeOp (opField v) = some i) : decode v = .ok i := by
  simp [decode, h]

theorem decode_of_illegal {v : Word} (h : decodeOp (opField v) = none) :
    decode v = .error (.illegalOpcode (opField v)) := by
  simp [decode, h]

/-- The decoder answers a command exactly when the opcode map does (R96). -/
theorem decode_eq_ok {v : Word} {i : Instr} : decode v = .ok i ↔ decodeOp (opField v) = some i := by
  unfold decode
  split <;> simp_all

/-- The opcode map is none exactly on 0x0 and 0x6 to 0xF (R92). -/
theorem decodeOp_eq_none (op : BitVec 4) : decodeOp op = none ↔ op.toNat = 0 ∨ 6 ≤ op.toNat := by
  revert op; decide

end Sys2Proof

namespace Sys2Proof.Machine

/-- Only word offset 0 selects `CMD` (R22). -/
theorem regAt_eq_cmd {off : Offset} : regAt off = some .cmd ↔ wordOffset off = 0 := by
  constructor
  · intro h
    by_contra hc
    simp only [regAt] at h
    rw [if_neg hc] at h
    repeat' split at h
    all_goals simp at h
  · intro h
    simp only [regAt]
    rw [if_pos h]

theorem wordOffset_eq_zero {off : Offset} : wordOffset off = 0 ↔ off &&& 0xFFC = 0 := by
  simp only [wordOffset]
  constructor
  · intro h
    exact BitVec.eq_of_toNat_eq (by simpa using h)
  · intro h
    rw [h]
    rfl

theorem regAt_cmd {off : Offset} (h : off &&& 0xFFC = 0) : regAt off = some .cmd :=
  regAt_eq_cmd.2 (wordOffset_eq_zero.2 h)

/-- An illegal opcode is rejected while `IDLE` (R94, R248). -/
theorem execIllegal_idle {s : State} {op : BitVec 4} (h : s.phase = .idle) (hop : decodeOp op = none) :
    execIllegal op s = .next (reject .opcode s) :=
  issue_rejected h (by simp [check, hop]) _

/-- With no turn waiting the step is an internal step of the core. -/
theorem step_no_turn {s : State} (h : s.turns = []) : step s = coreMove s := by
  simp [step, takeTurn, h]

/-- A turn without reset. -/
theorem step_plain {s : State} {act : HostAct} {n : Nat} {rest : List Turn} (h : s.turns = ⟨false, act, n⟩ :: rest) :
    step s = plainTurn exec act { s with turns := rest, moves := n } := by
  simp [step, takeTurn, h]

/-- A turn with reset. -/
theorem step_reset {s : State} {act : HostAct} {n : Nat} {rest : List Turn} (h : s.turns = ⟨true, act, n⟩ :: rest) :
    step s = resetTurn act { s with turns := rest, moves := n } := by
  simp [step, takeTurn, h]

theorem reset_memory_wf : State.reset.mem.wf = true := rfl

theorem storeBlocks_wf {m : Memory} {a : Nat} {bs : List Block} (h : m.wf = true)
    (ha : a + 16 * bs.length ≤ Config.addressSpace) : (storeBlocks m a bs).wf = true := by
  induction bs generalizing m a with
  | nil => exact h
  | cons b rest ih =>
    simp only [List.length_cons] at ha
    have hw := writeBlock_wf (v := b) h (show a + 16 ≤ Config.addressSpace by omega)
    exact ih hw (by omega)

/-- What is kept along internal steps is kept by what a reset lets the core still do (R273). -/
theorem coast_induction {P : State → Prop} (hstep : ∀ s t, P s → coreMove s = .next t → P t) {n : Nat} {s : State}
    (hs : P s) : P (coast n s) := by
  induction n generalizing s with
  | zero => exact hs
  | succ n ih =>
    simp only [coast]
    split
    · next t ht => exact ih (hstep s t hs ht)
    · exact hs
    · exact hs

theorem tear_wf {f : KeySchedule → Block → Block → Block × Block} {s : State} (h : s.mem.wf = true) :
    (tear f s).wf = true := by
  simp only [tear]
  split
  · next hc =>
    have hw := writeBlock_wf (v := tornBlock s.draws (readBlock s.mem (dstAddr s s.int.blockIndex))
      (f s.ks s.int.cv (readBlock s.mem (srcAddr s s.int.blockIndex))).1) h (blockAdmitted_le hc.2.2.2)
    exact hw
  · exact h

/-- Reset keeps the canonical form of buffer memory. -/
theorem memAfterReset_wf {s : State} (h : s.mem.wf = true) : (memAfterReset s).wf = true := by
  unfold memAfterReset
  split
  · exact tear_wf (coast_induction (P := fun t => t.mem.wf = true) (fun _ _ hp hc => (coreMove_moved hc).memory hp) h)
  · exact h
  · exact h

end Sys2Proof.Machine
end

