-- ==== Sys2Proof/Laws/Fairness.lean ====
section
/-! SUPPORT. Fairness of the core (spec 70 R291): what a step leaves of the host's turns, which internal steps of the core it
makes, and that no run withholds them for ever. -/

namespace Sys2Proof.Machine

theorem startOf_turns (i : Instr) (s : State) : (startOf i s).turns = s.turns := by cases i <;> rfl

theorem issue_turns {op : BitVec 4} {start : State → State} (hs : ∀ u, (start u).turns = u.turns) {s t : State}
    (h : issue op start s = .next t) : t.turns = s.turns := by
  cases hp : s.phase with
  | busy => rw [issue_busy hp] at h; exact (advance_port h).turns
  | idle =>
    cases hc : check op s with
    | some e => rw [issue_rejected hp hc] at h; cases h; rfl
    | none => rw [issue_accepted hp hc] at h; exact (advance_port h).turns.trans (hs _)

theorem exec_turns {i : Instr} {s t : State} (h : exec i s = .next t) : t.turns = s.turns := by
  rw [exec_eq_issue] at h
  exact issue_turns (startOf_turns i) h

theorem writeReg_turns (off : Offset) (v : Word) (s : State) : (writeReg off v s).turns = s.turns := by
  unfold writeReg
  repeat' split
  · rfl
  · next r _ _ => cases r <;> rfl
  · rfl

/-- What a turn leaves waiting: the turns behind it, and a poll still to be repeated with time for the core. -/
def TurnsLeft (rest left : List Turn) : Prop := left = rest ∨ ∃ x, left = x :: rest ∧ x.rst = false ∧ 0 < x.moves

theorem pollRead_turns (off : Offset) (mask value : Word) (n : Nat) (s : State) :
    TurnsLeft s.turns (pollRead off mask value n s).turns := by
  simp only [pollRead]
  split
  · exact .inl rfl
  · exact .inr ⟨_, rfl, rfl, Nat.lt_of_lt_of_le Nat.zero_lt_one (Nat.le_max_left 1 n)⟩

theorem hostMemRead_next {a : Address} {s t : State} {go : State → Result} (h : hostMemRead a s go = .next t) :
    go { s with hostByte := readByte s.mem a.toNat } = .next t := by
  simp only [hostMemRead] at h
  repeat' split at h
  all_goals first | exact h | cases h

theorem hostMemWrite_next {a : Address} {b : Byte} {s t : State} {go : State → Result}
    (h : hostMemWrite a b s go = .next t) : go { s with mem := writeByte s.mem a.toNat b } = .next t := by
  simp only [hostMemWrite] at h
  repeat' split at h
  all_goals first | exact h | cases h

theorem plainTurn_turns {act : HostAct} {s t : State} (h : plainTurn exec act s = .next t) : TurnsLeft s.turns t.turns := by
  cases act with
  | quiet => exact .inl (advance_port h).turns
  | regRead off => exact .inl (advance_port h).turns
  | regWrite off v =>
    simp only [plainTurn, regWriteTurn] at h
    repeat' split at h
    · exact .inl (exec_turns h)
    · exact .inl (issue_turns (fun _ => rfl) h)
    · exact .inl ((advance_port h).turns.trans (writeReg_turns off v s))
  | poll off mask value =>
    have ht := (advance_port h).turns
    rw [ht]
    exact pollRead_turns off mask value s.moves s
  | memRead a => exact .inl (advance_port (hostMemRead_next h)).turns
  | memWrite a b => exact .inl (advance_port (hostMemWrite_next h)).turns

theorem resetTurn_turns {act : HostAct} {s t : State} (h : resetTurn act s = .next t) : TurnsLeft s.turns t.turns := by
  cases act with
  | quiet => cases h; exact .inl rfl
  | regRead off => cases h; exact .inl rfl
  | regWrite off v => cases h; exact .inl rfl
  | poll off mask value => cases h; exact pollRead_turns off mask value s.moves (resetCore s)
  | memRead a => simp only [resetTurn] at h; cases hostMemRead_next h; exact .inl rfl
  | memWrite a b => simp only [resetTurn] at h; cases hostMemWrite_next h; exact .inl rfl

/-- What a step leaves of the host's turns. -/
theorem step_turns {s t : State} {x : Turn} {rest : List Turn} (hx : s.turns = x :: rest) (h : step s = .next t) :
    TurnsLeft rest t.turns := by
  obtain ⟨rst, act, n⟩ := x
  cases rst with
  | false => rw [step_plain hx] at h; exact plainTurn_turns h
  | true => rw [step_reset hx] at h; exact resetTurn_turns h

/-- How many of the host's next turns give the core no internal step. -/
def idleTurns : List Turn → Nat
  | [] => 0
  | x :: rest => if x.rst = true ∨ x.moves = 0 then idleTurns rest + 1 else 0

/-- A step that gives the core no internal step uses up one of the turns that give it none. -/
theorem step_idleTurns {s t : State} (h : step s = .next t) (hp : stepPace s = 0) :
    idleTurns t.turns < idleTurns s.turns := by
  cases hs : s.turns with
  | nil => simp [stepPace, hs] at hp
  | cons x rest =>
    have hx : x.rst = true ∨ x.moves = 0 := by
      simp only [stepPace, hs] at hp
      split at hp
      · exact .inl ‹_›
      · exact .inr hp
    simp only [idleTurns, if_pos hx]
    rcases step_turns hs h with ht | ⟨y, ht, hy, hm⟩
    · rw [ht]; exact Nat.lt_succ_self _
    · rw [ht, idleTurns, if_neg (by simp [hy]; omega)]; exact Nat.succ_pos _

/-- In every run, from every point on, some step gives the core an internal step. -/
theorem run_stepPace {r : Nat → State} (hr : IsRun r) (n : Nat) : ∃ m ≥ n, 0 < stepPace (r m) := by
  induction hk : idleTurns (r n).turns using Nat.strong_induction_on generalizing n with
  | _ k ih =>
    cases hp : stepPace (r n) with
    | succ p => exact ⟨n, Nat.le_refl n, hp ▸ Nat.succ_pos p⟩
    | zero =>
      obtain ⟨m, hm, hpos⟩ := ih _ (hk ▸ step_idleTurns (hr n) hp) (n + 1) rfl
      exact ⟨m, by omega, hpos⟩

/-- While `BUSY` a register write at any offset leaves the core its internal steps and does nothing else (R65). -/
theorem regWriteTurn_busy {s : State} (hb : s.phase = .busy) (off : Offset) (v : Word) :
    regWriteTurn exec off v s = advance s.moves s := by
  unfold regWriteTurn
  repeat' split
  · rw [exec_eq_issue, issue_busy hb]
  · exact issue_busy hb _ _
  · simp [writeReg, hb]

/-- What a step without reset does to a `BUSY` core: after an access that changes no more than the host's turns, what the host
has read and buffer memory, the core makes the internal steps of the turn (R65, R67). -/
theorem step_runs_core {s t : State} (hb : s.phase = .busy) (hn : ∀ x rest, s.turns = x :: rest → x.rst = false)
    (h : step s = .next t) :
    ∃ turns moves readData hostByte mem, advance (stepPace s)
      { s with turns := turns, moves := moves, readData := readData, hostByte := hostByte, mem := mem } = .next t := by
  cases hs : s.turns with
  | nil =>
    rw [step_no_turn hs] at h
    have hadv : advance 1 s = .next t := by rw [advance_busy hb, h]; rfl
    have hpace : stepPace s = 1 := by simp only [stepPace, hs]
    exact ⟨s.turns, s.moves, s.readData, s.hostByte, s.mem, hpace ▸ hadv⟩
  | cons x rest =>
    obtain ⟨rst, act, n⟩ := x
    obtain rfl : rst = false := hn _ _ hs
    rw [step_plain hs] at h
    simp only [stepPace, hs]
    cases act with
    | quiet => exact ⟨_, _, _, _, _, h⟩
    | regRead off => exact ⟨_, _, _, _, _, h⟩
    | regWrite off v =>
      simp only [plainTurn] at h
      rw [regWriteTurn_busy (s := { s with turns := rest, moves := n }) hb] at h
      exact ⟨_, _, _, _, _, h⟩
    | poll off mask value =>
      simp only [plainTurn, pollRead] at h
      split at h
      · exact ⟨_, _, _, _, _, h⟩
      · exact ⟨_, _, _, _, _, h⟩
    | memRead a =>
      simp only [plainTurn] at h
      have hgo := hostMemRead_next h
      exact ⟨_, _, _, _, _, hgo⟩
    | memWrite a b =>
      simp only [plainTurn] at h
      have hgo := hostMemWrite_next h
      exact ⟨_, _, _, _, _, hgo⟩

end Sys2Proof.Machine
end

