-- ==== Sys2Proof/Laws/PerInstr.lean ====
section
/-! SUPPORT. Facts about every command as syntax, one lemma per constructor. -/

namespace Sys2Proof.Laws.OpcodeMap

/-- The command's opcode is one of 0x1 to 0x5, the opcode map gives the command back (R92), and the command is well formed. -/
def Statement (i : Instr) : Prop :=
  1 ≤ (opcode i).toNat ∧ (opcode i).toNat ≤ 5 ∧ decodeOp (opcode i) = some i ∧ i.wellFormed = true

theorem expandKey : Statement .expandKey := by simp [Statement, opcode, decodeOp, Instr.wellFormed]
theorem encryptBlock : Statement .encryptBlock := by simp [Statement, opcode, decodeOp, Instr.wellFormed]
theorem decryptBlock : Statement .decryptBlock := by simp [Statement, opcode, decodeOp, Instr.wellFormed]
theorem cbcEncrypt : Statement .cbcEncrypt := by simp [Statement, opcode, decodeOp, Instr.wellFormed]
theorem cbcDecrypt : Statement .cbcDecrypt := by simp [Statement, opcode, decodeOp, Instr.wellFormed]

end Sys2Proof.Laws.OpcodeMap
end

