-- ==== Sys2Proof/Laws/Ports.lean ====
section
/-! SUPPORT. The ports of `cbc_mode_cipher` agree with the step of the core: what each says happens, and nothing else does. -/

namespace Sys2Proof.Machine

theorem runningDec_eq_some {s : State} {d : BitVec 1} (h : runningDec s = some d) :
    s.phase = .busy ∧ (decodeOp s.int.curOp = some .cbcEncrypt ∧ d = 0 ∨ decodeOp s.int.curOp = some .cbcDecrypt ∧ d = 1) := by
  cases hp : s.phase with
  | idle => simp [runningDec, hp] at h
  | busy =>
    simp only [runningDec, hp, Option.bind_eq_some_iff] at h
    obtain ⟨i, hi, hd⟩ := h
    cases i <;> simp_all [cbcDec]

/-- Port `start` pulses exactly when a CBC command is accepted (R66, R200). -/
theorem cbcStart_eq_one {i : Instr} {s : State} :
    cbcStart i s = 1 ↔ s.phase = .idle ∧ check (opcode i) s = none ∧ (i = .cbcEncrypt ∨ i = .cbcDecrypt) := by
  have hb : ∀ b : Bool, BitVec.ofBool b = 1 ↔ b = true := by decide
  rw [cbcStart, hb]
  cases i <;> simp [cbcDec]

/-- The step in which `start` pulses begins the command: block 0 from the chaining value `IV0..3` (R203). -/
theorem exec_of_cbcStart {i : Instr} {s : State} (h : cbcStart i s = 1) :
    exec i s = advance s.moves (startCbc (accepted (opcode i) s)) := by
  obtain ⟨hp, hc, hi⟩ := cbcStart_eq_one.1 h
  rw [exec_eq_issue, issue_accepted hp hc]
  rcases hi with rfl | rfl <;> rfl

theorem roundMove_phase {f : KeySchedule → Nat → Block → Block} {after : Stage} {s t : State}
    (h : roundMove f after s = .next t) : t.phase = s.phase ∧ t.mem = s.mem := by
  simp only [roundMove] at h
  repeat' split at h
  all_goals cases h
  all_goals exact ⟨rfl, rfl⟩

theorem cbcRead_phase {load : Block → Internal → Internal} {s t : State} (h : cbcRead load s = .next t) :
    t.phase = s.phase ∧ t.mem = s.mem := by
  simp only [cbcRead] at h
  repeat' split at h
  all_goals cases h
  all_goals exact ⟨rfl, rfl⟩

theorem cbcWrite_phase {out cv' saved' : Block} {s t : State} (h : cbcWrite out cv' saved' s = .next t) :
    t.phase = s.phase ∧
      t.mem = if blockAdmitted s (dstAddr s s.int.blockIndex) then writeBlock s.mem (dstAddr s s.int.blockIndex) out
        else s.mem := by
  simp only [cbcWrite] at h
  repeat' split at h
  all_goals cases h
  all_goals simp_all

/-- An address of the memory port names the byte address of the rule wherever a request there has a step (R204, R245). -/
theorem portAddress_toNat {s : State} {a : Nat} (h : blockAdmitted s a = true) : (BitVec.ofNat 32 a).toNat = a := by
  have hle := blockAdmitted_le h
  simp only [Config.addressSpace] at hle
  rw [BitVec.toNat_ofNat, Nat.mod_eq_of_lt]
  omega

/-- What an internal step of a CBC command does with memory and with `BUSY` (R68, R205): it writes the requested block if one
is requested and its addresses are backed, and clears `BUSY` exactly when `finish` pulses. -/
theorem coreMove_ports {s t : State} {d : BitVec 1} (hd : runningDec s = some d) (h : coreMove s = .next t) :
    (t.phase = .idle ↔ cbcFinish s = 1) ∧
      t.mem = match s.int.stage with
        | .write =>
          if blockAdmitted s (dstAddr s s.int.blockIndex) then
            writeBlock s.mem (dstAddr s s.int.blockIndex) (cbcOutput d s)
          else s.mem
        | _ => s.mem := by
  obtain ⟨hp, ⟨hi, rfl⟩ | ⟨hi, rfl⟩⟩ := runningDec_eq_some hd
  · rw [coreMove_busy hp hi] at h
    simp only [moveOf, moveCbcEncrypt] at h
    split at h <;> rename_i hs
    · simp [cbcRead_phase h, hp, hs, cbcFinish]
    · simp [roundMove_phase h, hp, hs, cbcFinish]
    · simp [cbcWrite_phase h, hp, hs, cbcFinish, cbcOutput]
    · cases h; simp [hs, cbcFinish, hd]
    · cases h
  · rw [coreMove_busy hp hi] at h
    simp only [moveOf, moveCbcDecrypt] at h
    split at h <;> rename_i hs
    · simp [cbcRead_phase h, hp, hs, cbcFinish]
    · simp [roundMove_phase h, hp, hs, cbcFinish]
    · simp [cbcWrite_phase h, hp, hs, cbcFinish, cbcOutput]
    · cases h; simp [hs, cbcFinish, hd]
    · cases h

/-- The memory an internal step leaves, as the memory port requests it (R71, R72, R75). -/
theorem coreMove_memory {s t : State} {d : BitVec 1} (hd : runningDec s = some d) (h : coreMove s = .next t)
    (hb : s.int.stage = .write → blockAdmitted s (dstAddr s s.int.blockIndex) = true) :
    t.mem = match memRequest s with
      | some (.write a v) => writeBlock s.mem a.toNat v
      | _ => s.mem := by
  rw [(coreMove_ports hd h).2]
  cases hs : s.int.stage <;> simp only [memRequest, hd, hs]
  have hw := hb hs
  rw [if_pos hw, portAddress_toNat hw]

/-- The block read is what the block transform is given: the working State becomes the `din` of the use that starts in this
step, and `saved` captures the block for decryption (R200 to R202). -/
theorem coreMove_transform {s t : State} {d : BitVec 1} {b : Block} (hd : runningDec s = some d)
    (hb : memReadData s = some b) (h : coreMove s = .next t) :
    (transformInputs d b s).din = blockPort t.int.work ∧ (d = 1 → t.int.saved = b) := by
  have hs : s.int.stage = .read := by
    cases hs : s.int.stage <;> simp_all [memReadData, memRequest]
  have hadm : blockAdmitted s (srcAddr s s.int.blockIndex) = true ∧ readBlock s.mem (srcAddr s s.int.blockIndex) = b := by
    simp only [memReadData, memRequest, hd, hs] at hb
    split at hb
    · next ha => exact ⟨ha, Option.some.inj hb⟩
    · cases hb
  obtain ⟨hp, ⟨hi, rfl⟩ | ⟨hi, rfl⟩⟩ := runningDec_eq_some hd
  · rw [coreMove_busy hp hi] at h
    simp only [moveOf, moveCbcEncrypt, hs, cbcRead, if_pos hadm.1, hadm.2] at h
    split at h
    · cases h; simp [transformInputs, loadCbcEncrypt, loadState]
    · cases h
  · rw [coreMove_busy hp hi] at h
    simp only [moveOf, moveCbcDecrypt, hs, cbcRead, if_pos hadm.1, hadm.2] at h
    split at h
    · cases h; simp [transformInputs, loadCbcDecrypt, loadState]
    · cases h

/-- Without a CBC command in progress the memory port is silent (R72). -/
theorem memRequest_none {s : State} (h : runningDec s = none) : memRequest s = none := by
  simp [memRequest, h]

end Sys2Proof.Machine
end

