-- ==== Sys2Proof/Tests/Slice0.lean ====
section
/-! SUPPORT. Tests and witnesses. Expected values are those of spec/95_test_vectors.md (by its table or vector name) or of the
rule cited. A theorem `witness_X` shows values that meet the hypotheses of `Obligations.X`. -/

namespace Sys2Proof.Tests

section

-- One theorem at a time: a `decide` of each that waits in a thread of its own would exhaust the memory of the check.
set_option Elab.async false

open Sys2Proof Sys2Proof.Machine

/-! ### Small states -/

/-- A block from its hex string. -/
def blk (n : Nat) : Block := blockOfPort (BitVec.ofNat 128 n)

/-- The key of V1. -/
def key1 : Key := keyOfPort 0x603deb1015ca71be2b73aef0857d77811f352c073b6108d72d9810a30914dff4

/-- The schedule K1, two round keys a line. -/
def sched1 : KeySchedule := scheduleOfPort
  (0x603deb1015ca71be2b73aef0857d77811f352c073b6108d72d9810a30914dff4#256 ++
    0x9ba354118e6925afa51a8b5f2067fcdea8b09c1a93d194cdbe49846eb75d5b9a#256 ++
    0xd59aecb85bf3c917fee94248de8ebe96b5a9328a2678a647983122292f6c79b3#256 ++
    0x812c81addadf48ba24360af2fab8b46498c5bfc9bebd198e268c3ba709e04214#256 ++
    0x68007bacb2df331696e939e46c518d80c814e20476a9fb8a5025c02d59c58239#256 ++
    0xde1369676ccc5a71fa2563959674ee155886ca5d2e2f31d77e0af1fa27cf73c3#256 ++
    0x749c47ab18501ddae2757e4f7401905acafaaae3e4d59b349adf6acebd10190d#256 ++
    0xfe4890d1e6188d0b046df344706c631e#128)

/-- Reset, then a key and its schedule. -/
def keyed : State := { State.reset with key := key1, ksValid := true, ks := sched1 }

/-- A keyed core with the operands of a buffer command. -/
def buffered (src dst len : Word) : State := { keyed with src := src, dst := dst, len := len }

/-- The plaintext of V1 and the first block of V5. -/
def plain1 : Block := blk 0x6bc1bee22e409f96e93d7e117393172a

/-- One host turn without reset. -/
def turn (act : HostAct) (n : Nat) : List Turn := [⟨false, act, n⟩]

/-- A CBC command in progress on 32 bytes, 0x1000 to 0x2000, about to read its first block. -/
def busyCbc (op : BitVec 4) : State :=
  { buffered 0x1000 0x2000 0x20 with
    phase := .busy, int := { Internal.reset with curOp := op, stage := .read, cv := blk 0 } }

/-- What a next state shows; none for a stop. -/
def after {α : Type} (r : Result) (f : State → α) : Option α :=
  match r with
  | .next s => some (f s)
  | .fault _ => none
  | .refused _ => none

/-- Whether an outcome is a next state. -/
def answers (r : Result) : Bool := (after r fun _ => ()).isSome

/-- Why an outcome stops; none for a next state. -/
def stop (r : Result) : Option (Sum Fault Refusal) :=
  match r with
  | .next _ => none
  | .fault e => some (.inl e)
  | .refused e => some (.inr e)

theorem answers_next {r : Result} (h : answers r = true) : ∃ t, r = .next t := by
  cases r with
  | next t => exact ⟨t, rfl⟩
  | fault e => simp [answers, after] at h
  | refused e => simp [answers, after] at h

theorem admitted_whole {s : State} (h : s.backed = [⟨0, Config.addressSpace⟩]) {a : Nat} (ha : a < Config.addressSpace) :
    admitted s a = true := by
  simp [admitted, h, ha]

/-- A platform that backs the whole space backs every range that ends inside it. -/
theorem bufferBacked_whole {s : State} (h : s.backed = [⟨0, Config.addressSpace⟩])
    (hs : s.src.toNat + s.len.toNat ≤ Config.addressSpace) (hd : s.dst.toNat + s.len.toNat ≤ Config.addressSpace) :
    bufferBacked s := by
  intro a ha
  apply admitted_whole h
  simp only [inRange, Bool.and_eq_true, decide_eq_true_eq] at ha
  omega

/-! ### Well-formedness: one ill-formed term for each check (R60, R99 to R101) -/

theorem test_refuses_offset_past_window : AsmInstr.wellFormed (.rd (.offset 0x1000)) = false := by decide
theorem test_refuses_write_offset_past_window : AsmInstr.wellFormed (.wr (.offset 0x1000) (.value 0)) = false := by decide
theorem test_refuses_wide_immediate : AsmInstr.wellFormed (.wr (.named .src) (.value 0x100000000)) = false := by decide
theorem test_refuses_mnemonic_outside_cmd :
    AsmInstr.wellFormed (.wr (.named .src) (.mnemonic .expandKey)) = false := by decide
theorem test_mnemonic_for_cmd_by_offset :
    assemble 0 [.wr (.offset 0x000) (.mnemonic .expandKey)] = some [⟨false, .regWrite 0x000 1, 0⟩] ∧
      AsmInstr.wellFormed (.wr (.offset 0x003) (.mnemonic .expandKey)) = true ∧
      AsmInstr.wellFormed (.wr (.offset 0x004) (.mnemonic .expandKey)) = false := by decide
theorem test_refuses_poll_operands :
    AsmInstr.wellFormed (.poll (.offset 0x1000) 0 0) = false ∧
      AsmInstr.wellFormed (.poll (.named .status) 0x100000000 0) = false ∧
      AsmInstr.wellFormed (.poll (.named .status) 0 0x100000000) = false := by decide
theorem test_refuses_short_hex_strings :
    AsmInstr.wellFormed (.ldkey (List.replicate 63 0)) = false ∧ AsmInstr.wellFormed (.ldiv (List.replicate 31 0)) = false ∧
      AsmInstr.wellFormed (.lddin (List.replicate 33 0)) = false := by decide
theorem test_refuses_wide_buffer_operands :
    AsmInstr.wellFormed (.setbuf 0x100000000 0 0) = false ∧ AsmInstr.wellFormed (.setbuf 0 0x100000000 0) = false ∧
      AsmInstr.wellFormed (.setbuf 0 0 0x100000000) = false := by decide
theorem test_refuses_wide_go : AsmInstr.wellFormed (.go (.value 0x100000000)) = false := by decide
theorem test_refused_program_assembles_to_nothing : assemble 0 [.wait, .go (.value 0x100000000)] = none := by decide
theorem test_accepts_boundary_operands :
    AsmInstr.wellFormed (.wr (.offset 0xFFF) (.value 0xFFFFFFFF)) = true ∧
      AsmInstr.wellFormed (.wr (.named .cmd) (.mnemonic .cbcDecrypt)) = true ∧
      AsmInstr.wellFormed (.ldkey (List.replicate 64 0)) = true := by decide

/-! ### Encodings: words written bit by bit from the opcode map (R91, R92) -/

theorem test_decode_expand_key : decode 0b00000000000000000000000000000001 = .ok .expandKey := by decide
theorem test_decode_encrypt_block : decode 0b00000000000000000000000000000010 = .ok .encryptBlock := by decide
theorem test_decode_decrypt_block : decode 0b00000000000000000000000000000011 = .ok .decryptBlock := by decide
theorem test_decode_cbc_encrypt : decode 0b00000000000000000000000000000100 = .ok .cbcEncrypt := by decide
theorem test_decode_cbc_decrypt : decode 0b00000000000000000000000000000101 = .ok .cbcDecrypt := by decide
theorem test_decode_ignores_reserved_bits : decode 0xABCDEF01 = .ok .expandKey ∧ decode 0xFFFFFFF1 = .ok .expandKey := by
  decide
theorem test_decode_refuses_reserved_opcodes :
    decode 0x00000000 = .error (.illegalOpcode 0) ∧ decode 0x00000006 = .error (.illegalOpcode 6) ∧
      decode 0xFFFFFFF0 = .error (.illegalOpcode 0) ∧ decode 0x0000000F = .error (.illegalOpcode 15) := by decide
theorem test_encode : [Instr.expandKey, .encryptBlock, .decryptBlock, .cbcEncrypt, .cbcDecrypt].map encode =
    [0x00000001, 0x00000002, 0x00000003, 0x00000004, 0x00000005] := by decide
theorem test_table_word : decodeTableWord 32 0x00000005 = some .cbcDecrypt ∧ decodeTableWord 32 6 = none := by decide

/-! ### The register port (table "Register access") -/

theorem test_reset_status : readReg 0x004 State.reset = 0 := by decide
theorem test_key_is_write_only :
    after (step { State.reset with turns := turn (.regWrite 0x020 0x603deb10) 0 }) (fun s => (s.key[0], readReg 0x020 s)) =
      some (0x603deb10, 0) := by decide +kernel
theorem test_iv_reads_back :
    after (step { State.reset with turns := turn (.regWrite 0x040 0x01234567) 0 }) (readReg 0x040) = some 0x01234567 := by
  decide +kernel
theorem test_low_offset_bits_ignored :
    after (step { State.reset with turns := turn (.regWrite 0x013 0xCAFEF00D) 0 }) (readReg 0x010) = some 0xCAFEF00D := by
  decide +kernel
theorem test_read_only_and_unmapped_writes :
    [0x1F0, 0x004, 0x060, 0x100, 0x014].map (fun o => decide (writeReg o 0xFFFFFFFF keyed = keyed)) =
      [true, true, true, true, true] := by decide +kernel
theorem test_schedule_window :
    [0x100, 0x120, 0x1EC, 0x1F0].map (fun o => readReg o keyed) = [0x603DEB10, 0x9BA35411, 0x706C631E, 0] ∧
      readReg 0x120 { keyed with ksValid := false } = 0 := by decide +kernel
theorem test_busy_write_dropped :
    after (step { busyCbc 4 with turns := turn (.regWrite 0x008 7) 0 }) (fun s => (s.src, s.phase)) =
      some (0x1000, .busy) := by decide +kernel
theorem test_status_busy : readReg 0x004 (busyCbc 4) = 0x00000005 := by decide +kernel
theorem test_poll_waits :
    after (step { busyCbc 4 with turns := turn (.poll 0x004 1 0) 0 }) (fun s => (s.readData, s.turns)) =
      some (5, turn (.poll 0x004 1 0) 1) := by decide +kernel
theorem test_asm_expansion :
    asmActs (.setbuf 0x1000 0x2000 64) = [.regWrite 0x008 0x1000, .regWrite 0x00C 0x2000, .regWrite 0x010 64] ∧
      asmActs (.go (.mnemonic .cbcEncrypt)) = [.regWrite 0x000 4] ∧
      asmActs .wait = [.poll 0x004 1 0] ∧
      asmActs .rdout = [.regRead 0x060, .regRead 0x064, .regRead 0x068, .regRead 0x06C] ∧
      asmActs (.ldiv [0, 1, 2, 3, 4, 5, 6, 7, 8, 9, 10, 11, 12, 13, 14, 15, 15, 14, 13, 12, 11, 10, 9, 8, 7, 6, 5, 4, 3, 2, 1, 0]) =
        [.regWrite 0x040 0x01234567, .regWrite 0x044 0x89ABCDEF, .regWrite 0x048 0xFEDCBA98, .regWrite 0x04C 0x76543210] := by
  decide +kernel

/-! ### Errors (table "Errors", E1 to E15): the status right after the command -/

/-- `STATUS` after a write of `v` to `CMD`. -/
def statusAfter (s : State) (v : Word) : Option Word :=
  after (step { s with turns := turn (.regWrite 0x000 v) 0 }) statusWord

theorem test_errors_opcode_and_key :
    statusAfter State.reset 0 = some 0x12 ∧ statusAfter keyed 0xF = some 0x16 ∧
      statusAfter State.reset 2 = some 0x22 ∧ statusAfter { State.reset with len := 15 } 4 = some 0x22 ∧
      statusAfter State.reset 5 = some 0x22 ∧ statusAfter { State.reset with len := 15 } 6 = some 0x12 := by decide +kernel
theorem test_errors_length_range_overlap :
    statusAfter (buffered 0 0 15) 4 = some 0x36 ∧ statusAfter (buffered 0 0 17) 5 = some 0x36 ∧
      statusAfter (buffered 0xFFFFFFF0 0 0x20) 4 = some 0x46 ∧ statusAfter (buffered 0 0xFFFFFFF1 0x10) 4 = some 0x46 ∧
      statusAfter (buffered 0x1000 0x1010 0x20) 4 = some 0x56 ∧ statusAfter (buffered 0x1010 0x1000 0x20) 5 = some 0x56 ∧
      statusAfter (buffered 0xFFFFFFE0 0xFFFFFFF0 0x20) 4 = some 0x46 ∧
      statusAfter (buffered 0xFFFFFFF0 0xFFFFFFF0 0x11) 4 = some 0x36 := by decide +kernel
theorem test_checks_pass :
    check 4 (buffered 0xFFFFFFF0 0x1000 0x10) = none ∧ check 5 (buffered 0x1000 0x1000 0x20) = none ∧
      check 4 (buffered 0x1000 0x1020 0x20) = none ∧ check 5 (buffered 0x1000 0x1001 0) = none := by decide +kernel

/-! ### The five commands -/

theorem test_expand_key_schedule : expandKey key1 = sched1 := by decide +kernel
theorem test_round_counter_without_rcon :
    rconAt 7 = 0x40 ∧
      stop (step { keyed with phase := .busy, int := { Internal.reset with
        curOp := 1, stage := .expand, rcon := 8, sched := List.replicate 8 0 } }) = some (.inl .internalInvariant) := by
  decide +kernel
theorem test_expand_key_completes :
    after (exec .expandKey { State.reset with moves := 53 }) (fun s => (statusWord s, readReg 0x120 s, readReg 0x1EC s)) =
      some (6, 0x62636363, 0xcb706385) := by decide +kernel
theorem test_encrypt_block_v1 :
    after (exec .encryptBlock { keyed with din := quadOfBlock plain1, moves := 16 }) (fun s => (statusWord s, s.dout.toList)) =
      some (6, [0xf3eed1bd, 0xb5d2a03c, 0x064b5a7e, 0x3db181f8]) := by decide +kernel
theorem test_decrypt_block_v1 :
    after (exec .decryptBlock
      { keyed with din := quadOfBlock (blk 0xf3eed1bdb5d2a03c064b5a7e3db181f8), moves := 16 })
      (fun s => (statusWord s, s.dout.toList)) =
      some (6, [0x6bc1bee2, 0x2e409f96, 0xe93d7e11, 0x7393172a]) := by decide +kernel
theorem test_cbc_encrypt_v5_block0 :
    after (exec .cbcEncrypt { buffered 0x1000 0x2000 16 with
      iv := quadOfBlock (blk 0x000102030405060708090a0b0c0d0e0f), mem := writeBlock [] 0x1000 plain1, moves := 18 })
      (fun s => (statusWord s, readBlock s.mem 0x1000, readBlock s.mem 0x2000)) =
      some (6, plain1, blk 0xf58c4c04d6e5f1ba779eabfb5f7bfbd6) := by decide +kernel
theorem test_cbc_decrypt_v5_block1_in_place :
    after (exec .cbcDecrypt { buffered 0x1000 0x1000 16 with
      iv := quadOfBlock (blk 0xf58c4c04d6e5f1ba779eabfb5f7bfbd6),
      mem := writeBlock [] 0x1000 (blk 0x9cfc4e967edb808d679f777bc6702c7d), moves := 18 })
      (fun s => (statusWord s, readBlock s.mem 0x1000)) =
      some (6, blk 0xae2d8a571e03ac9c9eb76fac45af8e51) := by decide +kernel
theorem test_zero_length_cbc :
    after (exec .cbcEncrypt { buffered 0x1000 0x1001 0 with moves := 1 }) (fun s => (statusWord s, s.mem)) = some (6, []) := by
  decide +kernel

/-! ### The ports of `cbc_mode_cipher` (R200) -/

theorem test_start_pulses_at_cbc_acceptance :
    cbcStart .cbcEncrypt (buffered 0x1000 0x2000 0x20) = 1 ∧ cbcStart .cbcEncrypt (buffered 0x1000 0x2000 15) = 0 ∧
      cbcStart .cbcDecrypt (busyCbc 4) = 0 ∧ cbcStart .encryptBlock keyed = 0 := by decide +kernel
theorem test_finish_pulses_in_completion :
    (cbcPorts { busyCbc 5 with int := { (busyCbc 5).int with stage := .finish, blockIndex := 2 } }).finish = 1 ∧
      (cbcPorts (busyCbc 5)).finish = 0 ∧ (cbcPorts (busyCbc 5)).dec = some 1 := by decide +kernel
theorem test_memory_port_requests :
    (cbcPorts (busyCbc 4)).request = some (.read 0x1000) ∧
      memRequest { busyCbc 5 with int := { (busyCbc 5).int with stage := .write, blockIndex := 1, work := plain1, cv := plain1 } } =
        some (.write 0x2010 (blk 0)) ∧
      memRequest keyed = none ∧ memReadData { busyCbc 4 with backed := [⟨0, 0x100F⟩] } = none := by decide +kernel

/-! ### Subblocks (tables "Field arithmetic", "Round operations", "Key schedule") -/

theorem test_gf_double : [0x00, 0x01, 0x57, 0xAE, 0x7F, 0x80, 0x8D, 0xFF].map gfDouble =
    [0x00, 0x02, 0xAE, 0x47, 0xFE, 0x1B, 0x01, 0xE5] := by decide +kernel
theorem test_gf_mult : gfMult 0x57 0x83 = 0xC1 ∧ gfMult 0x57 0x13 = 0xFE ∧ gfMult 0x80 0x80 = 0x9A ∧ gfMult 0xFF 0xFF = 0x13 ∧
    gfMult 0x53 0xCA = 0x01 ∧ gfMult 0x80 0x03 = 0x9B := by decide +kernel
theorem test_gf_iterations : [0x83, 0x13, 0x00, 0x01, 0x02].map (gfIterations 8) = [8, 5, 0, 1, 2] := by decide +kernel
theorem test_sub_bytes : subBytes (blk 0x00102030405060708090a0b0c0d0e0f0) = blk 0x63cab7040953d051cd60e0e7ba70e18c := by
  decide +kernel
theorem test_inv_sub_bytes : invSubBytes (blk 0x63cab7040953d051cd60e0e7ba70e18c) = blk 0x00102030405060708090a0b0c0d0e0f0 := by
  decide +kernel
theorem test_shift_rows : shiftRows (blk 0x000102030405060708090a0b0c0d0e0f) = blk 0x00050a0f04090e03080d02070c01060b := by
  decide +kernel
theorem test_inv_shift_rows : invShiftRows (blk 0x000102030405060708090a0b0c0d0e0f) = blk 0x000d0a0704010e0b0805020f0c090603 := by
  decide +kernel
theorem test_mix_columns : mixColumns (blk 0xdb135345f20a225c01010101c6c6c6c6) = blk 0x8e4da1bc9fdc589d01010101c6c6c6c6 := by
  decide +kernel
theorem test_inv_mix_columns :
    invMixColumns (blk 0x8e4da1bc9fdc589d01010101c6c6c6c6) = blk 0xdb135345f20a225c01010101c6c6c6c6 := by decide +kernel
theorem test_add_round_key : addRoundKey plain1 (roundKey sched1 0) = blk 0x0bfc55f23b8aee28c24ed0e1f6ee60ab := by
  decide +kernel
theorem test_rounds_v1 :
    encRound sched1 1 (blk 0x0bfc55f23b8aee28c24ed0e1f6ee60ab) = blk 0xd9103fb0cc3ffe1cd7c6a27096ad6e41 ∧
      encRound sched1 14 (blk 0xf3c9b7b250c53ba26a10f8f56523fab8) = blk 0xf3eed1bdb5d2a03c064b5a7e3db181f8 := by decide +kernel

/-! ### Memory, races, requests without a step, reset -/

theorem test_block_at_top_of_memory :
    readByte (writeBlock [] 0xFFFFFFF0 plain1) 0xFFFFFFFF = 0x2a ∧ Memory.wf (writeBlock [] 0xFFFFFFF0 plain1) = true := by
  decide +kernel
theorem test_writing_zero_lists_nothing : writeByte (writeByte [] 5 7) 5 0 = [] := by decide
theorem test_race_refused :
    [HostAct.memRead 0x1000, .memRead 0x201F, .memWrite 0x101F 0, .memWrite 0x2000 0].map
        (fun act => stop (step { busyCbc 4 with turns := turn act 0 })) =
      List.replicate 4 (some (.inr .bufferRace)) := by decide +kernel
theorem test_accesses_outside_the_buffer_are_no_race :
    [HostAct.memRead 0x0FFF, .memRead 0x1020, .memWrite 0x1FFF 0, .memWrite 0x2020 0].map
        (fun act => answers (step { busyCbc 4 with turns := turn act 0 })) = List.replicate 4 true := by decide +kernel
theorem test_unbacked_request_changes_nothing :
    after (step { busyCbc 5 with backed := [⟨0, 0x100F⟩] }) id = some { busyCbc 5 with backed := [⟨0, 0x100F⟩] } := by
  decide +kernel
theorem test_host_access_to_unbacked_address :
    stop (step { State.reset with backed := [], turns := turn (.memRead 0) 0 }) = some (.inl .hostUnbacked) := by decide +kernel
theorem test_busy_without_command :
    stop (step { State.reset with phase := .busy }) = some (.inl .internalInvariant) := by decide +kernel
theorem test_reset_clears_registers :
    after (step { keyed with src := 7, done := true, turns := [⟨true, .regRead 0x008, 3⟩] })
      (fun s => (s.src, s.ksValid, s.done, s.readData)) = some (0, false, false, 0) := by decide +kernel
theorem test_first_command_after_reset :
    after (step (State.reset.withFetchWord 32 0x00000001)) (fun s => (s.phase, s.int.curOp)) = some (.busy, 1) := by
  decide +kernel

/-! ### Witnesses: commands and the register port -/

/-- A state whose next host turn is the given access. -/
def host (s : State) (act : HostAct) : State := { s with turns := turn act 0 }

theorem witness_DecodeInvertsEncode :
    Instr.wellFormed .cbcDecrypt = true ∧ decode 0xFFFFFFF5 = .ok .cbcDecrypt ∧
      encodeWith 0xFFFFFFF .cbcDecrypt = encodeWith 0xFFFFFFF .cbcDecrypt := by decide

theorem witness_StepRunsDecodedCommand :
    (host keyed (.regWrite 0x003 0xABCDEF04)).turns = [⟨false, .regWrite 0x003 0xABCDEF04, 0⟩] ∧
      (0x003 : Offset) &&& 0xFFC = 0 ∧ decode 0xABCDEF04 = .ok .cbcEncrypt ∧
      decodeTableWord 32 0x00000004 = some .cbcEncrypt := by decide

theorem witness_IllegalOpcodeIsReported :
    ∀ k ∈ [0x00000000, 0xFFFFFFF0, 0x00000006, 0x0000000F],
      let v : Word := BitVec.ofNat 32 k
      (host keyed (.regWrite 0x000 v)).phase = .idle ∧
        (host keyed (.regWrite 0x000 v)).turns = [⟨false, .regWrite 0x000 v, 0⟩] ∧ (0x000 : Offset) &&& 0xFFC = 0 ∧
        ¬(1 ≤ (v &&& 0xF).toNat ∧ (v &&& 0xF).toNat ≤ 5) := by decide +kernel

theorem witness_RegisterWriteMap :
    ∀ k ∈ [0x000, 0x004, 0x00B, 0x00C, 0x010, 0x014, 0x020, 0x03F, 0x040, 0x04F, 0x050, 0x05F, 0x060, 0x100, 0xFFF],
      let s := host keyed (.regWrite (BitVec.ofNat 12 k) 0x6)
      s.phase = .idle ∧ s.turns = [⟨false, .regWrite (BitVec.ofNat 12 k) 0x6, 0⟩] := by decide +kernel

theorem witness_BusyWritesAreIgnored :
    (host (busyCbc 4) (.regWrite 0x000 1)).phase = .busy ∧
      (host (busyCbc 4) (.regWrite 0x000 1)).turns = [⟨false, .regWrite 0x000 1, 0⟩] := by decide

theorem witness_ReadsHaveNoSideEffect :
    (host (busyCbc 4) (.regRead 0x004)).turns = [⟨false, .regRead 0x004, 0⟩] ∧
      answers (step (host (busyCbc 4) (.regRead 0x004))) = true := by decide +kernel

theorem witness_WrongDirectionAccessesAreHarmless :
    regAt 0x014 = none ∧ regAt 0x1F0 = none ∧ regAt 0xFFC = none ∧ regAt 0x007 = some .status ∧
      regAt 0x06C = some (.dout 3) ∧ regAt 0x1EC = some (.ks 59) ∧ regAt 0x000 = some .cmd ∧ regAt 0x03C = some (.key 7) := by
  decide

theorem witness_OffsetsSelectTheirRegisters :
    (0x1EF : Offset) &&& 0xFFC = regOffset (.ks 59) ∧ regAt 0x1EF = some (.ks 59) := by decide

theorem witness_UnexpandedScheduleIsUnobservable :
    State.reset.ksValid = false ∧ State.reset.phase = .idle ∧ answers (exec .encryptBlock State.reset) = true ∧
      after (exec .expandKey { State.reset with moves := 53 }) (fun t => t.ksValid) = some true := by decide +kernel

theorem witness_PollRepeatsUntilItMatches :
    (host keyed (.poll 0x004 1 0)).turns = [⟨false, .poll 0x004 1 0, 0⟩] ∧
      readReg 0x004 (host keyed (.poll 0x004 1 0)) &&& 1 = 0 ∧
      (host (busyCbc 4) (.poll 0x004 1 0)).turns = [⟨false, .poll 0x004 1 0, 0⟩] ∧
      readReg 0x004 (host (busyCbc 4) (.poll 0x004 1 0)) &&& 1 ≠ 0 := by decide +kernel

/-! ### Witnesses: acceptance and rejection -/

theorem witness_RejectionChangesOnlyStatus :
    keyed.phase = .idle ∧ check (opcode .encryptBlock) State.reset = some .noKey ∧
      check (opcode .cbcEncrypt) (buffered 0 0 15) = some .len ∧
      check (opcode .cbcEncrypt) (buffered 0xFFFFFFF0 0 0x20) = some .range ∧
      check (opcode .cbcDecrypt) (buffered 0x1000 0x1010 0x20) = some .overlap ∧
      (host keyed (.regWrite 0x000 0)).turns = [⟨false, .regWrite 0x000 0, 0⟩] ∧
      check ((0 : Word).extractLsb' 0 4) (host keyed (.regWrite 0x000 0)) = some .opcode := by decide +kernel

theorem witness_AcceptanceStartsTheCommand :
    ∀ i ∈ [Instr.expandKey, .encryptBlock, .decryptBlock, .cbcEncrypt, .cbcDecrypt],
      (buffered 0x1000 0x2000 0x20).phase = .idle ∧ (buffered 0x1000 0x2000 0x20).moves = 0 ∧
        check (opcode i) (buffered 0x1000 0x2000 0x20) = none := by decide +kernel

theorem witness_NoScheduleIsReported : State.reset.phase = .idle ∧ State.reset.ksValid = false := by decide

theorem witness_BadLengthIsReported :
    ∀ n ∈ [0, 1, 15, 16, 0xFFFFFFFF],
      (buffered 0 0 (BitVec.ofNat 32 n)).phase = .idle ∧ (buffered 0 0 (BitVec.ofNat 32 n)).ksValid = true := by
  decide +kernel

theorem witness_RangePastTopIsReported :
    ∀ s ∈ [buffered 0xFFFFFFF0 0 0x10, buffered 0xFFFFFFF0 0 0x20, buffered 0 0xFFFFFFF1 0x10, buffered 0xFFFFFFFF 0 0],
      s.phase = .idle ∧ s.ksValid = true ∧ s.len.toNat % 16 = 0 := by decide

theorem witness_PartialOverlapIsReported :
    ∀ s ∈ [buffered 0x1000 0x1010 0x20, buffered 0x1010 0x1000 0x20, buffered 0x1000 0x1020 0x20, buffered 0x1000 0x1000 0x20,
        buffered 0x1000 0x1001 0],
      s.phase = .idle ∧ s.ksValid = true ∧ s.len.toNat % 16 = 0 ∧ s.src.toNat + s.len.toNat ≤ 2 ^ 32 ∧
        s.dst.toNat + s.len.toNat ≤ 2 ^ 32 := by decide

/-! ### Witnesses: what each command does -/

theorem witness_ExpandKeyCompletes :
    { State.reset with moves := 53 }.phase = .idle ∧ 53 ≤ { State.reset with moves := 53 }.moves := by decide

theorem witness_EncryptBlockCompletes :
    { keyed with moves := 16 }.phase = .idle ∧ { keyed with moves := 16 }.ksValid = true ∧
      16 ≤ { keyed with moves := 16 }.moves := by decide

theorem witness_DecryptBlockCompletes :
    { keyed with moves := 16 }.phase = .idle ∧ { keyed with moves := 16 }.ksValid = true ∧
      16 ≤ { keyed with moves := 16 }.moves := by decide

/-- Operands of a buffer command that are legal: two blocks, the source one block below the top of memory. -/
def legal : State := { buffered 0xFFFFFFE0 0x2000 0x20 with moves := 35 }

theorem legal_buffer : BufferLegal legal :=
  ⟨by decide, by decide, by decide, .inr (by
    intro a h
    simp only [inRange, Bool.and_eq_true, decide_eq_true_eq] at h
    have h1 : legal.src.toNat = 0xFFFFFFE0 := rfl
    have h2 : legal.dst.toNat = 0x2000 := rfl
    have h3 : legal.len.toNat = 0x20 := rfl
    omega)⟩

theorem legal_backed : bufferBacked legal := bufferBacked_whole rfl (by decide) (by decide)

theorem witness_CbcEncryptCompletes :
    legal.phase = .idle ∧ legal.mem.wf = true ∧ legal.ksValid = true ∧ BufferLegal legal ∧ bufferBacked legal ∧
      17 * (legal.len.toNat / 16) + 1 ≤ legal.moves :=
  ⟨rfl, rfl, rfl, legal_buffer, legal_backed, by decide⟩

theorem witness_CbcDecryptCompletes :
    legal.phase = .idle ∧ legal.mem.wf = true ∧ legal.ksValid = true ∧ BufferLegal legal ∧ bufferBacked legal ∧
      17 * (legal.len.toNat / 16) + 1 ≤ legal.moves := witness_CbcEncryptCompletes

theorem witness_ZeroLengthCbcTouchesNoMemory :
    ∀ s ∈ [{ keyed with moves := 1 }, { State.reset with moves := 1 }],
      s.phase = .idle ∧ s.len = 0 ∧ 1 ≤ s.moves := by decide

/-! ### Witnesses: busy states on track -/

theorem busyCbc_inv {op : BitVec 4} (h : op = 4 ∨ op = 5) : Inv (busyCbc op) := by
  rcases h with rfl | rfl <;>
    exact ⟨by decide +kernel, by decide +kernel, by decide +kernel, by decide +kernel, by decide +kernel⟩

theorem busyCbc_backed (op : BitVec 4) : bufferBacked (busyCbc op) :=
  bufferBacked_whole rfl (show 0x1000 + 0x20 ≤ Config.addressSpace by decide)
    (show 0x2000 + 0x20 ≤ Config.addressSpace by decide)

/-- A buffer command over no block, about to complete. -/
def lastCbc (op : BitVec 4) : State :=
  { buffered 0x1000 0x2000 0 with phase := .busy, int := { Internal.reset with curOp := op } }

theorem lastCbc_inv {op : BitVec 4} (h : op = 4 ∨ op = 5) : Inv (lastCbc op) := by
  rcases h with rfl | rfl <;>
    exact ⟨by decide +kernel, by decide +kernel, by decide +kernel, by decide +kernel, by decide +kernel⟩

/-- A block transform of `DIN0..3` about to complete. -/
def lastBlock (op : BitVec 4) (din work : Block) : State :=
  { keyed with din := quadOfBlock din, phase := .busy, int := { Internal.reset with curOp := op, work := work } }

theorem lastEncrypt_inv : Inv (lastBlock 2 plain1 (blk 0xf3eed1bdb5d2a03c064b5a7e3db181f8)) :=
  ⟨by decide +kernel, by decide +kernel, by decide +kernel, by decide +kernel, by decide +kernel⟩

theorem lastDecrypt_inv : Inv (lastBlock 3 (blk 0xf3eed1bdb5d2a03c064b5a7e3db181f8) plain1) :=
  ⟨by decide +kernel, by decide +kernel, by decide +kernel, by decide +kernel, by decide +kernel⟩

/-- `EXPAND_KEY` from an unkeyed core, about to complete. -/
def lastExpand : State :=
  { State.reset with
    key := key1, phase := .busy
    int := { Internal.reset with curOp := 1, rcon := 8, sched := sched1.toList.reverse } }

theorem lastExpand_inv : Inv lastExpand :=
  ⟨by decide +kernel, by decide +kernel, by decide +kernel, by decide +kernel, by decide +kernel⟩

theorem witness_CompletionCommitsAtOnce :
    (Inv (busyCbc 4) ∧ decodeOp (busyCbc 4).int.curOp = some .cbcEncrypt ∧ ∃ t, coreMove (busyCbc 4) = .next t) ∧
      (Inv (lastCbc 4) ∧ decodeOp (lastCbc 4).int.curOp = some .cbcEncrypt ∧ ∃ t, coreMove (lastCbc 4) = .next t) ∧
      (Inv (lastCbc 5) ∧ decodeOp (lastCbc 5).int.curOp = some .cbcDecrypt ∧ ∃ t, coreMove (lastCbc 5) = .next t) ∧
      (Inv lastExpand ∧ decodeOp lastExpand.int.curOp = some .expandKey ∧ ∃ t, coreMove lastExpand = .next t) ∧
      (∃ s, Inv s ∧ decodeOp s.int.curOp = some .encryptBlock ∧ ∃ t, coreMove s = .next t) ∧
      ∃ s, Inv s ∧ decodeOp s.int.curOp = some .decryptBlock ∧ ∃ t, coreMove s = .next t :=
  ⟨⟨busyCbc_inv (.inl rfl), by decide, answers_next (by decide +kernel)⟩,
    ⟨lastCbc_inv (.inl rfl), by decide, answers_next (by decide +kernel)⟩,
    ⟨lastCbc_inv (.inr rfl), by decide, answers_next (by decide +kernel)⟩,
    ⟨lastExpand_inv, by decide, answers_next (by decide +kernel)⟩,
    ⟨_, lastEncrypt_inv, by decide, answers_next (by decide +kernel)⟩,
    ⟨_, lastDecrypt_inv, by decide, answers_next (by decide +kernel)⟩⟩

/-! ### Witnesses: frames -/

theorem witness_RegisterCommandsFrame :
    keyed.phase = .idle ∧ ∃ t, exec .encryptBlock keyed = .next t := ⟨rfl, answers_next (by decide +kernel)⟩

theorem witness_CbcCommandsFrame :
    legal.phase = .idle ∧ legal.mem.wf = true ∧ ∃ t, exec .cbcEncrypt { legal with moves := 1 } = .next t :=
  ⟨rfl, rfl, answers_next (by decide +kernel)⟩

theorem witness_OnlyTheHostWritesOperands :
    (∃ t, step (host keyed (.regWrite 0x000 1)) = .next t) ∧
      ∀ x rest, (host keyed (.regWrite 0x000 1)).turns = x :: rest → x.rst = false ∧
        ∀ off v, x.act = .regWrite off v → off &&& 0xFFC = 0 := by
  refine ⟨answers_next (by decide +kernel), ?_⟩
  intro x rest h
  obtain ⟨rfl, -⟩ : ⟨false, .regWrite 0x000 1, 0⟩ = x ∧ [] = rest := by simpa [host, turn] using h
  refine ⟨rfl, ?_⟩
  intro off v h
  cases h
  rfl

/-- The first output block of a buffer command about to be written. -/
def writing : State := { busyCbc 5 with int := { (busyCbc 5).int with stage := .write, work := plain1 } }

theorem witness_StepsWriteOnlyTheDestination :
    writing.mem.wf = true ∧ writing.turns = [] ∧ inRange 0x2020 writing.dst.toNat writing.len.toNat = false ∧
      after (step writing) (fun t => readByte t.mem 0x2000) = some 0x6b := by decide +kernel

theorem witness_KsValidIsSetOnlyByExpandKey :
    (Inv lastExpand ∧ lastExpand.turns = [] ∧ lastExpand.ksValid = false ∧
        after (step lastExpand) (fun t => t.ksValid) = some true) ∧
      (Inv (busyCbc 4) ∧ (busyCbc 4).turns = [] ∧ (busyCbc 4).ksValid = true ∧ ∃ t, step (busyCbc 4) = .next t) :=
  ⟨⟨lastExpand_inv, by decide, by decide, by decide +kernel⟩,
    ⟨busyCbc_inv (.inl rfl), by decide, by decide, answers_next (by decide +kernel)⟩⟩

/-! ### Witnesses: the invariant and progress -/

theorem witness_StepKeepsTheInvariant : Inv (busyCbc 4) ∧ ∃ t, step (busyCbc 4) = .next t :=
  ⟨busyCbc_inv (.inl rfl), answers_next (by decide +kernel)⟩

theorem witness_ObedientStepsAnswer :
    ∃ s, Inv s ∧ turnObeys s = true ∧ s.turns = turn (.memRead 0x1FFF) 5 :=
  have h : Inv (busyCbc 4) := busyCbc_inv (.inl rfl)
  ⟨{ busyCbc 4 with turns := turn (.memRead 0x1FFF) 5 }, ⟨h.1, h.2, h.3, h.4, h.5⟩, by decide +kernel, rfl⟩

/-- The run of a command over no block to its end: with no host turn waiting, one internal step, then nothing. -/
def shortRun : Nat → State
  | 0 => lastCbc 5
  | _ + 1 => complete (lastCbc 5)

theorem shortRun_isRun : IsRun shortRun
  | 0 => rfl
  | _ + 1 => rfl

theorem shortRun_noReset : NoReset shortRun := by
  intro n x rest h
  cases n <;> exact absurd h (List.cons_ne_nil x rest).symm

theorem witness_RunningCommandsComplete :
    (Inv (busyCbc 5) ∧ (busyCbc 5).phase = .busy ∧ bufferBacked (busyCbc 5)) ∧
      Inv (lastCbc 5) ∧ (lastCbc 5).phase = .busy ∧ bufferBacked (lastCbc 5) ∧ IsRun shortRun ∧ NoReset shortRun ∧
        shortRun 0 = lastCbc 5 :=
  ⟨⟨busyCbc_inv (.inr rfl), rfl, busyCbc_backed 5⟩, lastCbc_inv (.inr rfl), rfl,
    bufferBacked_whole rfl (by decide) (by decide), shortRun_isRun, shortRun_noReset, rfl⟩

/-- A busy core can step, unless it waits on an unbacked address (R75, R291). -/
theorem test_core_can_step :
    coreCanStep (busyCbc 4) ∧ ¬coreCanStep { busyCbc 4 with backed := [⟨0, 0x100F⟩] } := by
  refine ⟨⟨rfl, fun h => ?_⟩, fun h => h.2 rfl⟩
  have hs := congrArg (fun r => after r fun t => t.int.stage) h
  revert hs
  decide +kernel

/-- At pace 0 a `WAIT` on a busy core gives it no internal step at its first read and one at the next (R291). -/
theorem test_wait_is_fair :
    stepPace { busyCbc 4 with turns := turn (.poll 0x004 1 0) 0 } = 0 ∧
      after (step { busyCbc 4 with turns := turn (.poll 0x004 1 0) 0 }) stepPace = some 1 := by decide +kernel

theorem witness_UnbackedRequestIsStuck :
    (let s : State := { busyCbc 4 with backed := [⟨0, 0x100F⟩] }
     s.phase = .busy ∧ decodeOp s.int.curOp = some .cbcEncrypt ∧ s.int.blockIndex < blockCount s ∧ s.int.stage = .read ∧
      ∃ j < 16, admitted s (srcAddr s s.int.blockIndex + j) = false) ∧
      let s : State := { writing with backed := [⟨0, 0x200F⟩] }
      s.phase = .busy ∧ decodeOp s.int.curOp = some .cbcDecrypt ∧ s.int.blockIndex < blockCount s ∧ s.int.stage = .write ∧
        ∃ j < 16, admitted s (dstAddr s s.int.blockIndex + j) = false :=
  ⟨⟨by decide, by decide, by decide, by decide, 15, by decide, by decide⟩,
    by decide, by decide, by decide, by decide, 15, by decide, by decide⟩

theorem witness_LeftoverStorageIsNeverObserved :
    Indistinguishable keyed { keyed with int := { Internal.reset with cv := plain1, round := 7 } } ∧
      Indistinguishable (busyCbc 4) { busyCbc 4 with int := { (busyCbc 4).int with saved := plain1, rcon := 3 } } := by
  refine ⟨⟨rfl, fun h => absurd h (by decide)⟩, rfl, fun _ => ⟨rfl, fun i h => ?_⟩⟩
  obtain rfl : Instr.cbcEncrypt = i := Option.some.inj h
  exact ⟨rfl, rfl, rfl, rfl, fun h => absurd h (by decide)⟩

/-! ### Witnesses: reset -/

/-- A reset in the middle of a buffer command. -/
def resetTurnState (act : HostAct) : State := { busyCbc 4 with turns := [⟨true, act, 0⟩] }

theorem witness_ResetWins :
    (∃ t, step (resetTurnState (.regRead 0x008)) = .next t) ∧
      (resetTurnState (.regRead 0x008)).turns = [⟨true, .regRead 0x008, 0⟩] := ⟨⟨_, rfl⟩, rfl⟩

theorem witness_ResetKeepsMemory :
    (∃ t, step (resetTurnState .quiet) = .next t) ∧ (resetTurnState .quiet).mem.wf = true ∧
      (∃ t, step { keyed with turns := [⟨true, .quiet, 0⟩] } = .next t) ∧
      cbcBusy { keyed with turns := [⟨true, .quiet, 0⟩] } = false ∧
      inRange 0x1FFF (resetTurnState .quiet).dst.toNat (resetTurnState .quiet).len.toNat = false :=
  ⟨⟨_, rfl⟩, rfl, ⟨_, rfl⟩, rfl, by decide⟩

theorem witness_ResetDuringCbcLeavesAPrefix :
    Inv (resetTurnState .quiet) ∧ (resetTurnState .quiet).phase = .busy ∧
      decodeOp (resetTurnState .quiet).int.curOp = some .cbcEncrypt ∧ cbcStepOf .cbcEncrypt = some cbcEncStep ∧
      (resetTurnState .quiet).turns = [⟨true, .quiet, 0⟩] ∧ ∃ t, step (resetTurnState .quiet) = .next t :=
  have h : Inv (busyCbc 4) := busyCbc_inv (.inl rfl)
  ⟨⟨h.1, h.2, h.3, h.4, h.5⟩, rfl, by decide, rfl, rfl, _, rfl⟩

/-! ### Witnesses: the cipher and buffer memory -/

theorem witness_MultiplyLoopIterations :
    (0x80 : Byte).getLsbD 7 = true ∧ (∀ j, 7 < j → (0x80 : Byte).getLsbD j = false) ∧
      (0x01 : Byte).getLsbD 0 = true ∧ ∀ j, 0 < j → (0x01 : Byte).getLsbD j = false := by
  refine ⟨by decide, fun j h => ?_, by decide, fun j h => ?_⟩
  · exact BitVec.getLsbD_of_ge _ _ h
  · by_cases hj : j < 8
    · have h2 : ∀ j < 8, 0 < j → (0x01 : Byte).getLsbD j = false := by decide
      exact h2 j hj h
    · exact BitVec.getLsbD_of_ge _ _ (by omega)

theorem witness_ScheduleRecurrence : (31 : Nat) < 32 ∧ 8 ≤ 59 ∧ 59 < 60 ∧ 3 < 4 ∧ 4 * 56 % 32 = 0 ∧ 4 * 12 % 32 = 16 := by
  decide

theorem witness_ChainingDependency : plain1 ≠ blk 0 ∧ 1 ≤ [plain1].length := by decide +kernel

theorem witness_DecryptionLocality :
    0 ≠ [plain1].length ∧ 0 ≠ [plain1].length + 1 ∧ plain1 ≠ blk 0 ∧ [plain1] ≠ [] := by decide +kernel

theorem witness_MemoryReadsWhatWasWritten : Memory.wf [] = true ∧ 0xFFFFFFFF < 2 ^ 32 := by decide

theorem witness_StoredBlocksReadBack :
    Memory.wf [] = true ∧ 0xFFFFFFF0 + 16 * [plain1].length ≤ 2 ^ 32 ∧
      ¬(0xFFFFFFF0 ≤ 0xFFFFFFEF ∧ 0xFFFFFFEF < 0xFFFFFFF0 + 16 * [plain1].length) := by decide

end

end Sys2Proof.Tests
end

/-! The outcomes of an internal step, one lemma per move, and what each command may commit. -/

namespace Sys2Proof.Machine

theorem phase_cases (s : State) : s.phase = .idle ∨ s.phase = .busy := by
  cases s.phase
  · exact .inl rfl
  · exact .inr rfl

/-- A round is done, and after round 14 the sequencer goes on to `after`. -/
theorem roundMove_next {f : KeySchedule → Nat → Block → Block} {after : Stage} {s t : State}
    (h : roundMove f after s = .next t) :
    (s.int.round < 14 ∧ t = { s with int := { s.int with
      work := f s.ks s.int.round s.int.work, round := s.int.round + 1 } }) ∨
    (s.int.round = 14 ∧ t = { s with int := { s.int with
      work := f s.ks s.int.round s.int.work, stage := after } }) := by
  simp only [roundMove] at h
  split at h
  · next hr => cases h; exact .inl ⟨hr, rfl⟩
  · split at h
    · next hr => cases h; exact .inr ⟨hr, rfl⟩
    · cases h

/-- A word of the schedule is built. -/
theorem expandMove_next {s t : State} (h : expandMove s = .next t) :
    8 ≤ s.int.sched.length ∧ s.int.sched.length < 60 ∧ t = { s with int := { s.int with
      sched := wordStep (4 * s.int.sched.length) s.int.rcon s.int.sched
      rcon := nextRcon (4 * s.int.sched.length) s.int.rcon
      stage := if s.int.sched.length = 59 then .finish else .expand } } := by
  simp only [expandMove] at h
  split at h
  · next hn => cases h; exact ⟨hn.1, hn.2.1, rfl⟩
  · cases h

/-- A block of the source is read, or the request has no step (R75). -/
theorem cbcRead_next {load : Block → Internal → Internal} {s t : State} (h : cbcRead load s = .next t) :
    s.int.blockIndex < blockCount s ∧ (t = s ∨ t = { s with int := load (currentInput s) s.int }) := by
  simp only [cbcRead] at h
  split at h
  · next hk =>
    split at h
    · cases h; exact ⟨hk, .inr rfl⟩
    · cases h; exact ⟨hk, .inl rfl⟩
  · cases h

/-- An output block is written, or the request has no step (R75). -/
theorem cbcWrite_next {out cv' saved' : Block} {s t : State} (h : cbcWrite out cv' saved' s = .next t) :
    s.int.blockIndex < blockCount s ∧ (t = s ∨
      blockAdmitted s (dstAddr s s.int.blockIndex) = true ∧ t = { s with
        mem := writeBlock s.mem (dstAddr s s.int.blockIndex) out
        int := { s.int with
          cv := cv', saved := saved', blockIndex := s.int.blockIndex + 1
          stage := cbcStage s (s.int.blockIndex + 1) } }) := by
  simp only [cbcWrite] at h
  split at h
  · next hk =>
    split at h
    · next ha => cases h; exact ⟨hk, .inr ⟨ha, rfl⟩⟩
    · cases h; exact ⟨hk, .inl rfl⟩
  · cases h

/-- The internal step that the two block commands share, with the round function of the transform (R175, R176). -/
def moveBlock (f : KeySchedule → Nat → Block → Block) (s : State) : Result :=
  match s.int.stage with
  | .round => roundMove f .finish s
  | .finish => .next (complete { s with dout := quadOfBlock s.int.work })
  | .expand => .fault .internalInvariant
  | .read => .fault .internalInvariant
  | .write => .fault .internalInvariant

theorem moveOf_encryptBlock (s : State) : moveOf .encryptBlock s = moveBlock encRound s := rfl
theorem moveOf_decryptBlock (s : State) : moveOf .decryptBlock s = moveBlock decRound s := rfl

/-- The CBC commands. -/
def IsCbc (i : Instr) : Prop := i = .cbcEncrypt ∨ i = .cbcDecrypt

/-- The result a command commits in its completion step (R68, R146, R175, R176). -/
def commit : Instr → State → State
  | .expandKey, s => { s with ks := scheduleOf s.int.sched, ksValid := true }
  | .encryptBlock, s => { s with dout := quadOfBlock s.int.work }
  | .decryptBlock, s => { s with dout := quadOfBlock s.int.work }
  | .cbcEncrypt, s => s
  | .cbcDecrypt, s => s

/-- What an internal step of command `i` can do: `Moved` with the command named. Only a CBC command writes a block, and
the completion step commits the result of `i` and no other. -/
inductive MovedBy (i : Instr) (s : State) : State → Prop
  | internal (j : Internal) (hop : j.curOp = s.int.curOp) : MovedBy i s { s with int := j }
  | store (hi : IsCbc i) (v : Block) (j : Internal) (hop : j.curOp = s.int.curOp)
      (hk : s.int.blockIndex < blockCount s) (ha : blockAdmitted s (dstAddr s s.int.blockIndex) = true)
      (hj : j.blockIndex = s.int.blockIndex + 1) :
      MovedBy i s { s with mem := writeBlock s.mem (dstAddr s s.int.blockIndex) v, int := j }
  | done (hs : s.int.stage = .finish) : MovedBy i s (complete (commit i s))

theorem MovedBy.self (i : Instr) (s : State) : MovedBy i s s := .internal s.int rfl

theorem roundMove_movedBy {i : Instr} {f : KeySchedule → Nat → Block → Block} {after : Stage} {s t : State}
    (h : roundMove f after s = .next t) : MovedBy i s t := by
  rcases roundMove_next h with ⟨-, rfl⟩ | ⟨-, rfl⟩
  · exact .internal _ rfl
  · exact .internal _ rfl

theorem cbcRead_movedBy {i : Instr} {load : Block → Internal → Internal} {s t : State}
    (hload : ∀ b j, (load b j).curOp = j.curOp) (h : cbcRead load s = .next t) : MovedBy i s t := by
  obtain ⟨-, rfl | rfl⟩ := cbcRead_next h
  · exact .self i _
  · exact .internal _ (hload _ _)

theorem cbcWrite_movedBy {i : Instr} (hi : IsCbc i) {out cv' saved' : Block} {s t : State}
    (h : cbcWrite out cv' saved' s = .next t) : MovedBy i s t := by
  obtain ⟨hk, rfl | ⟨ha, rfl⟩⟩ := cbcWrite_next h
  · exact .self i _
  · exact .store hi _ _ rfl hk ha rfl

theorem moveBlock_movedBy {i : Instr} {f : KeySchedule → Nat → Block → Block} {s t : State}
    (hi : commit i s = { s with dout := quadOfBlock s.int.work }) (h : moveBlock f s = .next t) : MovedBy i s t := by
  unfold moveBlock at h
  split at h
  case h_1 => exact roundMove_movedBy h
  case h_2 hs =>
    cases h
    rw [← hi]
    exact .done hs
  all_goals cases h

theorem moveOf_movedBy {i : Instr} {s t : State} (h : moveOf i s = .next t) : MovedBy i s t := by
  cases i with
  | expandKey =>
    simp only [moveOf, moveExpandKey] at h
    split at h
    case h_1 => obtain ⟨-, -, rfl⟩ := expandMove_next h; exact .internal _ rfl
    case h_2 hs => cases h; exact .done hs
    all_goals cases h
  | encryptBlock => exact moveBlock_movedBy rfl h
  | decryptBlock => exact moveBlock_movedBy rfl h
  | cbcEncrypt =>
    simp only [moveOf, moveCbcEncrypt] at h
    split at h
    case h_1 => exact cbcRead_movedBy (load := loadCbcEncrypt) (fun _ _ => rfl) h
    case h_2 => exact roundMove_movedBy h
    case h_3 => exact cbcWrite_movedBy (.inl rfl) h
    case h_4 hs => cases h; exact .done hs
    case h_5 => cases h
  | cbcDecrypt =>
    simp only [moveOf, moveCbcDecrypt] at h
    split at h
    case h_1 => exact cbcRead_movedBy (load := loadCbcDecrypt) (fun _ _ => rfl) h
    case h_2 => exact roundMove_movedBy h
    case h_3 => exact cbcWrite_movedBy (.inr rfl) h
    case h_4 hs => cases h; exact .done hs
    case h_5 => cases h

/-- `MovedBy` refines `Moved`. -/
theorem MovedBy.moved {i : Instr} {s t : State} (h : MovedBy i s t) : Moved s t := by
  cases h with
  | internal j hop => exact .internal j hop
  | store _ v j hop hk ha hj => exact .store v j hop hk ha hj
  | done =>
    cases i with
    | expandKey => exact .done (scheduleOf s.int.sched) true s.dout
    | encryptBlock => exact .done s.ks s.ksValid (quadOfBlock s.int.work)
    | decryptBlock => exact .done s.ks s.ksValid (quadOfBlock s.int.work)
    | cbcEncrypt => exact .complete s
    | cbcDecrypt => exact .complete s

/-- A command still running after an internal step is the one that was running. -/
theorem Moved.curOp {s t : State} (h : Moved s t) (hb : t.phase = .busy) : t.int.curOp = s.int.curOp := by
  cases h with
  | internal j hop => exact hop
  | store _ j hop => exact hop
  | done => cases hb

/-- A property the internal steps of command `i` keep is kept by its progress. -/
theorem advance_movedBy {i : Instr} {P : State → Prop}
    (hstep : ∀ u v, u.phase = .busy → P u → MovedBy i u v → P v) {n : Nat} {s t : State}
    (hop : decodeOp s.int.curOp = some i) (hs : P s) (h : advance n s = .next t) : P t := by
  have hrun := advance_induction (P := fun u => P u ∧ (u.phase = .busy → decodeOp u.int.curOp = some i))
    (fun u v hb hu hc => by
      have hm := moveOf_movedBy (coreMove_busy hb (hu.2 hb) ▸ hc)
      exact ⟨hstep u v hb hu.1 hm, fun hv => hm.moved.curOp hv ▸ hu.2 hb⟩) ⟨hs, fun _ => hop⟩ h
  exact hrun.1

end Sys2Proof.Machine

/-! What the host's turn does before the core's internal steps, said once for every step without reset, and what a reset
step leaves. -/

namespace Sys2Proof.Machine

/-- What a host turn without reset can do before the core's internal steps: an access that only reads, a byte written where
no command in progress reads or writes, a register write, a command's rejection or its acceptance. -/
inductive Prepared (s : State) : State → Prop
  | access (turns : List Turn) (moves : Nat) (readData : Word) (hostByte : Byte) :
      Prepared s { s with turns := turns, moves := moves, readData := readData, hostByte := hostByte }
  | memWrite (turns : List Turn) (moves : Nat) (a : Address) (b : Byte) (hrace : hostRace s a.toNat = false) :
      Prepared s { s with turns := turns, moves := moves, mem := writeByte s.mem a.toNat b }
  | regWrite (turns : List Turn) (moves : Nat) (off : Offset) (v : Word) (r : Reg)
      (hx : s.turns = ⟨false, .regWrite off v, moves⟩ :: turns) (hp : s.phase = .idle) (hr : regAt off = some r) :
      Prepared s (writeNamed r v { s with turns := turns, moves := moves })
  | rejected (turns : List Turn) (moves : Nat) (e : ErrCode) (hp : s.phase = .idle) :
      Prepared s (reject e { s with turns := turns, moves := moves })
  | started (turns : List Turn) (moves : Nat) (i : Instr) (hp : s.phase = .idle) (hc : check (opcode i) s = none) :
      Prepared s (startOf i (accepted (opcode i) { s with turns := turns, moves := moves }))

/-- A step without reset prepares the core, which then makes some internal steps. -/
def PreparedRun (s t : State) : Prop := ∃ u n, Prepared s u ∧ advance n u = .next t

theorem hostMemWrite_race {a : Address} {b : Byte} {s t : State} {go : State → Result}
    (h : hostMemWrite a b s go = .next t) : hostRace s a.toNat = false := by
  simp only [hostMemWrite] at h
  split at h
  · cases h
  · next hr => simpa using hr

/-- From an idle core a command is rejected, or accepted and run on. -/
theorem exec_idle_next {i : Instr} {s t : State} (hp : s.phase = .idle) (h : exec i s = .next t) :
    (∃ e, check (opcode i) s = some e ∧ t = reject e s) ∨
      check (opcode i) s = none ∧ advance s.moves (startOf i (accepted (opcode i) s)) = .next t := by
  rw [exec_eq_issue] at h
  cases hc : check (opcode i) s with
  | some e => rw [issue_rejected hp hc] at h; cases h; exact .inl ⟨e, rfl, rfl⟩
  | none => rw [issue_accepted hp hc] at h; exact .inr ⟨rfl, h⟩

theorem decodeOp_of_decode_error {v : Word} {op : BitVec 4} (h : decode v = .error (.illegalOpcode op)) :
    decodeOp op = none := by
  unfold decode at h
  split at h
  · cases h
  · next hn => cases h; exact hn

/-- While `IDLE` a write to a mapped offset is a write to its register (R63). -/
theorem writeReg_mapped {s : State} {off : Offset} {r : Reg} (hp : s.phase = .idle) (hr : regAt off = some r) (v : Word) :
    writeReg off v s = writeNamed r v s := by
  simp [writeReg, hp, hr]

/-- An unmapped offset ignores writes in both phases (R39). -/
theorem writeReg_unmapped {off : Offset} (hr : regAt off = none) (v : Word) (s : State) : writeReg off v s = s := by
  cases hp : s.phase <;> simp [writeReg, hp, hr]

theorem regWriteTurn_prepared {s t : State} {turns : List Turn} {moves : Nat} {off : Offset} {v : Word}
    (hx : s.turns = ⟨false, .regWrite off v, moves⟩ :: turns)
    (h : regWriteTurn exec off v { s with turns := turns, moves := moves } = .next t) : PreparedRun s t := by
  cases hp : s.phase with
  | busy =>
    rw [regWriteTurn_busy (s := { s with turns := turns, moves := moves }) hp] at h
    exact ⟨_, _, .access turns moves s.readData s.hostByte, h⟩
  | idle =>
    simp only [regWriteTurn] at h
    split at h
    · split at h
      · next i _ =>
        rcases exec_idle_next (s := { s with turns := turns, moves := moves }) hp h with ⟨e, -, rfl⟩ | ⟨hc, h⟩
        · exact ⟨_, 0, .rejected turns moves e hp, rfl⟩
        · exact ⟨_, _, .started turns moves i hp hc, h⟩
      · next op he =>
        rw [execIllegal_idle (s := { s with turns := turns, moves := moves }) hp (decodeOp_of_decode_error he)] at h
        cases h
        exact ⟨_, 0, .rejected turns moves .opcode hp, rfl⟩
    · cases hr : regAt off with
      | none => rw [writeReg_unmapped hr] at h; exact ⟨_, _, .access turns moves s.readData s.hostByte, h⟩
      | some r =>
        rw [writeReg_mapped (s := { s with turns := turns, moves := moves }) hp hr] at h
        exact ⟨_, _, .regWrite turns moves off v r hx hp hr, h⟩

theorem step_prepared {s t : State} (hn : ∀ x rest, s.turns = x :: rest → x.rst = false) (h : step s = .next t) :
    PreparedRun s t := by
  cases hs : s.turns with
  | nil =>
    rw [step_no_turn hs] at h
    refine ⟨s, 1, .access s.turns s.moves s.readData s.hostByte, ?_⟩
    cases hp : s.phase with
    | idle => rw [advance_idle hp, ← coreMove_idle hp, h]
    | busy => rw [advance_busy hp, h]; rfl
  | cons x rest =>
    obtain ⟨rst, act, n⟩ := x
    obtain rfl : rst = false := hn _ _ hs
    rw [step_plain hs] at h
    cases act with
    | quiet => exact ⟨_, _, .access rest n s.readData s.hostByte, h⟩
    | regRead off => exact ⟨_, _, .access rest n _ s.hostByte, h⟩
    | regWrite off v => exact regWriteTurn_prepared hs h
    | poll off mask value =>
      simp only [plainTurn, pollRead] at h
      split at h
      · exact ⟨_, _, .access rest n _ s.hostByte, h⟩
      · exact ⟨_, _, .access (_ :: rest) n _ s.hostByte, h⟩
    | memRead a =>
      have hgo := hostMemRead_next h
      exact ⟨_, _, .access rest n s.readData _, hgo⟩
    | memWrite a b =>
      simp only [plainTurn] at h
      have hrace := hostMemWrite_race h
      have hgo := hostMemWrite_next h
      exact ⟨_, _, .memWrite rest n a b hrace, hgo⟩

/-- A reset step leaves a reset core, whose memory a host access in that step may have written first (log 14). -/
theorem resetTurn_next {act : HostAct} {s t : State} (h : resetTurn act s = .next t) :
    ∃ (u : State) (turns : List Turn) (readData : Word), (s.mem.wf = true → u.mem.wf = true) ∧
      t = { resetCore u with turns := turns, readData := readData } := by
  cases act with
  | quiet => cases h; exact ⟨s, s.turns, s.readData, id, rfl⟩
  | regRead off => cases h; exact ⟨s, s.turns, _, id, rfl⟩
  | regWrite off v => cases h; exact ⟨s, s.turns, s.readData, id, rfl⟩
  | poll off mask value =>
    simp only [resetTurn, pollRead] at h
    split at h
    · cases h; exact ⟨s, s.turns, _, id, rfl⟩
    · cases h; exact ⟨s, _, _, id, rfl⟩
  | memRead a =>
    simp only [resetTurn] at h
    cases hostMemRead_next h
    exact ⟨{ s with hostByte := readByte s.mem a.toNat }, s.turns, s.readData, id, rfl⟩
  | memWrite a b =>
    simp only [resetTurn] at h
    cases hostMemWrite_next h
    exact ⟨_, s.turns, s.readData, fun hm => writeByte_wf (b := b) hm a.isLt, rfl⟩

end Sys2Proof.Machine

/-! The invariant: internal steps keep a running command on track, acceptance starts one on track, and no host access
takes it off. -/

namespace Sys2Proof.Machine

/-! ### The schedule and the rounds, one step on -/

/-- One more iteration of the loop is one more word at the end, from word `j`, with the round counter then reached (R143,
R147). -/
theorem expandLoop_succ (m j : Nat) (hj : 1 ≤ j) (w : List Word) :
    expandLoop (m + 1) (4 * j) (1 + (j - 1) / 8) w =
      wordStep (4 * (j + m)) (1 + (j + m - 1) / 8) (expandLoop m (4 * j) (1 + (j - 1) / 8) w) := by
  induction m generalizing j w with
  | zero => rfl
  | succ m ih =>
    have hrc : nextRcon (4 * j) (1 + (j - 1) / 8) = 1 + (j + 1 - 1) / 8 := by
      simp only [nextRcon]
      split <;> omega
    have h := ih (j + 1) (by omega) (wordStep (4 * j) (1 + (j - 1) / 8) w)
    rw [expandLoop, hrc, show 4 * j + 4 = 4 * (j + 1) by omega, h, show j + (m + 1) = j + 1 + m by omega]
    conv_rhs => rw [expandLoop, hrc, show 4 * j + 4 = 4 * (j + 1) by omega]

theorem encRound_zero (ks : KeySchedule) (b : Block) : encRound ks 0 b = addRoundKey b (roundKey ks 0) := by
  simp only [encRound, if_pos]

theorem encRound_full {r : Nat} (h0 : r ≠ 0) (h : r < 14) (ks : KeySchedule) (b : Block) :
    encRound ks r b = encFullRound ks b r := by
  simp only [encRound, if_neg h0, if_pos h]

theorem encRound_last (ks : KeySchedule) (b : Block) :
    encRound ks 14 b = addRoundKey (shiftRows (subBytes b)) (roundKey ks 14) := by
  simp only [encRound, if_neg (show ¬(14 : Nat) = 0 by decide), if_neg (show ¬(14 : Nat) < 14 by decide)]

theorem decRound_zero (ks : KeySchedule) (b : Block) : decRound ks 0 b = addRoundKey b (roundKey ks 14) := by
  simp only [decRound, if_pos]

theorem decRound_full {r : Nat} (h0 : r ≠ 0) (h : r < 14) (ks : KeySchedule) (b : Block) :
    decRound ks r b = decFullRound ks b (14 - r) := by
  simp only [decRound, if_neg h0, if_pos h]

theorem decRound_last (ks : KeySchedule) (b : Block) :
    decRound ks 14 b = addRoundKey (invSubBytes (invShiftRows b)) (roundKey ks 0) := by
  simp only [decRound, if_neg (show ¬(14 : Nat) = 0 by decide), if_neg (show ¬(14 : Nat) < 14 by decide)]

/-- Round 0 and `n` further rounds of a transform whose rounds 1 to 13 apply `g` to the round keys `key r`. -/
theorem roundsFrom_foldl {f : KeySchedule → Nat → Block → Block} {g : Block → Nat → Block} {key : Nat → Nat}
    {ks : KeySchedule} (hfull : ∀ r b, r ≠ 0 → r < 14 → f ks r b = g b (key r)) (b : Block) {n : Nat} (hn : n ≤ 13) :
    roundsFrom f ks (n + 1) b = ((List.range' 1 n).map key).foldl g (f ks 0 b) := by
  induction n with
  | zero => rfl
  | succ n ih =>
    rw [roundsFrom, ih (by omega), hfull _ _ (by omega) (by omega), List.range'_1_concat, List.map_append,
      List.foldl_append, Nat.add_comm 1 n]
    rfl

/-- 15 rounds are the cipher (R171). -/
theorem roundsFrom_encRound (ks : KeySchedule) (b : Block) : roundsFrom encRound ks 15 b = encryptBlock ks b := by
  have h13 := roundsFrom_foldl (f := encRound) (g := encFullRound ks) (key := id) (ks := ks)
    (fun r c h0 h => encRound_full h0 h ks c) b (Nat.le_refl 13)
  rw [roundsFrom, h13, encRound_last, encRound_zero, encryptBlock]
  rfl

/-- 15 rounds are the inverse cipher, its round keys in reverse order (R172). -/
theorem roundsFrom_decRound (ks : KeySchedule) (b : Block) : roundsFrom decRound ks 15 b = decryptBlock ks b := by
  have h13 := roundsFrom_foldl (f := decRound) (g := decFullRound ks) (key := fun r => 14 - r) (ks := ks)
    (fun r c h0 h => decRound_full h0 h ks c) b (Nat.le_refl 13)
  rw [roundsFrom, h13, decRound_last, decRound_zero, decryptBlock]
  rfl

/-! ### The checks of `Safety`, as propositions -/

theorem expandOk_iff {s : State} :
    expandOk s = true ↔ (8 ≤ s.int.sched.length ∧ s.int.sched.length ≤ 60) ∧
      s.int.rcon = 1 + (s.int.sched.length - 1) / 8 ∧
      s.int.sched = expandLoop (s.int.sched.length - 8) 32 1 s.key.toList.reverse ∧
      s.int.stage = if s.int.sched.length = 60 then .finish else .expand := by
  simp only [expandOk, Bool.and_eq_true, decide_eq_true_eq, and_assoc]

section Transform

variable {f : KeySchedule → Nat → Block → Block} {whole : KeySchedule → Block → Block} {after : Stage} {b : Block}
  {s t : State}

theorem transformOk_round (hs : s.int.stage = .round) :
    transformOk f whole after b s = true ↔ s.int.round ≤ 14 ∧ s.int.work = roundsFrom f s.ks s.int.round b := by
  simp only [transformOk, if_pos hs, Bool.and_eq_true, decide_eq_true_eq]

theorem transformOk_after (hs : s.int.stage ≠ .round) :
    transformOk f whole after b s = true ↔ s.int.stage = after ∧ s.int.work = whole s.ks b := by
  simp only [transformOk, if_neg hs, Bool.and_eq_true, decide_eq_true_eq]

/-- A round keeps a block transform on track. -/
theorem roundMove_transformOk (hwhole : ∀ ks b, roundsFrom f ks 15 b = whole ks b) (ha : after ≠ .round)
    (hs : s.int.stage = .round) (h : transformOk f whole after b s = true) (hm : roundMove f after s = .next t) :
    transformOk f whole after b t = true := by
  obtain ⟨hr, hw⟩ := (transformOk_round hs).1 h
  rcases roundMove_next hm with ⟨hlt, rfl⟩ | ⟨h14, rfl⟩
  · refine (transformOk_round (by exact hs)).2 ⟨Nat.succ_le_of_lt hlt, ?_⟩
    simp only [hw, roundsFrom]
  · refine (transformOk_after (by exact ha)).2 ⟨rfl, ?_⟩
    simp only [hw, h14, ← hwhole, roundsFrom]

/-- A block just loaded is on track: no round is done. -/
theorem transformOk_loadState (j : Internal) (hj : s.int = loadState b j) :
    transformOk f whole after b s = true :=
  (transformOk_round (by rw [hj]; rfl)).2 (by rw [hj]; exact ⟨Nat.zero_le _, rfl⟩)

end Transform

/-- The block in hand of `CBC_ENCRYPT` is on track: the cipher of the source block XOR the chaining value (R201). -/
def encBlockOk (s : State) : Bool :=
  transformOk encRound encryptBlock .write (xorBlock (currentInput s) s.int.cv) s

/-- The block in hand of `CBC_DECRYPT` is on track: the source block is saved and goes through the inverse cipher (R202). -/
def decBlockOk (s : State) : Bool :=
  decide (s.int.saved = currentInput s) && transformOk decRound decryptBlock .write s.int.saved s

theorem decBlockOk_iff {s : State} : decBlockOk s = true ↔
    s.int.saved = currentInput s ∧ transformOk decRound decryptBlock .write s.int.saved s = true := by
  simp only [decBlockOk, Bool.and_eq_true, decide_eq_true_eq]

@[simp] theorem commandOk_encryptBlock (s : State) :
    commandOk .encryptBlock s = transformOk encRound encryptBlock .finish (blockOfQuad s.din) s := rfl
@[simp] theorem commandOk_decryptBlock (s : State) :
    commandOk .decryptBlock s = transformOk decRound decryptBlock .finish (blockOfQuad s.din) s := rfl
@[simp] theorem commandOk_cbcEncrypt (s : State) : commandOk .cbcEncrypt s = cbcOk encBlockOk s := rfl
@[simp] theorem commandOk_cbcDecrypt (s : State) : commandOk .cbcDecrypt s = cbcOk decBlockOk s := rfl

theorem currentInput_congr {s t : State} (hm : t.mem = s.mem) (hs : t.src = s.src)
    (hk : t.int.blockIndex = s.int.blockIndex) : currentInput t = currentInput s := by
  simp only [currentInput, srcAddr, hm, hs, hk]

/-- What a round leaves: only the working State, the round index and the stage change. -/
theorem roundMove_frame {f : KeySchedule → Nat → Block → Block} {after : Stage} {s t : State}
    (h : roundMove f after s = .next t) :
    t.din = s.din ∧ currentInput t = currentInput s ∧ t.int.cv = s.int.cv ∧ t.int.saved = s.int.saved := by
  rcases roundMove_next h with ⟨-, rfl⟩ | ⟨-, rfl⟩
  · exact ⟨rfl, currentInput_congr rfl rfl rfl, rfl, rfl⟩
  · exact ⟨rfl, currentInput_congr rfl rfl rfl, rfl, rfl⟩

/-- Where a CBC command on track stands (R205). -/
theorem cbcOk_iff {tr : State → Bool} {s : State} :
    cbcOk tr s = true ↔ (s.int.stage = .read ∧ s.int.blockIndex < blockCount s) ∨
      ((s.int.stage = .round ∨ s.int.stage = .write) ∧ s.int.blockIndex < blockCount s ∧ tr s = true) ∨
      (s.int.stage = .finish ∧ s.int.blockIndex = blockCount s) := by
  cases hs : s.int.stage <;> simp [cbcOk, hs]

/-! ### Internal steps keep the command on track -/

theorem expandMove_expandOk {s t : State} (h : expandOk s = true) (hm : expandMove s = .next t) :
    expandOk t = true := by
  obtain ⟨-, hrc, hw, -⟩ := expandOk_iff.1 h
  obtain ⟨h8, h60, rfl⟩ := expandMove_next hm
  refine expandOk_iff.2 ⟨?_, ?_, ?_, ?_⟩ <;> simp only [wordStep, List.length_cons]
  · omega
  · rw [hrc]
    simp only [nextRcon]
    split <;> omega
  · obtain ⟨m, hm⟩ := Nat.exists_eq_add_of_le h8
    have hstep := expandLoop_succ m 8 (by omega) s.key.toList.reverse
    rw [hm] at hw hrc ⊢
    rw [show 8 + m + 1 - 8 = m + 1 by omega, hstep, wordStep]
    rw [show 8 + m - 8 = m by omega] at hw
    rw [← hw, hrc]
  · by_cases hn : s.int.sched.length = 59 <;> simp [hn]

section Cbc

variable {tr : State → Bool} {s t : State}

theorem cbcRead_cbcOk {load : Block → Internal → Internal} (hl : ∀ b j, (load b j).stage = .round)
    (hk : ∀ b j, (load b j).blockIndex = j.blockIndex)
    (htr : tr { s with int := load (currentInput s) s.int } = true) (h : cbcOk tr s = true)
    (hm : cbcRead load s = .next t) : cbcOk tr t = true := by
  obtain ⟨hlt, rfl | rfl⟩ := cbcRead_next hm
  · exact h
  · exact cbcOk_iff.2 (.inr (.inl ⟨.inl (hl _ _), by rw [hk]; exact hlt, htr⟩))

theorem roundMove_cbcOk {f : KeySchedule → Nat → Block → Block} (hs : s.int.stage = .round)
    (htr : tr s = true → tr t = true) (h : cbcOk tr s = true) (hm : roundMove f .write s = .next t) :
    cbcOk tr t = true := by
  have hin : s.int.blockIndex < blockCount s ∧ tr s = true := by simpa [cbcOk, hs] using h
  refine cbcOk_iff.2 (.inr (.inl ?_))
  rcases roundMove_next hm with ⟨-, rfl⟩ | ⟨-, rfl⟩
  · exact ⟨.inl hs, hin.1, htr hin.2⟩
  · exact ⟨.inr rfl, hin.1, htr hin.2⟩

/-- A CBC command that goes on to block `k` is on track, whatever the block before left (R205). -/
theorem cbcOk_cbcStage {k : Nat} (hle : k ≤ blockCount s) (hs : s.int.stage = cbcStage s k)
    (hk : s.int.blockIndex = k) : cbcOk tr s = true := by
  unfold cbcStage at hs
  split at hs
  · exact cbcOk_iff.2 (.inl ⟨hs, by omega⟩)
  · exact cbcOk_iff.2 (.inr (.inr ⟨hs, by omega⟩))

theorem cbcWrite_cbcOk {out cv' saved' : Block} (h : cbcOk tr s = true) (hm : cbcWrite out cv' saved' s = .next t) :
    cbcOk tr t = true := by
  obtain ⟨hlt, rfl | ⟨-, rfl⟩⟩ := cbcWrite_next hm
  · exact h
  · exact cbcOk_cbcStage (k := s.int.blockIndex + 1) hlt rfl rfl

end Cbc

theorem encBlockOk_load (s : State) : encBlockOk { s with int := loadCbcEncrypt (currentInput s) s.int } = true :=
  transformOk_loadState s.int (by rw [currentInput_congr (s := s) rfl rfl rfl]; rfl)

theorem decBlockOk_load (s : State) : decBlockOk { s with int := loadCbcDecrypt (currentInput s) s.int } = true :=
  decBlockOk_iff.2 ⟨(currentInput_congr (s := s) rfl rfl rfl).symm,
    transformOk_loadState { s.int with saved := currentInput s } rfl⟩

theorem roundMove_encBlockOk {s t : State} (hs : s.int.stage = .round) (hm : roundMove encRound .write s = .next t)
    (h : encBlockOk s = true) : encBlockOk t = true := by
  obtain ⟨-, hin, hcv, -⟩ := roundMove_frame hm
  rw [encBlockOk, hin, hcv]
  exact roundMove_transformOk roundsFrom_encRound (by decide) hs h hm

theorem roundMove_decBlockOk {s t : State} (hs : s.int.stage = .round) (hm : roundMove decRound .write s = .next t)
    (h : decBlockOk s = true) : decBlockOk t = true := by
  obtain ⟨-, hin, -, hsaved⟩ := roundMove_frame hm
  obtain ⟨hi, h⟩ := decBlockOk_iff.1 h
  rw [decBlockOk_iff, hin, hsaved]
  exact ⟨hi, roundMove_transformOk roundsFrom_decRound (by decide) hs h hm⟩

/-- An internal step of a block command completes it or keeps its transform of `DIN0..3` on track. -/
theorem moveBlock_transformOk {f : KeySchedule → Nat → Block → Block} {whole : KeySchedule → Block → Block} {s t : State}
    (hwhole : ∀ ks b, roundsFrom f ks 15 b = whole ks b)
    (h : transformOk f whole .finish (blockOfQuad s.din) s = true) (hm : moveBlock f s = .next t) :
    t.phase = .idle ∨ transformOk f whole .finish (blockOfQuad t.din) t = true := by
  unfold moveBlock at hm
  split at hm
  case h_1 hs =>
    rw [(roundMove_frame hm).1]
    exact .inr (roundMove_transformOk hwhole (by decide) hs h hm)
  case h_2 => cases hm; exact .inl rfl
  all_goals cases hm

/-- An internal step completes the command or keeps it on track. -/
theorem moveOf_commandOk {i : Instr} {s t : State} (h : commandOk i s = true) (hm : moveOf i s = .next t) :
    t.phase = .idle ∨ commandOk i t = true := by
  cases i with
  | expandKey =>
    simp only [moveOf, moveExpandKey] at hm
    split at hm
    case h_1 => exact .inr (expandMove_expandOk h hm)
    case h_2 => cases hm; exact .inl rfl
    all_goals cases hm
  | encryptBlock => exact moveBlock_transformOk roundsFrom_encRound h hm
  | decryptBlock => exact moveBlock_transformOk roundsFrom_decRound h hm
  | cbcEncrypt =>
    rw [commandOk_cbcEncrypt] at h ⊢
    simp only [moveOf, moveCbcEncrypt] at hm
    split at hm
    case h_1 =>
      exact .inr (cbcRead_cbcOk (load := loadCbcEncrypt) (fun _ _ => rfl) (fun _ _ => rfl) (encBlockOk_load s) h hm)
    case h_2 hs => exact .inr (roundMove_cbcOk hs (roundMove_encBlockOk hs hm) h hm)
    case h_3 => exact .inr (cbcWrite_cbcOk h hm)
    case h_4 => cases hm; exact .inl rfl
    case h_5 => cases hm
  | cbcDecrypt =>
    rw [commandOk_cbcDecrypt] at h ⊢
    simp only [moveOf, moveCbcDecrypt] at hm
    split at hm
    case h_1 =>
      exact .inr (cbcRead_cbcOk (load := loadCbcDecrypt) (fun _ _ => rfl) (fun _ _ => rfl) (decBlockOk_load s) h hm)
    case h_2 hs => exact .inr (roundMove_cbcOk hs (roundMove_decBlockOk hs hm) h hm)
    case h_3 => exact .inr (cbcWrite_cbcOk h hm)
    case h_4 => cases hm; exact .inl rfl
    case h_5 => cases hm

/-! ### The invariant of a state -/

theorem errCode_le (e : ErrCode) : (errCode e).toNat ≤ 5 := by
  cases e <;> decide

/-- An idle core meets the invariant when its memory is canonical and its error code is defined. -/
theorem Inv.of_idle {s : State} (hp : s.phase = .idle) (hm : s.mem.wf = true) (he : s.err.toNat ≤ 5) : Inv s where
  memory := hm
  exclusive h := by rw [hp] at h; cases h.1
  errCode := he
  busyErr h := by rw [hp] at h; cases h
  sequencer := by simp [sequencerOk, hp]

/-- What it takes for a core that runs command `i` to meet the invariant. -/
structure Running (i : Instr) (s : State) : Prop where
  memory : s.mem.wf = true
  done : s.done = false
  err : s.err = 0
  curOp : decodeOp s.int.curOp = some i
  check : check s.int.curOp s = none
  command : commandOk i s = true

theorem Running.inv {i : Instr} {s : State} (h : Running i s) : Inv s where
  memory := h.memory
  exclusive hb := by rw [h.done] at hb; cases hb.2
  errCode := by rw [h.err]; decide
  busyErr _ := h.err
  sequencer := by cases hp : s.phase <;> simp [sequencerOk, hp, h.curOp, h.check, h.command]

theorem Inv.running {s : State} (h : Inv s) (hb : s.phase = .busy) : ∃ i, Running i s := by
  have hs := h.sequencer
  cases hop : decodeOp s.int.curOp with
  | none => simp [sequencerOk, hb, hop] at hs
  | some i =>
    simp only [sequencerOk, hb, hop, Bool.and_eq_true, decide_eq_true_eq] at hs
    exact ⟨i, h.memory, by simpa using fun hd => h.exclusive ⟨hb, hd⟩, h.busyErr hb, hop, hs.1, hs.2⟩

/-- The checks read the schedule's presence and the buffer's operands alone (R242). -/
theorem check_congr {s t : State} (hv : t.ksValid = s.ksValid) (hs : t.src = s.src) (hd : t.dst = s.dst)
    (hl : t.len = s.len) (op : BitVec 4) : check op t = check op s := by
  simp only [check, hv, hs, hd, hl]

theorem MovedBy.ksValid_of_busy {i : Instr} {s t : State} (h : MovedBy i s t) (hb : t.phase = .busy) :
    t.ksValid = s.ksValid := by
  cases h with
  | internal => rfl
  | store => rfl
  | done => cases hb

theorem MovedBy.done_of_busy {i : Instr} {s t : State} (h : MovedBy i s t) (hb : t.phase = .busy) :
    t.done = s.done := by
  cases h with
  | internal => rfl
  | store => rfl
  | done => cases hb

/-- An internal step keeps the invariant. -/
theorem coreMove_inv {s t : State} (h : Inv s) (hb : s.phase = .busy) (hc : coreMove s = .next t) : Inv t := by
  obtain ⟨i, hr⟩ := h.running hb
  have hm := coreMove_moved hc
  have hmem := hm.memory hr.memory
  have herr := hm.err.trans hr.err
  rw [coreMove_busy hb hr.curOp] at hc
  cases ht : t.phase with
  | idle => exact .of_idle ht hmem (by rw [herr]; decide)
  | busy =>
    have hby := moveOf_movedBy hc
    have hop := hm.curOp ht
    have hcmd : commandOk i t = true := (moveOf_commandOk hr.command hc).resolve_left (by simp [ht])
    have hcheck := check_congr (hby.ksValid_of_busy ht) hm.operands.src hm.operands.dst hm.operands.len s.int.curOp
    exact Running.inv ⟨hmem, (hby.done_of_busy ht).trans hr.done, herr, hop ▸ hr.curOp, hop ▸ hcheck.trans hr.check, hcmd⟩

/-- The core's progress keeps the invariant. -/
theorem advance_inv {n : Nat} {s t : State} (hs : Inv s) (h : advance n s = .next t) : Inv t :=
  advance_induction (P := Inv) (fun _ _ hb hu hc => coreMove_inv hu hb hc) hs h

/-- A command just started is on track. -/
theorem startOf_commandOk (i : Instr) (s : State) : commandOk i (startOf i s) = true := by
  cases i with
  | expandKey =>
    refine expandOk_iff.2 ⟨?_, ?_, ?_, ?_⟩ <;> simp [startOf]
    rfl
  | encryptBlock =>
    rw [commandOk_encryptBlock, startOf, startEncryptBlock_din]
    exact transformOk_loadState s.int (startEncryptBlock_int s)
  | decryptBlock =>
    rw [commandOk_decryptBlock, startOf, startDecryptBlock_din]
    exact transformOk_loadState s.int (startDecryptBlock_int s)
  | cbcEncrypt =>
    rw [commandOk_cbcEncrypt]
    exact cbcOk_cbcStage (k := 0) (Nat.zero_le _) rfl rfl
  | cbcDecrypt =>
    rw [commandOk_cbcDecrypt]
    exact cbcOk_cbcStage (k := 0) (Nat.zero_le _) rfl rfl

/-- Acceptance starts a command that meets the invariant (R66). -/
theorem started_inv {i : Instr} {s : State} (hm : s.mem.wf = true) (hc : check (opcode i) s = none) :
    Inv (startOf i (accepted (opcode i) s)) := by
  have hcmd := startOf_commandOk i (accepted (opcode i) s)
  have hop := decodeOp_opcode i
  cases i <;> exact Running.inv ⟨hm, rfl, rfl, hop, hc, hcmd⟩

/-! ### The host's turn keeps the invariant -/

theorem Running.cbcBusy {i : Instr} {s : State} (h : Running i s) (hb : s.phase = .busy) (hi : IsCbc i) :
    cbcBusy s = true := by
  rcases hi with rfl | rfl <;> simp [Machine.cbcBusy, busyBit_busy hb, h.curOp]

/-- A byte the host may write while a CBC command runs lies in no block of the source (R282). -/
theorem readBlock_writeByte_of_no_race {s : State} {a : Nat} (b : Byte) (hm : s.mem.wf = true) (hc : cbcBusy s = true)
    (hrace : hostRace s a = false) {k : Nat} (hk : k < blockCount s) :
    readBlock (writeByte s.mem a b) (srcAddr s k) = readBlock s.mem (srcAddr s k) := by
  simp only [hostRace, hc, Bool.true_and, Bool.or_eq_false_iff, inRange, Bool.and_eq_false_iff,
    decide_eq_false_iff_not] at hrace
  have hle := blockCount_le s
  ext j hj : 1
  have hne : a ≠ srcAddr s k + j := by
    simp only [srcAddr]
    omega
  rw [readBlock_getElem, readBlock_getElem, readByte_writeByte_of_wf hm, if_neg hne]

theorem encBlockOk_withMem {s : State} {m : Memory} (h : readBlock m (srcAddr s s.int.blockIndex) = currentInput s) :
    encBlockOk { s with mem := m } = encBlockOk s := by
  have hin : currentInput { s with mem := m } = currentInput s := h
  rw [encBlockOk, hin]
  rfl

theorem decBlockOk_withMem {s : State} {m : Memory} (h : readBlock m (srcAddr s s.int.blockIndex) = currentInput s) :
    decBlockOk { s with mem := m } = decBlockOk s := by
  have hin : currentInput { s with mem := m } = currentInput s := h
  rw [decBlockOk, hin]
  rfl

/-- A CBC command stays on track in another memory that holds the same block in hand. -/
theorem cbcOk_withMem {tr : State → Bool} {s : State} {m : Memory} (h : cbcOk tr s = true)
    (htr : s.int.blockIndex < blockCount s → tr { s with mem := m } = tr s) : cbcOk tr { s with mem := m } = true := by
  rw [cbcOk_iff] at h ⊢
  rcases h with h | ⟨hs, hk, ht⟩ | h
  · exact .inl h
  · exact .inr (.inl ⟨hs, hk, (htr hk).trans ht⟩)
  · exact .inr (.inr h)

theorem commandOk_withMem {i : Instr} {s : State} {m : Memory} (h : commandOk i s = true)
    (hin : IsCbc i → s.int.blockIndex < blockCount s →
      readBlock m (srcAddr s s.int.blockIndex) = currentInput s) : commandOk i { s with mem := m } = true := by
  cases i with
  | expandKey => exact h
  | encryptBlock => simpa only [commandOk_encryptBlock, transformOk] using h
  | decryptBlock => simpa only [commandOk_decryptBlock, transformOk] using h
  | cbcEncrypt =>
    rw [commandOk_cbcEncrypt] at h ⊢
    exact cbcOk_withMem h fun hk => encBlockOk_withMem (hin (.inl rfl) hk)
  | cbcDecrypt =>
    rw [commandOk_cbcDecrypt] at h ⊢
    exact cbcOk_withMem h fun hk => decBlockOk_withMem (hin (.inr rfl) hk)

/-- A host write that is no race keeps the invariant. -/
theorem Inv.writeByte {s : State} {a : Address} (b : Byte) (h : Inv s) (hrace : hostRace s a.toNat = false) :
    Inv { s with mem := writeByte s.mem a.toNat b } := by
  have hm := writeByte_wf (b := b) h.memory a.isLt
  rcases phase_cases s with hp | hb
  · exact .of_idle hp hm h.errCode
  · obtain ⟨i, hr⟩ := h.running hb
    have hcmd := commandOk_withMem (m := Machine.writeByte s.mem a.toNat b) hr.command fun hi hk =>
      readBlock_writeByte_of_no_race b h.memory (hr.cbcBusy hb hi) hrace hk
    exact Running.inv ⟨hm, hr.done, hr.err, hr.curOp, hr.check, hcmd⟩

/-- The invariant speaks of neither the host's turns nor what the host has read. -/
theorem Inv.port {s : State} (h : Inv s) (turns : List Turn) (moves : Nat) (readData : Word) (hostByte : Byte) :
    Inv { s with turns := turns, moves := moves, readData := readData, hostByte := hostByte } :=
  ⟨h.memory, h.exclusive, h.errCode, h.busyErr, h.sequencer⟩

/-- What a register write leaves: the sequencer, the results and buffer memory. -/
theorem writeNamed_frame (r : Reg) (v : Word) (s : State) :
    (writeNamed r v s).phase = s.phase ∧ (writeNamed r v s).err = s.err ∧ (writeNamed r v s).mem = s.mem ∧
      (writeNamed r v s).ksValid = s.ksValid := by
  cases r <;> exact ⟨rfl, rfl, rfl, rfl⟩

theorem Prepared.inv {s u : State} (h : Inv s) (hu : Prepared s u) : Inv u := by
  cases hu with
  | access turns moves readData hostByte => exact h.port _ _ _ _
  | memWrite turns moves a b hrace => exact (h.writeByte b hrace).port _ _ _ _
  | regWrite turns moves off v r hx hp hr =>
    obtain ⟨hphase, herr, hmem, -⟩ := writeNamed_frame r v { s with turns := turns, moves := moves }
    exact .of_idle (hphase.trans hp) (by rw [hmem]; exact h.memory) (by rw [herr]; exact h.errCode)
  | rejected turns moves e hp => exact .of_idle hp h.memory (errCode_le e)
  | started turns moves i hp hc => exact started_inv h.memory hc

theorem resetTurn_inv {act : HostAct} {s t : State} (hm : s.mem.wf = true) (h : resetTurn act s = .next t) : Inv t := by
  obtain ⟨u, turns, readData, hu, rfl⟩ := resetTurn_next h
  exact .of_idle rfl (memAfterReset_wf (hu hm)) (Nat.zero_le 5)

/-- A step is one with reset, or one without. -/
theorem step_reset_or_not {s : State} : (∃ act n rest, s.turns = ⟨true, act, n⟩ :: rest) ∨
    ∀ x rest, s.turns = x :: rest → x.rst = false := by
  cases hs : s.turns with
  | nil => exact .inr fun _ _ h => by cases h
  | cons x rest =>
    obtain ⟨rst, act, n⟩ := x
    cases rst with
    | true => exact .inl ⟨act, n, rest, rfl⟩
    | false => exact .inr fun _ _ h => by cases h; rfl

end Sys2Proof.Machine

open Sys2Proof Sys2Proof.Machine in
/-- Settles O36: what the host's turn does keeps the invariant, and so does every internal step after it. -/
theorem stepKeepsTheInvariant : Obligations.StepKeepsTheInvariant := by
  intro s t h hstep
  rcases step_reset_or_not (s := s) with ⟨act, n, rest, hx⟩ | hn
  · rw [step_reset hx] at hstep
    exact resetTurn_inv (s := { s with turns := rest, moves := n }) h.memory hstep
  · obtain ⟨u, n, hu, hadv⟩ := step_prepared hn hstep
    exact advance_inv (hu.inv h) hadv

/-! Leftover internal storage: two states that differ only in internal registers the command in progress will not read take
the same step, up to such registers again (R41 to R45). -/

namespace Sys2Proof.Machine

/-! ### The relation -/

/-- The command in progress reads the same from `j` as from the state's own internal storage. -/
def LiveAgree (s : State) (j : Internal) : Prop :=
  s.phase = .busy → s.int.curOp = j.curOp ∧ ∀ i, decodeOp s.int.curOp = some i → liveEq i s.int j

theorem indistinguishable_iff {s t : State} :
    Indistinguishable s t ↔ ∃ j, LiveAgree s j ∧ t = { s with int := j } := by
  constructor
  · exact fun ⟨ht, hl⟩ => ⟨t.int, hl, ht.symm⟩
  · rintro ⟨j, hl, rfl⟩
    exact ⟨rfl, hl⟩

theorem liveEq_refl (i : Instr) (a : Internal) : liveEq i a a := by
  cases i
  · exact ⟨rfl, rfl, rfl, rfl⟩
  · exact ⟨rfl, rfl, rfl, rfl⟩
  · exact ⟨rfl, rfl, rfl, rfl⟩
  · exact ⟨rfl, rfl, rfl, rfl, fun _ => ⟨rfl, rfl⟩⟩
  · exact ⟨rfl, rfl, rfl, rfl, fun _ => ⟨rfl, rfl, rfl⟩⟩

theorem LiveAgree.indistinguishable {s : State} {j : Internal} (h : LiveAgree s j) :
    Indistinguishable s { s with int := j } := ⟨rfl, h⟩

theorem Indistinguishable.refl (s : State) : Indistinguishable s s :=
  ⟨rfl, fun _ => ⟨rfl, fun i _ => liveEq_refl i s.int⟩⟩

/-- An idle core reads nothing of its internal storage. -/
theorem LiveAgree.of_idle {s : State} (hp : s.phase = .idle) (j : Internal) : LiveAgree s j :=
  fun hb => by rw [hp] at hb; cases hb

theorem indistinguishable_of_liveEq {i : Instr} {s t : State} (ht : { s with int := t.int } = t)
    (hop : decodeOp s.int.curOp = some i) (h : liveEq i s.int t.int) : Indistinguishable s t := by
  refine ⟨ht, fun _ => ⟨h.1, fun i' hi' => ?_⟩⟩
  obtain rfl : i = i' := Option.some.inj (hop.symm.trans hi')
  exact h

theorem SameOutcome.refl (r : Result) : SameOutcome r r := by
  cases r
  · exact Indistinguishable.refl _
  · rfl
  · rfl

theorem SameOutcome.of_eq {r q : Result} (h : r = q) : SameOutcome r q := h ▸ .refl r

/-- Going on alike from outcomes of one kind. -/
theorem SameOutcome.andThen {r q : Result} {f g : State → Result} (h : SameOutcome r q)
    (hfg : ∀ s t, Indistinguishable s t → SameOutcome (f s) (g t)) : SameOutcome (andThen r f) (andThen q g) := by
  cases r <;> cases q
  case next.next => exact hfg _ _ h
  case fault.fault => exact h
  case refused.refused => exact h
  all_goals exact h.elim

/-! ### Internal steps -/

section Moves

variable {i : Instr} {s : State} {j : Internal}

theorem roundMove_same {f : KeySchedule → Nat → Block → Block} {after : Stage} (hop : decodeOp s.int.curOp = some i)
    (hst : s.int.stage = j.stage) (hw : s.int.work = j.work) (hr : s.int.round = j.round)
    (hl : ∀ w r st, liveEq i { s.int with work := w, round := r, stage := st } { j with work := w, round := r, stage := st }) :
    SameOutcome (roundMove f after s) (roundMove f after { s with int := j }) := by
  simp only [roundMove, ← hw, ← hr]
  split
  · have hnext := hl (f s.ks s.int.round s.int.work) (s.int.round + 1) s.int.stage
    rw [hst] at hnext
    exact indistinguishable_of_liveEq rfl hop (by simpa only [← hst] using hnext)
  · split
    · have hnext := hl (f s.ks s.int.round s.int.work) s.int.round after
      exact indistinguishable_of_liveEq rfl hop (by simpa only [hr] using hnext)
    · rfl

theorem expandMove_same (hop : decodeOp s.int.curOp = some .expandKey) (hl : liveEq .expandKey s.int j) :
    SameOutcome (expandMove s) (expandMove { s with int := j }) := by
  obtain ⟨hcur, -, hsched, hrcon⟩ := hl
  simp only [expandMove, ← hsched, ← hrcon]
  split
  · exact indistinguishable_of_liveEq rfl hop ⟨hcur, rfl, rfl, rfl⟩
  · rfl

theorem cbcRead_same {load : Block → Internal → Internal} (hop : decodeOp s.int.curOp = some i)
    (hk : s.int.blockIndex = j.blockIndex) (hs : liveEq i s.int j) (hcur : ∀ b a, (load b a).curOp = a.curOp)
    (hl : ∀ b, liveEq i (load b s.int) (load b j)) :
    SameOutcome (cbcRead load s) (cbcRead load { s with int := j }) := by
  have hb : blockCount { s with int := j } = blockCount s := rfl
  simp only [cbcRead, ← hk, hb]
  split
  · have ha : ∀ a, blockAdmitted { s with int := j } a = blockAdmitted s a := fun _ => rfl
    have hsrc : ∀ k, srcAddr { s with int := j } k = srcAddr s k := fun _ => rfl
    simp only [ha, hsrc]
    split
    · exact indistinguishable_of_liveEq rfl (by rw [hcur, hop]) (hl _)
    · exact indistinguishable_of_liveEq rfl hop hs
  · rfl

theorem cbcStage_cases (s : State) (k : Nat) : cbcStage s k = .read ∨ cbcStage s k = .finish := by
  unfold cbcStage
  split
  · exact .inl rfl
  · exact .inr rfl

theorem cbcWrite_same {out cv' x y : Block} (hop : decodeOp s.int.curOp = some i)
    (hk : s.int.blockIndex = j.blockIndex) (hs : liveEq i s.int j)
    (hl : ∀ k st, st = .read ∨ st = .finish → liveEq i
      { s.int with cv := cv', saved := x, blockIndex := k, stage := st }
      { j with cv := cv', saved := y, blockIndex := k, stage := st }) :
    SameOutcome (cbcWrite out cv' x s) (cbcWrite out cv' y { s with int := j }) := by
  have hb : blockCount { s with int := j } = blockCount s := rfl
  simp only [cbcWrite, ← hk, hb]
  split
  · have ha : ∀ a, blockAdmitted { s with int := j } a = blockAdmitted s a := fun _ => rfl
    have hdst : ∀ k, dstAddr { s with int := j } k = dstAddr s k := fun _ => rfl
    have hstage : ∀ k, cbcStage { s with int := j } k = cbcStage s k := fun _ => rfl
    simp only [ha, hdst, hstage]
    split
    · generalize writeBlock s.mem (dstAddr s s.int.blockIndex) out = m
      exact indistinguishable_of_liveEq (i := i) rfl hop (hl (s.int.blockIndex + 1) _ (cbcStage_cases s _))
    · exact indistinguishable_of_liveEq rfl hop hs
  · rfl

/-- What completion leaves of the internal storage depends on the stage alone. -/
theorem leftover_congr {a b : Internal} (h : a.stage = b.stage) (d : Nat) : leftover d a = leftover d b := by
  simp only [leftover, h]

theorem complete_same (u : State) (h : u.int.stage = j.stage) : complete { u with int := j } = complete u := by
  simp only [complete, leftover_congr h]

theorem moveExpandKey_same (hop : decodeOp s.int.curOp = some .expandKey) (hl : liveEq .expandKey s.int j) :
    SameOutcome (moveExpandKey s) (moveExpandKey { s with int := j }) := by
  obtain ⟨-, hst, hsched, -⟩ := id hl
  simp only [moveExpandKey, ← hst]
  split
  case h_1 => exact expandMove_same hop hl
  case h_2 =>
    rw [← hsched]
    exact .of_eq (congrArg _ (complete_same { s with ks := scheduleOf s.int.sched, ksValid := true } hst).symm)
  all_goals rfl

theorem moveBlock_same {f : KeySchedule → Nat → Block → Block} (hop : decodeOp s.int.curOp = some i)
    (hst : s.int.stage = j.stage) (hw : s.int.work = j.work) (hr : s.int.round = j.round)
    (hl : ∀ w r st, liveEq i { s.int with work := w, round := r, stage := st } { j with work := w, round := r, stage := st }) :
    SameOutcome (moveBlock f s) (moveBlock f { s with int := j }) := by
  simp only [moveBlock, ← hst]
  split
  case h_1 => exact roundMove_same hop hst hw hr hl
  case h_2 =>
    rw [← hw]
    exact .of_eq (congrArg _ (complete_same { s with dout := quadOfBlock s.int.work } hst).symm)
  all_goals rfl

/-- Between two blocks a stage reads neither the working State nor the saved block. -/
theorem not_inBlock {st : Stage} (h : st = .read ∨ st = .finish) : ¬(st = .round ∨ st = .write) := by
  rcases h with rfl | rfl <;> simp

theorem moveCbcEncrypt_same (hop : decodeOp s.int.curOp = some .cbcEncrypt) (hl : liveEq .cbcEncrypt s.int j) :
    SameOutcome (moveCbcEncrypt s) (moveCbcEncrypt { s with int := j }) := by
  obtain ⟨hcur, hst, hcv, hk, hin⟩ := id hl
  simp only [moveCbcEncrypt, ← hst]
  split
  case h_1 =>
    refine cbcRead_same hop hk hl (fun _ _ => rfl) fun b => ⟨hcur, rfl, hcv, hk, fun _ => ⟨?_, rfl⟩⟩
    simp only [loadCbcEncrypt, loadState_work, hcv]
  case h_2 hs =>
    obtain ⟨hw, hr⟩ := hin (.inl hs)
    exact roundMove_same hop hst hw hr fun _ _ _ => ⟨hcur, rfl, hcv, hk, fun _ => ⟨rfl, rfl⟩⟩
  case h_3 hs =>
    obtain ⟨hw, -⟩ := hin (.inr hs)
    rw [← hw]
    exact cbcWrite_same hop hk hl fun _ _ h => ⟨hcur, rfl, rfl, rfl, fun hb => absurd hb (not_inBlock h)⟩
  case h_4 => exact .of_eq (congrArg _ (complete_same s hst).symm)
  case h_5 => rfl

theorem moveCbcDecrypt_same (hop : decodeOp s.int.curOp = some .cbcDecrypt) (hl : liveEq .cbcDecrypt s.int j) :
    SameOutcome (moveCbcDecrypt s) (moveCbcDecrypt { s with int := j }) := by
  obtain ⟨hcur, hst, hcv, hk, hin⟩ := id hl
  simp only [moveCbcDecrypt, ← hst]
  split
  case h_1 =>
    exact cbcRead_same hop hk hl (fun _ _ => rfl) fun b => ⟨hcur, rfl, hcv, hk, fun _ => ⟨rfl, rfl, rfl⟩⟩
  case h_2 hs =>
    obtain ⟨hw, hr, hsaved⟩ := hin (.inl hs)
    exact roundMove_same hop hst hw hr fun _ _ _ => ⟨hcur, rfl, hcv, hk, fun _ => ⟨rfl, rfl, hsaved⟩⟩
  case h_3 hs =>
    obtain ⟨hw, -, hsaved⟩ := hin (.inr hs)
    rw [← hw, ← hcv, ← hsaved]
    exact cbcWrite_same hop hk hl fun _ _ h => ⟨hcur, rfl, rfl, rfl, fun hb => absurd hb (not_inBlock h)⟩
  case h_4 => exact .of_eq (congrArg _ (complete_same s hst).symm)
  case h_5 => rfl

theorem moveOf_same (hop : decodeOp s.int.curOp = some i) (hl : liveEq i s.int j) :
    SameOutcome (moveOf i s) (moveOf i { s with int := j }) := by
  cases i with
  | expandKey => exact moveExpandKey_same hop hl
  | encryptBlock =>
    obtain ⟨hcur, hst, hw, hr⟩ := hl
    rw [moveOf_encryptBlock, moveOf_encryptBlock]
    exact moveBlock_same hop hst hw hr fun _ _ _ => ⟨hcur, rfl, rfl, rfl⟩
  | decryptBlock =>
    obtain ⟨hcur, hst, hw, hr⟩ := hl
    rw [moveOf_decryptBlock, moveOf_decryptBlock]
    exact moveBlock_same hop hst hw hr fun _ _ _ => ⟨hcur, rfl, rfl, rfl⟩
  | cbcEncrypt => exact moveCbcEncrypt_same hop hl
  | cbcDecrypt => exact moveCbcDecrypt_same hop hl

end Moves

theorem coreMove_same {s t : State} (h : Indistinguishable s t) : SameOutcome (coreMove s) (coreMove t) := by
  obtain ⟨j, hl, rfl⟩ := indistinguishable_iff.1 h
  rcases phase_cases s with hp | hp
  · rw [coreMove_idle hp, coreMove_idle (s := { s with int := j }) hp]
    exact h
  · obtain ⟨hcur, hlive⟩ := hl hp
    cases hop : decodeOp s.int.curOp with
    | none => simp [coreMove, hp, hop, ← hcur, SameOutcome]
    | some i =>
      rw [coreMove_busy hp hop, coreMove_busy (s := { s with int := j }) hp (hcur ▸ hop)]
      exact moveOf_same hop (hlive i hop)

theorem Indistinguishable.phase {s t : State} (h : Indistinguishable s t) : t.phase = s.phase := by
  obtain ⟨j, -, rfl⟩ := indistinguishable_iff.1 h
  rfl

theorem advance_same (n : Nat) {s t : State} (h : Indistinguishable s t) :
    SameOutcome (advance n s) (advance n t) := by
  induction n generalizing s t with
  | zero => exact h
  | succ n ih =>
    cases hp : s.phase with
    | idle =>
      rw [advance_idle hp, advance_idle (h.phase.trans hp)]
      exact h
    | busy =>
      rw [advance_busy hp, advance_busy (h.phase.trans hp)]
      exact (coreMove_same h).andThen fun _ _ hu => ih hu

/-! ### Acceptance -/

/-- A command just started reads nothing an earlier command left (R66). -/
theorem startOf_liveEq (i : Instr) (s : State) (j : Internal) (hcur : s.int.curOp = j.curOp) :
    liveEq i (startOf i s).int (startOf i { s with int := j }).int := by
  cases i with
  | expandKey => exact ⟨hcur, rfl, rfl, rfl⟩
  | encryptBlock => exact ⟨hcur, rfl, rfl, rfl⟩
  | decryptBlock => exact ⟨hcur, rfl, rfl, rfl⟩
  | cbcEncrypt => exact ⟨hcur, rfl, rfl, rfl, fun hb => absurd hb (not_inBlock (cbcStage_cases s 0))⟩
  | cbcDecrypt => exact ⟨hcur, rfl, rfl, rfl, fun hb => absurd hb (not_inBlock (cbcStage_cases s 0))⟩

theorem started_same (i : Instr) (s : State) (j : Internal) :
    Indistinguishable (startOf i (accepted (opcode i) s)) (startOf i (accepted (opcode i) { s with int := j })) := by
  have hop := decodeOp_opcode i
  have hl := startOf_liveEq i (accepted (opcode i) s) { j with curOp := opcode i } rfl
  cases i <;> exact indistinguishable_of_liveEq rfl hop hl

theorem exec_same {i : Instr} {s : State} {j : Internal} (h : LiveAgree s j) :
    SameOutcome (exec i s) (exec i { s with int := j }) := by
  rw [exec_eq_issue, exec_eq_issue]
  rcases phase_cases s with hp | hp
  · have hc : check (opcode i) { s with int := j } = check (opcode i) s := check_congr rfl rfl rfl rfl _
    cases hs : check (opcode i) s with
    | some e =>
      rw [issue_rejected hp hs, issue_rejected (s := { s with int := j }) hp (hc.trans hs)]
      exact (LiveAgree.of_idle (s := reject e s) hp j).indistinguishable
    | none =>
      rw [issue_accepted hp hs, issue_accepted (s := { s with int := j }) hp (hc.trans hs)]
      exact advance_same s.moves (started_same i s j)
  · rw [issue_busy hp, issue_busy (s := { s with int := j }) hp]
    exact advance_same s.moves h.indistinguishable

/-! ### Reset -/

theorem coast_same (n : Nat) {s t : State} (h : Indistinguishable s t) : Indistinguishable (coast n s) (coast n t) := by
  induction n generalizing s t with
  | zero => exact h
  | succ n ih =>
    have hm := coreMove_same h
    simp only [coast]
    cases hs : coreMove s <;> cases ht : coreMove t <;> rw [hs, ht] at hm
    case next.next => exact ih hm
    case fault.fault => exact h
    case refused.refused => exact h
    all_goals exact hm.elim

theorem coast_curOp (n : Nat) {s : State} : (coast n s).phase = .busy → (coast n s).int.curOp = s.int.curOp :=
  coast_induction (P := fun u => u.phase = .busy → u.int.curOp = s.int.curOp) (fun u v hu hc hb => by
    have hm := coreMove_moved hc
    rcases phase_cases u with hp | hp
    · rw [coreMove_idle hp] at hc; cases hc; exact hu hb
    · exact (hm.curOp hb).trans (hu hp)) (fun _ => rfl)

theorem liveEq_cbc {i : Instr} (hi : IsCbc i) {a b : Internal} (h : liveEq i a b) :
    a.cv = b.cv ∧ a.blockIndex = b.blockIndex := by
  rcases hi with rfl | rfl <;> obtain ⟨-, -, hcv, hk, -⟩ := h <;> exact ⟨hcv, hk⟩

/-- The torn block depends on the chaining value and the block index alone. -/
theorem tear_congr {f : KeySchedule → Block → Block → Block × Block} {s : State} {j : Internal}
    (h : s.phase = .busy → s.int.cv = j.cv ∧ s.int.blockIndex = j.blockIndex) :
    tear f { s with int := j } = tear f s := by
  rcases phase_cases s with hp | hp
  · simp [tear, hp]
  · obtain ⟨hcv, hk⟩ := h hp
    simp only [tear, ← hcv, ← hk]
    rfl

theorem isCbc_of_cbcStepOf {i : Instr} {f : KeySchedule → Block → Block → Block × Block} (h : cbcStepOf i = some f) :
    IsCbc i := by
  cases i with
  | cbcEncrypt => exact .inl rfl
  | cbcDecrypt => exact .inr rfl
  | expandKey => cases h
  | encryptBlock => cases h
  | decryptBlock => cases h

theorem memAfterReset_cbc {s : State} {f : KeySchedule → Block → Block → Block × Block} (hp : s.phase = .busy)
    (hf : (decodeOp s.int.curOp).bind cbcStepOf = some f) :
    memAfterReset s = tear f (coast (Config.resetLag s.draws) s) := by
  simp only [memAfterReset, hp, hf]

/-- Without a CBC command in progress a reset leaves buffer memory (R272). -/
theorem memAfterReset_other {s : State} (h : s.phase = .busy → (decodeOp s.int.curOp).bind cbcStepOf = none) :
    memAfterReset s = s.mem := by
  rcases phase_cases s with hp | hp
  · simp only [memAfterReset, hp]
  · simp only [memAfterReset, hp, h hp]

theorem memAfterReset_same {s : State} {j : Internal} (h : LiveAgree s j) :
    memAfterReset { s with int := j } = memAfterReset s := by
  by_cases hcbc : s.phase = .busy → (decodeOp s.int.curOp).bind cbcStepOf = none
  · have hcbc' : s.phase = .busy → (decodeOp j.curOp).bind cbcStepOf = none := fun hp => (h hp).1 ▸ hcbc hp
    rw [memAfterReset_other hcbc, memAfterReset_other (s := { s with int := j }) hcbc']
  · obtain ⟨hp, hne⟩ := Classical.not_imp.1 hcbc
    obtain ⟨f, hf⟩ := Option.ne_none_iff_exists'.1 hne
    obtain ⟨i, hi, hstep⟩ := Option.bind_eq_some_iff.1 hf
    rw [memAfterReset_cbc hp hf, memAfterReset_cbc (s := { s with int := j }) hp ((h hp).1 ▸ hf)]
    obtain ⟨j', hl', hj'⟩ := indistinguishable_iff.1 (coast_same (Config.resetLag s.draws) h.indistinguishable)
    rw [hj']
    refine tear_congr fun hb => liveEq_cbc (isCbc_of_cbcStepOf hstep) ((hl' hb).2 i ?_)
    rw [coast_curOp _ hb, hi]

/-- A reset forgets the internal storage. -/
theorem resetCore_same {s : State} {j : Internal} (h : LiveAgree s j) :
    resetCore { s with int := j } = resetCore s := by
  simp only [resetCore, memAfterReset_same h]

/-! ### The host's turn -/

theorem readReg_withInt (off : Offset) (s : State) (j : Internal) : readReg off { s with int := j } = readReg off s := by
  simp only [readReg]
  cases regAt off with
  | none => rfl
  | some r => cases r <;> rfl

theorem pollRead_withInt (off : Offset) (mask value : Word) (n : Nat) (s : State) (j : Internal) :
    pollRead off mask value n { s with int := j } = { pollRead off mask value n s with int := j } := by
  simp only [pollRead, readReg_withInt]
  split <;> rfl

theorem writeReg_withInt (off : Offset) (v : Word) (s : State) (j : Internal) :
    writeReg off v { s with int := j } = { writeReg off v s with int := j } := by
  rcases phase_cases s with hp | hp
  · cases hr : regAt off with
    | none => rw [writeReg_unmapped hr, writeReg_unmapped hr]
    | some r =>
      rw [writeReg_mapped hp hr, writeReg_mapped (s := { s with int := j }) hp hr]
      cases r <;> rfl
  · simp only [writeReg, hp]

/-- An access that changes neither the phase nor the internal storage keeps the agreement. -/
theorem LiveAgree.congr {s u : State} {j : Internal} (h : LiveAgree s j) (hp : u.phase = s.phase) (hi : u.int = s.int) :
    LiveAgree u j := by
  unfold LiveAgree
  rw [hp, hi]
  exact h

theorem pollRead_frame (off : Offset) (mask value : Word) (n : Nat) (s : State) :
    (pollRead off mask value n s).phase = s.phase ∧ (pollRead off mask value n s).int = s.int := by
  simp only [pollRead]
  split <;> exact ⟨rfl, rfl⟩

theorem writeReg_frame (off : Offset) (v : Word) (s : State) :
    (writeReg off v s).phase = s.phase ∧ (writeReg off v s).int = s.int := by
  unfold writeReg
  split
  · exact ⟨rfl, rfl⟩
  · next r _ _ => cases r <;> exact ⟨rfl, rfl⟩
  · exact ⟨rfl, rfl⟩

theorem hostRace_withInt {s : State} {j : Internal} (h : LiveAgree s j) (a : Nat) :
    hostRace { s with int := j } a = hostRace s a := by
  rcases phase_cases s with hp | hp
  · simp [hostRace, cbcBusy, busyBit, hp]
  · simp only [hostRace, cbcBusy, busyBit, hp, ← (h hp).1]

theorem hostMemRead_same {s : State} {j : Internal} (h : LiveAgree s j) (a : Address) {go : State → Result}
    (hgo : ∀ u, LiveAgree u j → SameOutcome (go u) (go { u with int := j })) :
    SameOutcome (hostMemRead a s go) (hostMemRead a { s with int := j } go) := by
  have hadm : admitted { s with int := j } a.toNat = admitted s a.toNat := rfl
  simp only [hostMemRead, hostRace_withInt h, hadm]
  split
  · rfl
  · split
    · exact hgo _ (h.congr (u := { s with hostByte := readByte s.mem a.toNat }) rfl rfl)
    · rfl

theorem hostMemWrite_same {s : State} {j : Internal} (h : LiveAgree s j) (a : Address) (b : Byte) {go : State → Result}
    (hgo : ∀ u, LiveAgree u j → SameOutcome (go u) (go { u with int := j })) :
    SameOutcome (hostMemWrite a b s go) (hostMemWrite a b { s with int := j } go) := by
  have hadm : admitted { s with int := j } a.toNat = admitted s a.toNat := rfl
  simp only [hostMemWrite, hostRace_withInt h, hadm]
  split
  · rfl
  · split
    · exact hgo _ (h.congr (u := { s with mem := writeByte s.mem a.toNat b }) rfl rfl)
    · rfl

theorem execIllegal_same {s : State} {j : Internal} (h : LiveAgree s j) {op : BitVec 4} (hop : decodeOp op = none) :
    SameOutcome (execIllegal op s) (execIllegal op { s with int := j }) := by
  rcases phase_cases s with hp | hp
  · rw [execIllegal_idle hp hop, execIllegal_idle (s := { s with int := j }) hp hop]
    exact (LiveAgree.of_idle (s := reject .opcode s) hp j).indistinguishable
  · rw [execIllegal, execIllegal, issue_busy hp, issue_busy (s := { s with int := j }) hp]
    exact advance_same s.moves h.indistinguishable

theorem regWriteTurn_same {s : State} {j : Internal} (h : LiveAgree s j) (off : Offset) (v : Word) :
    SameOutcome (regWriteTurn exec off v s) (regWriteTurn exec off v { s with int := j }) := by
  simp only [regWriteTurn]
  split
  · split
    · exact exec_same h
    · next he => exact execIllegal_same h (decodeOp_of_decode_error he)
  · rw [writeReg_withInt off v s j]
    obtain ⟨hp, hi⟩ := writeReg_frame off v s
    exact advance_same s.moves (h.congr hp hi).indistinguishable

theorem plainTurn_same {s : State} {j : Internal} (h : LiveAgree s j) (act : HostAct) :
    SameOutcome (plainTurn exec act s) (plainTurn exec act { s with int := j }) := by
  have hgo : ∀ u, LiveAgree u j → SameOutcome (advance u.moves u) (advance u.moves { u with int := j }) :=
    fun u hu => advance_same u.moves hu.indistinguishable
  cases act with
  | quiet => exact hgo s h
  | regRead off =>
    simp only [plainTurn, readReg_withInt]
    exact hgo _ (h.congr (u := { s with readData := readReg off s }) rfl rfl)
  | regWrite off v => exact regWriteTurn_same h off v
  | poll off mask value =>
    simp only [plainTurn, pollRead_withInt]
    obtain ⟨hp, hi⟩ := pollRead_frame off mask value s.moves s
    exact advance_same s.moves (h.congr hp hi).indistinguishable
  | memRead a => exact hostMemRead_same h a (go := fun t => advance t.moves t) hgo
  | memWrite a b => exact hostMemWrite_same h a b (go := fun t => advance t.moves t) hgo

theorem resetTurn_same {s : State} {j : Internal} (h : LiveAgree s j) (act : HostAct) :
    SameOutcome (resetTurn act s) (resetTurn act { s with int := j }) := by
  have hgo : ∀ u, LiveAgree u j → SameOutcome (.next (resetCore u)) (.next (resetCore { u with int := j })) :=
    fun u hu => .of_eq (by rw [resetCore_same hu])
  cases act with
  | quiet => exact hgo s h
  | regRead off => simp only [resetTurn, resetCore_same h]; exact .refl _
  | regWrite off v => exact hgo s h
  | poll off mask value => simp only [resetTurn, resetCore_same h]; exact .refl _
  | memRead a => exact hostMemRead_same h a hgo
  | memWrite a b => exact hostMemWrite_same h a b hgo

theorem step_same {s : State} {j : Internal} (h : LiveAgree s j) :
    SameOutcome (step s) (step { s with int := j }) := by
  by_cases hs : s.turns = []
  · rw [step_no_turn hs, step_no_turn (s := { s with int := j }) hs]
    exact coreMove_same h.indistinguishable
  · obtain ⟨⟨rst, act, n⟩, rest, hs⟩ := List.exists_cons_of_ne_nil hs
    have h' : LiveAgree { s with turns := rest, moves := n } j := h.congr rfl rfl
    cases rst with
    | false =>
      rw [step_plain hs, step_plain (s := { s with int := j }) hs]
      exact plainTurn_same h' act
    | true =>
      rw [step_reset hs, step_reset (s := { s with int := j }) hs]
      exact resetTurn_same h' act

end Sys2Proof.Machine

open Sys2Proof Sys2Proof.Machine in
/-- Settles O41: from a state and one that agrees with it on all the command in progress has yet to read. -/
theorem leftoverStorageIsNeverObserved : Obligations.LeftoverStorageIsNeverObserved := by
  intro s t h
  obtain ⟨j, hl, rfl⟩ := indistinguishable_iff.1 h
  exact ⟨step_same hl, fun off => (readReg_withInt off s j).symm, rfl⟩

/-! What the commands and the steps leave unchanged (R48, R68, R72). -/

namespace Sys2Proof.Machine

/-! ### What an internal step of each command leaves -/

theorem MovedBy.mem {i : Instr} {s t : State} (h : MovedBy i s t) (hi : ¬IsCbc i) : t.mem = s.mem := by
  cases h with
  | internal => rfl
  | store hc => exact absurd hc hi
  | done => cases i <;> rfl

theorem commit_dout {i : Instr} (he : i ≠ .encryptBlock) (hd : i ≠ .decryptBlock) (s : State) :
    (commit i s).dout = s.dout := by
  cases i with
  | encryptBlock => exact absurd rfl he
  | decryptBlock => exact absurd rfl hd
  | expandKey | cbcEncrypt | cbcDecrypt => rfl

theorem commit_schedule {i : Instr} (hi : i ≠ .expandKey) (s : State) :
    (commit i s).ks = s.ks ∧ (commit i s).ksValid = s.ksValid := by
  cases i with
  | expandKey => exact absurd rfl hi
  | encryptBlock | decryptBlock | cbcEncrypt | cbcDecrypt => exact ⟨rfl, rfl⟩

/-- Only the block commands write `DOUT` (R36). -/
theorem MovedBy.dout {i : Instr} {s t : State} (h : MovedBy i s t) (he : i ≠ .encryptBlock) (hd : i ≠ .decryptBlock) :
    t.dout = s.dout := by
  cases h with
  | internal => rfl
  | store => rfl
  | done => exact commit_dout he hd s

/-- Only `EXPAND_KEY` writes the schedule (R27, R37). -/
theorem MovedBy.schedule {i : Instr} {s t : State} (h : MovedBy i s t) (hi : i ≠ .expandKey) :
    t.ks = s.ks ∧ t.ksValid = s.ksValid := by
  cases h with
  | internal => exact ⟨rfl, rfl⟩
  | store => exact ⟨rfl, rfl⟩
  | done => exact commit_schedule hi s

/-! ### What a command leaves, from an idle core -/

theorem startOf_operands (i : Instr) (s : State) : OperandsKept s (startOf i s) := by
  cases i <;> exact ⟨rfl, rfl, rfl, rfl, rfl, rfl⟩

theorem startOf_port (i : Instr) (s : State) : PortKept s (startOf i s) := by
  cases i <;> exact ⟨rfl, rfl, rfl, rfl, rfl⟩

theorem startOf_results (i : Instr) (s : State) : ResultsKept s (startOf i s) := by
  cases i <;> exact ⟨rfl, rfl, rfl⟩

theorem startOf_mem (i : Instr) (s : State) : (startOf i s).mem = s.mem := by
  cases i <;> rfl

theorem startOf_curOp (i : Instr) (s : State) : (startOf i s).int.curOp = s.int.curOp := by
  cases i <;> rfl

theorem accepted_operands_kept (op : BitVec 4) (s : State) : OperandsKept s (accepted op s) :=
  ⟨rfl, rfl, rfl, rfl, rfl, rfl⟩

theorem accepted_port_kept (op : BitVec 4) (s : State) : PortKept s (accepted op s) := ⟨rfl, rfl, rfl, rfl, rfl⟩

theorem exec_operands {i : Instr} {s t : State} (hp : s.phase = .idle) (h : exec i s = .next t) : OperandsKept s t := by
  rcases exec_idle_next hp h with ⟨e, -, rfl⟩ | ⟨-, hadv⟩
  · exact ⟨rfl, rfl, rfl, rfl, rfl, rfl⟩
  · exact ((accepted_operands_kept _ s).trans (startOf_operands i _)).trans (advance_operands hadv)

theorem exec_port {i : Instr} {s t : State} (hp : s.phase = .idle) (h : exec i s = .next t) : PortKept s t := by
  rcases exec_idle_next hp h with ⟨e, -, rfl⟩ | ⟨-, hadv⟩
  · exact ⟨rfl, rfl, rfl, rfl, rfl⟩
  · exact ((accepted_port_kept _ s).trans (startOf_port i _)).trans (advance_port hadv)

/-- A property that rejection gives, that the start of command `i` gives and that its internal steps keep holds after
`exec i` from an idle core. -/
theorem exec_induction {i : Instr} {P : State → Prop} {s t : State} (hp : s.phase = .idle) (h : exec i s = .next t)
    (hreject : ∀ e, P (reject e s)) (hstart : P (startOf i (accepted (opcode i) s)))
    (hstep : ∀ u v, u.phase = .busy → P u → MovedBy i u v → P v) : P t := by
  rcases exec_idle_next hp h with ⟨e, -, rfl⟩ | ⟨-, hadv⟩
  · exact hreject e
  · exact advance_movedBy hstep (by rw [startOf_curOp]; exact decodeOp_opcode i) hstart hadv

theorem exec_mem {i : Instr} {s t : State} (hp : s.phase = .idle) (hi : ¬IsCbc i) (h : exec i s = .next t) :
    t.mem = s.mem :=
  exec_induction (P := fun u => u.mem = s.mem) hp h (fun _ => rfl) (startOf_mem i _)
    fun _ _ _ hu hm => (hm.mem hi).trans hu

theorem exec_dout {i : Instr} {s t : State} (hp : s.phase = .idle) (he : i ≠ .encryptBlock) (hd : i ≠ .decryptBlock)
    (h : exec i s = .next t) : t.dout = s.dout :=
  exec_induction (P := fun u => u.dout = s.dout) hp h (fun _ => rfl) (startOf_results i _).dout
    fun _ _ _ hu hm => (hm.dout he hd).trans hu

theorem exec_schedule {i : Instr} {s t : State} (hp : s.phase = .idle) (hi : i ≠ .expandKey) (h : exec i s = .next t) :
    t.ks = s.ks ∧ t.ksValid = s.ksValid :=
  exec_induction (P := fun u => u.ks = s.ks ∧ u.ksValid = s.ksValid) hp h (fun _ => ⟨rfl, rfl⟩)
    ⟨(startOf_results i _).ks, (startOf_results i _).ksValid⟩
    fun _ _ _ hu hm => ⟨(hm.schedule hi).1.trans hu.1, (hm.schedule hi).2.trans hu.2⟩

/-- Byte `a` is in no output block of the CBC command whose operands `s` holds (R204). -/
def OutsideOutput (s : State) (a : Nat) : Prop := ∀ k < blockCount s, ¬(dstAddr s k ≤ a ∧ a < dstAddr s k + 16)

theorem OutsideOutput.congr {s t : State} {a : Nat} (h : OutsideOutput s a) (hk : OperandsKept s t) :
    OutsideOutput t a := by
  simp only [OutsideOutput, blockCount, dstAddr, hk.len, hk.dst]
  exact h

theorem MovedBy.readByte {i : Instr} {s t : State} {a : Nat} (h : MovedBy i s t) (hm : s.mem.wf = true)
    (ha : OutsideOutput s a) : readByte t.mem a = readByte s.mem a := by
  cases h with
  | internal => rfl
  | store _ v j _ hk hadm =>
    have hne := ha _ hk
    simp only [readByte_writeBlock hm (blockAdmitted_le hadm), if_neg hne]
  | done => cases i <;> rfl

/-- Up to `t`, the memory of `s` has changed in output blocks alone. -/
structure OutputOnly (s t : State) : Prop where
  memory : t.mem.wf = true
  operands : OperandsKept s t
  outside : ∀ a, OutsideOutput s a → readByte t.mem a = readByte s.mem a

theorem OutputOnly.step {i : Instr} {s u v : State} (h : OutputOnly s u) (hm : MovedBy i u v) : OutputOnly s v where
  memory := hm.moved.memory h.memory
  operands := h.operands.trans hm.moved.operands
  outside a ha := (hm.readByte h.memory (ha.congr h.operands)).trans (h.outside a ha)

/-- A command writes no byte of memory outside its output blocks. -/
theorem exec_outputOnly {i : Instr} {s t : State} (hp : s.phase = .idle) (hm : s.mem.wf = true)
    (h : exec i s = .next t) : OutputOnly s t := by
  refine exec_induction hp h (fun e => ⟨hm, ⟨rfl, rfl, rfl, rfl, rfl, rfl⟩, fun _ _ => rfl⟩) ?_ fun _ _ _ => .step
  have hmem := startOf_mem i (accepted (opcode i) s)
  refine ⟨by rw [hmem]; exact hm, (accepted_operands_kept _ s).trans (startOf_operands i _), fun a _ => ?_⟩
  rw [hmem, accepted_mem]

/-! ### What a step without reset leaves -/

/-- An offset of word 0 writes no operand register. -/
theorem writeNamed_operands {off : Offset} {r : Reg} (hr : regAt off = some r) (hoff : off &&& 0xFFC = 0) (v : Word)
    (s : State) : OperandsKept s (writeNamed r v s) := by
  obtain rfl : .cmd = r := Option.some.inj ((regAt_cmd hoff).symm.trans hr)
  exact .refl s

theorem Prepared.operands {s u : State} (h : Prepared s u)
    (hw : ∀ turn rest, s.turns = turn :: rest → ∀ off v, turn.act = .regWrite off v → off &&& 0xFFC = 0) :
    OperandsKept s u := by
  cases h with
  | access => exact ⟨rfl, rfl, rfl, rfl, rfl, rfl⟩
  | memWrite => exact ⟨rfl, rfl, rfl, rfl, rfl, rfl⟩
  | regWrite turns moves off v r hx hp hr =>
    have hk := writeNamed_operands hr (hw _ _ hx off v rfl) v { s with turns := turns, moves := moves }
    exact ⟨hk.src, hk.dst, hk.len, hk.key, hk.iv, hk.din⟩
  | rejected => exact ⟨rfl, rfl, rfl, rfl, rfl, rfl⟩
  | started turns moves i =>
    have hk := startOf_operands i (accepted (opcode i) { s with turns := turns, moves := moves })
    exact ⟨hk.src, hk.dst, hk.len, hk.key, hk.iv, hk.din⟩

/-! ### The schedule while it is not expanded -/

/-- The states `EXPAND_KEY` passes through from `s` and from `s` with another schedule: alike but for the schedule, and
there too once it is expanded. -/
theorem moveExpandKey_withKs {s t : State} {k : KeySchedule} (hk : s.ksValid = true → k = s.ks)
    (h : moveExpandKey s = .next t) :
    ∃ k', moveExpandKey { s with ks := k } = .next { t with ks := k' } ∧ (t.ksValid = true → k' = t.ks) := by
  unfold moveExpandKey at h
  split at h
  case h_1 hs =>
    refine ⟨k, ?_⟩
    simp only [moveExpandKey, hs]
    simp only [expandMove] at h ⊢
    split at h
    · next hn => cases h; rw [if_pos hn]; exact ⟨rfl, hk⟩
    · cases h
  case h_2 hs =>
    cases h
    refine ⟨scheduleOf s.int.sched, ?_, fun _ => rfl⟩
    simp only [moveExpandKey, hs]
    rfl
  all_goals cases h

theorem advance_withKs {n : Nat} {s t : State} {k : KeySchedule} (hop : decodeOp s.int.curOp = some .expandKey)
    (hk : s.ksValid = true → k = s.ks) (h : advance n s = .next t) :
    ∃ k', advance n { s with ks := k } = .next { t with ks := k' } ∧ (t.ksValid = true → k' = t.ks) := by
  induction n generalizing s k with
  | zero => cases h; exact ⟨k, rfl, hk⟩
  | succ n ih =>
    rcases phase_cases s with hp | hp
    · rw [advance_idle hp] at h
      cases h
      exact ⟨k, advance_idle (s := { t with ks := k }) hp _, hk⟩
    · rw [advance_busy hp, coreMove_busy hp hop, andThen_eq_next] at h
      obtain ⟨u, hu, h⟩ := h
      obtain ⟨k', hu', hk'⟩ := moveExpandKey_withKs hk hu
      rw [advance_busy (s := { s with ks := k }) hp, coreMove_busy (s := { s with ks := k }) hp hop, moveOf, hu',
        andThen_next]
      rcases phase_cases u with hup | hup
      · rw [advance_idle hup] at h
        cases h
        exact ⟨k', advance_idle (s := { t with ks := k' }) hup _, hk'⟩
      · have hcur := (moveExpandKey_moved hu).curOp hup
        exact ih (hcur ▸ hop) hk' h

theorem readReg_withKs {s : State} (hv : s.ksValid = false) (k : KeySchedule) (off : Offset) :
    readReg off { s with ks := k } = readReg off s := by
  simp only [readReg]
  cases regAt off with
  | none => rfl
  | some r =>
    cases r
    case ks w => simp [readNamed, hv]
    all_goals rfl

/-- Without a schedule a command other than `EXPAND_KEY` fails the key check (R247). -/
theorem check_noKey {s : State} (hv : s.ksValid = false) {i : Instr} (hi : i ≠ .expandKey) :
    check (opcode i) s = some .noKey := by
  cases i
  · exact absurd rfl hi
  all_goals simp [check, decodeOp, hv, opcode]

theorem exec_withKs {i : Instr} {s t : State} (hv : s.ksValid = false) (hp : s.phase = .idle) (k : KeySchedule)
    (h : exec i s = .next t) :
    ∃ k', exec i { s with ks := k } = .next { t with ks := k' } ∧ (t.ksValid = true → k' = t.ks) := by
  by_cases hi : i = .expandKey
  · subst hi
    rcases exec_idle_next hp h with ⟨e, he, rfl⟩ | ⟨hc, hadv⟩
    · cases he
    · rw [exec_eq_issue, issue_accepted (s := { s with ks := k }) hp hc]
      exact advance_withKs (s := startExpandKey (accepted (opcode .expandKey) s)) (decodeOp_opcode .expandKey)
        (fun hv' => absurd (hv.symm.trans hv') (by decide)) hadv
  · rw [exec_eq_issue, issue_rejected hp (check_noKey hv hi)] at h
    cases h
    refine ⟨k, ?_, fun hv' => absurd (hv.symm.trans hv') (by decide)⟩
    rw [exec_eq_issue, issue_rejected (s := { s with ks := k }) hp (check_noKey hv hi)]
    rfl

/-! ### `KS_VALID` -/

theorem writeNamed_ksValid (r : Reg) (v : Word) (s : State) : (writeNamed r v s).ksValid = s.ksValid :=
  (writeNamed_frame r v s).2.2.2

theorem Prepared.ksValid {s u : State} (h : Prepared s u) : u.ksValid = s.ksValid := by
  cases h with
  | access => rfl
  | memWrite => rfl
  | regWrite turns moves off v r => exact writeNamed_ksValid r v _
  | rejected => rfl
  | started turns moves i => exact (startOf_results i _).ksValid

/-- A register is written only while `IDLE`, so a core that runs on still has the key. -/
theorem Prepared.key_of_busy {s u : State} (h : Prepared s u) (hb : u.phase = .busy) : u.key = s.key := by
  cases h with
  | access => rfl
  | memWrite => rfl
  | regWrite turns moves off v r hx hp =>
    rw [(writeNamed_frame r v _).1] at hb
    exact absurd (hp.symm.trans hb) (by decide)
  | rejected => rfl
  | started turns moves i => exact (startOf_operands i _).key

/-- `EXPAND_KEY` on track that is about to complete has built the whole schedule (R143). -/
theorem schedule_complete {s : State} (h : commandOk .expandKey s = true) (hs : s.int.stage = .finish) :
    scheduleOf s.int.sched = expandKey s.key := by
  obtain ⟨-, -, hw, hstage⟩ := expandOk_iff.1 h
  have hn : s.int.sched.length = 60 := by
    by_contra hne
    rw [if_neg hne, hs] at hstage
    cases hstage
  rw [hn] at hw
  rw [expandKey, ← hw]

/-- What an internal step does to `KS_VALID`: nothing, or it completes `EXPAND_KEY` (R27, R146). -/
theorem coreMove_ksValid {s t : State} (h : Inv s) (hb : s.phase = .busy) (hc : coreMove s = .next t) :
    t.ksValid = s.ksValid ∨
      t.ksValid = true ∧ t.ks = expandKey s.key ∧ t.phase = .idle ∧ t.done = true := by
  obtain ⟨i, hr⟩ := h.running hb
  rw [coreMove_busy hb hr.curOp] at hc
  have hm := moveOf_movedBy hc
  by_cases hi : i = .expandKey
  · subst hi
    cases hm with
    | internal => exact .inl rfl
    | store => exact .inl rfl
    | done hs => exact .inr ⟨rfl, schedule_complete hr.command hs, rfl, rfl⟩
  · exact .inl (hm.schedule hi).2

/-- `KS_VALID` is never cleared between `s` and `t`, and if set, then by the completion of `EXPAND_KEY` for `key`. -/
structure KsValidBy (key : Key) (s t : State) : Prop where
  kept : s.ksValid = true → t.ksValid = true
  set : s.ksValid = false → t.ksValid = true → t.ks = expandKey key ∧ t.phase = .idle ∧ t.done = true

theorem KsValidBy.of_eq {key : Key} {s t : State} (h : t.ksValid = s.ksValid) : KsValidBy key s t where
  kept hv := h.trans hv
  set hf ht := absurd (hf.symm.trans (h.symm.trans ht)) (by decide)

theorem KsValidBy.step {key : Key} {s u v : State} (h : KsValidBy key s u) (hi : Inv u) (hk : u.key = key)
    (hb : u.phase = .busy) (hc : coreMove u = .next v) : KsValidBy key s v := by
  rcases coreMove_ksValid hi hb hc with hv | ⟨hv, hks, hidle, hdone⟩
  · refine ⟨fun hs => hv.trans (h.kept hs), fun hs ht => ?_⟩
    have hidle := (h.set hs (hv ▸ ht)).2.1
    exact absurd (hidle.symm.trans hb) (by decide)
  · exact ⟨fun _ => hv, fun _ _ => ⟨hk ▸ hks, hidle, hdone⟩⟩

theorem advance_ksValid {n : Nat} {u t : State} (hi : Inv u) (h : advance n u = .next t) : KsValidBy u.key u t := by
  have hrun := advance_induction (P := fun v => Inv v ∧ v.key = u.key ∧ KsValidBy u.key u v)
    (fun v w hb ⟨hv, hk, hks⟩ hc =>
      ⟨coreMove_inv hv hb hc, (coreMove_moved hc).operands.key.trans hk, hks.step hv hk hb hc⟩)
    ⟨hi, rfl, .of_eq rfl⟩ h
  exact hrun.2.2

end Sys2Proof.Machine

open Sys2Proof Sys2Proof.Machine in
/-- Settles O30: each command writes only its own results, and only the CBC commands write memory. -/
theorem registerCommandsFrame : Obligations.RegisterCommandsFrame := by
  intro s t i hp hi h
  have hcbc : ¬IsCbc i := by rcases hi with rfl | rfl | rfl <;> simp [IsCbc]
  refine ⟨exec_operands hp h, exec_port hp h, fun a => by rw [exec_mem hp hcbc h], ?_, fun hne => exec_schedule hp hne h⟩
  rintro rfl
  exact exec_dout hp (by decide) (by decide) h

open Sys2Proof Sys2Proof.Machine in
/-- Settles O31: a CBC command commits no register result and stores output blocks alone. -/
theorem cbcCommandsFrame : Obligations.CbcCommandsFrame := by
  intro s t i hp hm hi h
  have hne : i ≠ .expandKey ∧ i ≠ .encryptBlock ∧ i ≠ .decryptBlock := by rcases hi with rfl | rfl <;> simp
  obtain ⟨hks, hv⟩ := exec_schedule hp hne.1 h
  have hdout := exec_dout hp hne.2.1 hne.2.2 h
  exact ⟨exec_operands hp h, exec_port hp h, ⟨hv, hks, hdout⟩, (exec_outputOnly hp hm h).outside⟩

open Sys2Proof Sys2Proof.Machine in
/-- Settles O32: neither the host's turn nor the internal steps after it write an operand register. -/
theorem onlyTheHostWritesOperands : Obligations.OnlyTheHostWritesOperands := by
  intro s t h hturn
  obtain ⟨u, n, hu, hadv⟩ := step_prepared (fun x rest hx => (hturn x rest hx).1) h
  exact (hu.operands fun x rest hx => (hturn x rest hx).2).trans (advance_operands hadv)

open Sys2Proof Sys2Proof.Machine in
/-- Settles O14: reads of the window are gated, and only `EXPAND_KEY`, which reads no schedule, is accepted. -/
theorem unexpandedScheduleIsUnobservable : Obligations.UnexpandedScheduleIsUnobservable := by
  intro s k hv
  refine ⟨readReg_withKs hv k, fun hp i t h => ?_⟩
  obtain ⟨k', hexec, hk'⟩ := exec_withKs hv hp k h
  exact ⟨_, hexec, rfl, hk'⟩

open Sys2Proof Sys2Proof.Machine in
/-- Settles O34: the host's turn leaves `KS_VALID`, and of the internal steps only the completion of `EXPAND_KEY` sets
it. -/
theorem ksValidIsSetOnlyByExpandKey : Obligations.KsValidIsSetOnlyByExpandKey := by
  intro s t hinv h hturn
  obtain ⟨u, n, hu, hadv⟩ := step_prepared hturn h
  rcases phase_cases u with hp | hp
  · rw [advance_idle hp] at hadv
    cases hadv
    have hks : KsValidBy s.key s t := .of_eq hu.ksValid
    exact ⟨hks.kept, hks.set⟩
  · have hks := advance_ksValid (hu.inv hinv) hadv
    rw [hu.key_of_busy hp] at hks
    exact ⟨fun hv => hks.kept (hu.ksValid.trans hv), fun hv => hks.set (hu.ksValid.trans hv)⟩

/-! The register window: offsets, access rights, the status word and the packing of blocks (R22, R24, R38, R39). -/

namespace Sys2Proof.Machine

/-! ### Offsets -/

/-- Bits 1:0 of an offset are ignored (R60). -/
theorem wordOffset_mod_four (off : Offset) : wordOffset off % 4 = 0 := by
  have h : (off &&& 0xFFC).toNat % 2 ^ 2 = 0 := by
    rw [BitVec.toNat_and, Nat.and_mod_two_pow]
    exact Nat.and_zero _
  exact h

theorem eq_regOffset_iff {off : Offset} {r : Reg} :
    off &&& 0xFFC = regOffset r ↔ wordOffset off = (regOffset r).toNat := BitVec.toNat_inj.symm

/-- The offset of register `m` of a bank that starts at `base` (R22). -/
theorem bankOffset_toNat {base m : Nat} (h : base + 4 * m < 2 ^ 12) :
    (BitVec.ofNat 12 (base + 4 * m)).toNat = base + 4 * m :=
  (BitVec.toNat_ofNat _ _).trans (Nat.mod_eq_of_lt h)

theorem bankOffset_of_wordOffset {base o : Nat} (h4 : o % 4 = 0) (hb : base % 4 = 0) (hle : base ≤ o) (hlt : o < 2 ^ 12) :
    o = (BitVec.ofNat 12 (base + 4 * ((o - base) / 4))).toNat := by
  rw [bankOffset_toNat (by omega)]
  omega

theorem regAt_of_wordOffset {off : Offset} {r : Reg} (h : wordOffset off = (regOffset r).toNat) :
    regAt off = some r := by
  cases r with
  | key m | iv m | din m | dout m | ks m =>
    rw [regOffset, bankOffset_toNat (by omega)] at h
    simp only [regAt, h]
    repeat rw [if_neg (by omega)]
    repeat rw [dif_neg (by omega)]
    rw [dif_pos (by omega)]
    simp only [Nat.add_sub_cancel_left, Nat.mul_div_cancel_left m.val (show 0 < 4 by decide)]
  | cmd | status | src | dst | len => simp [regAt, h, regOffset]

/-- The word offsets that are mapped (R22). -/
theorem mapped_cases {off : Offset} {r : Reg} (h : regAt off = some r) :
    wordOffset off = 0x000 ∨ wordOffset off = 0x004 ∨ wordOffset off = 0x008 ∨ wordOffset off = 0x00C ∨
      wordOffset off = 0x010 ∨ (0x020 ≤ wordOffset off ∧ wordOffset off ≤ 0x03C) ∨
      (0x040 ≤ wordOffset off ∧ wordOffset off ≤ 0x04C) ∨ (0x050 ≤ wordOffset off ∧ wordOffset off ≤ 0x05C) ∨
      (0x060 ≤ wordOffset off ∧ wordOffset off ≤ 0x06C) ∨ (0x100 ≤ wordOffset off ∧ wordOffset off ≤ 0x1EC) := by
  by_contra hn
  simp only [not_or] at hn
  obtain ⟨hcmd, hstatus, hsrc, hdst, hlen, hkey, hiv, hdin, hdout, hks⟩ := hn
  simp only [regAt] at h
  rw [if_neg hcmd, if_neg hstatus, if_neg hsrc, if_neg hdst, if_neg hlen, dif_neg hkey, dif_neg hiv, dif_neg hdin,
    dif_neg hdout, dif_neg hks] at h
  cases h

/-- A mapped word offset is the offset of some register. -/
theorem exists_regOffset {off : Offset} {r : Reg} (h : regAt off = some r) :
    ∃ r', wordOffset off = (regOffset r').toNat := by
  have h4 := wordOffset_mod_four off
  rcases mapped_cases h with h | h | h | h | h | h | h | h | h | h
  · exact ⟨.cmd, h⟩
  · exact ⟨.status, h⟩
  · exact ⟨.src, h⟩
  · exact ⟨.dst, h⟩
  · exact ⟨.len, h⟩
  · exact ⟨.key ⟨(wordOffset off - 0x020) / 4, by omega⟩, bankOffset_of_wordOffset h4 rfl h.1 (by omega)⟩
  · exact ⟨.iv ⟨(wordOffset off - 0x040) / 4, by omega⟩, bankOffset_of_wordOffset h4 rfl h.1 (by omega)⟩
  · exact ⟨.din ⟨(wordOffset off - 0x050) / 4, by omega⟩, bankOffset_of_wordOffset h4 rfl h.1 (by omega)⟩
  · exact ⟨.dout ⟨(wordOffset off - 0x060) / 4, by omega⟩, bankOffset_of_wordOffset h4 rfl h.1 (by omega)⟩
  · exact ⟨.ks ⟨(wordOffset off - 0x100) / 4, by omega⟩, bankOffset_of_wordOffset h4 rfl h.1 (by omega)⟩

theorem wordOffset_of_regAt {off : Offset} {r : Reg} (h : regAt off = some r) :
    wordOffset off = (regOffset r).toNat := by
  obtain ⟨r', hr'⟩ := exists_regOffset h
  obtain rfl : r' = r := Option.some.inj ((regAt_of_wordOffset hr').symm.trans h)
  exact hr'

/-- A register whose write is ignored while `IDLE` ignores it in both phases (R39, R65). -/
theorem writeReg_readOnly {off : Offset} {r : Reg} (hr : regAt off = some r)
    (hw : ∀ (v : Word) (u : State), writeNamed r v u = u) (v : Word) (s : State) : writeReg off v s = s := by
  rcases phase_cases s with hp | hp
  · rw [writeReg_mapped hp hr, hw]
  · simp only [writeReg, hp]

/-! ### The status word -/

/-- Bit `i` of the status word (R24). -/
theorem statusWord_bit (s : State) (i : Nat) : (statusWord s).getLsbD i =
    if i = 0 then busyBit s else if i = 1 then s.done else if i = 2 then s.ksValid else if i = 3 then false
    else s.err.getLsbD (i - 4) := by
  simp only [statusWord, BitVec.getLsbD_setWidth, BitVec.getLsbD_append]
  rcases i with _ | _ | _ | _ | i
  · simp
  · simp
  · simp
  · simp
  · by_cases h : i < 4
    · simp [show i + 1 + 1 + 1 + 1 < 32 by omega]
    · simp [BitVec.getLsbD_of_ge s.err i (by omega)]

theorem statusWord_err (s : State) : (statusWord s).extractLsb' 4 4 = s.err := by
  apply BitVec.eq_of_getLsbD_eq
  intro i hi
  simp (disch := omega) only [BitVec.getLsbD_extractLsb', statusWord_bit, if_neg, hi, decide_true, Bool.true_and,
    Nat.add_sub_cancel_left]

theorem statusWord_reserved (s : State) : (statusWord s).extractLsb' 8 24 = 0 := by
  apply BitVec.eq_of_getLsbD_eq
  intro i hi
  simp (disch := omega) only [BitVec.getLsbD_extractLsb', statusWord_bit, if_neg, BitVec.getLsbD_of_ge]
  simp

theorem busyBit_iff {s : State} : busyBit s = true ↔ s.phase = .busy := by
  rcases phase_cases s with hp | hp <;> simp [busyBit, hp]

/-! ### Packing -/

theorem byteOfWord_wordOfBytes (b0 b1 b2 b3 : Byte) :
    byteOfWord (wordOfBytes b0 b1 b2 b3) 0 = b0 ∧ byteOfWord (wordOfBytes b0 b1 b2 b3) 1 = b1 ∧
      byteOfWord (wordOfBytes b0 b1 b2 b3) 2 = b2 ∧ byteOfWord (wordOfBytes b0 b1 b2 b3) 3 = b3 := by
  simp only [byteOfWord, wordOfBytes]
  refine ⟨?_, ?_, ?_, ?_⟩
  · rw [BitVec.extractLsb'_append_eq_of_le (by decide), BitVec.extractLsb'_append_eq_of_le (by decide)]
    exact BitVec.extractLsb'_append_eq_left
  · rw [BitVec.extractLsb'_append_eq_of_le (by decide), BitVec.extractLsb'_append_eq_of_le (by decide)]
    exact BitVec.extractLsb'_append_eq_right
  · rw [BitVec.extractLsb'_append_eq_of_le (by decide)]
    exact BitVec.extractLsb'_append_eq_right
  · exact BitVec.extractLsb'_append_eq_right

theorem wordOfBytes_byteOfWord (w : Word) :
    wordOfBytes (byteOfWord w 0) (byteOfWord w 1) (byteOfWord w 2) (byteOfWord w 3) = w := by
  calc wordOfBytes (byteOfWord w 0) (byteOfWord w 1) (byteOfWord w 2) (byteOfWord w 3)
      = w.extractLsb' 16 16 ++ byteOfWord w 2 ++ byteOfWord w 3 := by
        rw [wordOfBytes]; congr 2; exact BitVec.extractLsb'_append_extractLsb'_eq_extractLsb' rfl
    _ = w.extractLsb' 8 24 ++ byteOfWord w 3 := by
        congr 1; exact BitVec.extractLsb'_append_extractLsb'_eq_extractLsb' rfl
    _ = w.extractLsb' 0 32 := BitVec.extractLsb'_append_extractLsb'_eq_extractLsb' rfl
    _ = w := BitVec.extractLsb'_eq_self

/-- Byte `4m + j` of the block four registers hold is byte `j` of register `m` (R38). -/
theorem blockOfQuad_getElem (q : Quad) {m j : Nat} (hm : m < 4) (hj : j < 4) :
    (blockOfQuad q)[4 * m + j] = byteOfWord q[m] j := by
  have hdiv : (4 * m + j) / 4 = m := by omega
  have hmod : (4 * m + j) % 4 = j := by omega
  simp only [blockOfQuad, tabulate_getElem, hdiv, hmod]

theorem quadOfBlock_blockOfQuad (q : Quad) : quadOfBlock (blockOfQuad q) = q := by
  ext m hm : 1
  have h0 : (blockOfQuad q)[4 * m] = byteOfWord q[m] 0 := blockOfQuad_getElem q hm (show 0 < 4 by decide)
  simp only [quadOfBlock, tabulate_getElem, h0, blockOfQuad_getElem q hm (show 1 < 4 by decide),
    blockOfQuad_getElem q hm (show 2 < 4 by decide), blockOfQuad_getElem q hm (show 3 < 4 by decide)]
  exact wordOfBytes_byteOfWord q[m]

theorem blockOfQuad_quadOfBlock (b : Block) : blockOfQuad (quadOfBlock b) = b := by
  ext i hi : 1
  have hdm := Nat.div_add_mod i 4
  simp only [quadOfBlock, blockOfQuad, tabulate_getElem]
  obtain ⟨h0, h1, h2, h3⟩ := byteOfWord_wordOfBytes (b[4 * (i / 4)]'(by omega)) (b[4 * (i / 4) + 1]'(by omega))
    (b[4 * (i / 4) + 2]'(by omega)) (b[4 * (i / 4) + 3]'(by omega))
  obtain hj | hj | hj | hj : i % 4 = 0 ∨ i % 4 = 1 ∨ i % 4 = 2 ∨ i % 4 = 3 := by omega
  · rw [hj, h0]; congr 1; omega
  · rw [hj, h1]; congr 1; omega
  · rw [hj, h2]; congr 1; omega
  · rw [hj, h3]; congr 1; omega

theorem toList_getD (b : Block) {i : Nat} (hi : i < 16) : b.toList.getD i 0 = b[i] := by
  simp [hi]

theorem quadOfBlock_getElem (b : Block) (m : Fin 4) :
    (quadOfBlock b)[m] = wordOfBytes (b.toList.getD (4 * m.val) 0) (b.toList.getD (4 * m.val + 1) 0)
      (b.toList.getD (4 * m.val + 2) 0) (b.toList.getD (4 * m.val + 3) 0) := by
  rw [toList_getD b (by omega), toList_getD b (by omega), toList_getD b (by omega), toList_getD b (by omega)]
  exact tabulate_getElem _ m.val m.isLt

end Sys2Proof.Machine

open Sys2Proof Sys2Proof.Machine in
/-- Settles O11, in both directions through the number of the word offset. -/
theorem offsetsSelectTheirRegisters : Obligations.OffsetsSelectTheirRegisters :=
  ⟨fun _ _ h => regAt_of_wordOffset (eq_regOffset_iff.1 h), fun _ _ h => eq_regOffset_iff.2 (wordOffset_of_regAt h)⟩

open Sys2Proof Sys2Proof.Machine in
/-- Settles O13: the packing, and both inverses. -/
theorem registersPackBigEndian : Obligations.RegistersPackBigEndian :=
  ⟨quadOfBlock_getElem, blockOfQuad_quadOfBlock, quadOfBlock_blockOfQuad⟩

open Sys2Proof Sys2Proof.Machine in
/-- Settles O10, register by register. -/
theorem wrongDirectionAccessesAreHarmless : Obligations.WrongDirectionAccessesAreHarmless := by
  intro s off v
  refine ⟨fun h => ⟨?_, writeReg_unmapped h v s⟩, fun h => ?_, fun m h => ?_, fun w h => ?_, fun h => ?_, fun m h => ?_⟩
  · simp only [readReg, h]
  · exact writeReg_readOnly h (fun _ _ => rfl) v s
  · exact writeReg_readOnly h (fun _ _ => rfl) v s
  · exact writeReg_readOnly h (fun _ _ => rfl) v s
  · simp only [readReg, h, readNamed]
  · simp only [readReg, h, readNamed]

open Sys2Proof Sys2Proof.Machine in
/-- Settles O12, bit by bit. -/
theorem statusLayout : Obligations.StatusLayout := by
  intro s
  have hdone : (statusWord s).getLsbD 1 = s.done := statusWord_bit s 1
  refine ⟨?_, hdone, statusWord_bit s 2, statusWord_bit s 3, statusWord_err s, statusWord_reserved s, hdone.symm⟩
  rw [statusWord_bit, if_pos rfl, busyBit_iff]

/-! Buffer memory: bytes and whole blocks read back (R70, R71, R76). -/

namespace Sys2Proof.Machine

/-- A block read where it was just written (R76). -/
theorem readBlock_writeBlock {m : Memory} {a : Nat} (v : Block) (h : m.wf = true) (ha : a + 16 ≤ Config.addressSpace) :
    readBlock (writeBlock m a v) a = v := by
  ext i hi : 1
  rw [readBlock_getElem, readByte_writeBlock h ha, if_pos (by omega), Nat.add_sub_cancel_left, toList_getD v hi]

/-- Blocks stored from `a` change no byte outside them. -/
theorem readByte_storeBlocks {m : Memory} {a x : Nat} {bs : List Block} (h : m.wf = true)
    (ha : a + 16 * bs.length ≤ Config.addressSpace) (hx : ¬(a ≤ x ∧ x < a + 16 * bs.length)) :
    readByte (storeBlocks m a bs) x = readByte m x := by
  induction bs generalizing m a with
  | nil => rfl
  | cons b rest ih =>
    rw [List.length_cons] at ha hx
    have hfit : a + 16 ≤ Config.addressSpace := by omega
    rw [storeBlocks, ih (writeBlock_wf h hfit) (by omega) (by omega), readByte_writeBlock h hfit, if_neg (by omega)]

/-- A block read where the bytes of two memories agree. -/
theorem readBlock_congr {m m' : Memory} {a : Nat} (h : ∀ j < 16, readByte m' (a + j) = readByte m (a + j)) :
    readBlock m' a = readBlock m a := by
  ext j hj : 1
  rw [readBlock_getElem, readBlock_getElem, h j hj]

/-- Blocks stored from `a` are read back in order (R76, R204). -/
theorem loadBlocks_storeBlocks {m : Memory} {a : Nat} {bs : List Block} (h : m.wf = true)
    (ha : a + 16 * bs.length ≤ Config.addressSpace) : loadBlocks bs.length (storeBlocks m a bs) a = bs := by
  induction bs generalizing m a with
  | nil => rfl
  | cons b rest ih =>
    rw [List.length_cons] at ha
    have hfit : a + 16 ≤ Config.addressSpace := by omega
    have hwf := writeBlock_wf (v := b) h hfit
    have hfirst : readBlock (storeBlocks (writeBlock m a b) (a + 16) rest) a = b :=
      (readBlock_congr fun j hj => readByte_storeBlocks hwf (by omega) (by omega)).trans (readBlock_writeBlock b h hfit)
    rw [List.length_cons, storeBlocks, loadBlocks, hfirst, ih hwf (by omega)]

end Sys2Proof.Machine

open Sys2Proof Sys2Proof.Machine in
/-- Settles O59: one write in canonical memory. -/
theorem memoryReadsWhatWasWritten : Obligations.MemoryReadsWhatWasWritten := by
  intro m a x b h ha
  refine ⟨?_, writeByte_wf h ha⟩
  rw [readByte_writeByte_of_wf h]
  simp only [eq_comm]

open Sys2Proof Sys2Proof.Machine in
/-- Settles O60: by induction on the blocks, each later store leaving the blocks before it. -/
theorem storedBlocksReadBack : Obligations.StoredBlocksReadBack := by
  intro m a bs h ha
  refine ⟨loadBlocks_storeBlocks h ha, fun x hx => readByte_storeBlocks h ha hx, ?_⟩
  rintro b i hi rfl
  calc readByte (storeBlocks m a [b]) (a + i) = (readBlock (writeBlock m a b) a)[i] := (readBlock_getElem _ a i hi).symm
    _ = b[i] := by rw [readBlock_writeBlock b h ha]

/-! The register port: commands, the maps of R62 and R63, writes while `BUSY`, and reads. -/

namespace Sys2Proof.Machine

/-! ### Writes to `CMD` -/

/-- The word of a command written to `CMD` runs the command, in every phase (R63, R65, R66). -/
theorem regWriteTurn_command {off : Offset} {v : Word} {i : Instr} (hoff : wordOffset off = 0) (hv : decode v = .ok i)
    (s : State) : regWriteTurn exec off v s = exec i s := by
  rw [regWriteTurn, if_pos (regAt_eq_cmd.2 hoff), hv]

/-- An illegal word written to `CMD` while `IDLE` is rejected (R94, R248). -/
theorem regWriteTurn_illegal {off : Offset} {v : Word} {s : State} (hoff : wordOffset off = 0)
    (hv : decodeOp (opField v) = none) (hp : s.phase = .idle) :
    regWriteTurn exec off v s = .next (reject .opcode s) := by
  rw [regWriteTurn, if_pos (regAt_eq_cmd.2 hoff), decode_of_illegal hv]
  exact execIllegal_idle hp hv

/-- A write to any other offset while `IDLE` is the register write (R63). -/
theorem regWriteTurn_register {off : Offset} {s : State} (hoff : wordOffset off ≠ 0) (hp : s.phase = .idle) (v : Word) :
    regWriteTurn exec off v s = .next (writeReg off v s) := by
  rw [regWriteTurn, if_neg (mt regAt_eq_cmd.1 hoff)]
  exact advance_idle ((writeReg_frame off v s).1.trans hp) _

theorem decodeTableWord_eq_some {nbits w : Nat} {i : Instr} (h : decodeTableWord nbits w = some i) :
    decode (tableWord nbits w) = .ok i := by
  unfold decodeTableWord at h
  split at h
  · next hd => cases h; exact hd
  · cases h

/-! ### The banks of the register window -/

theorem regAt_key {off : Offset} (h : 0x020 ≤ wordOffset off ∧ wordOffset off ≤ 0x03C) :
    regAt off = some (.key ⟨(wordOffset off - 0x020) / 4, by omega⟩) :=
  regAt_of_wordOffset (bankOffset_of_wordOffset (wordOffset_mod_four off) rfl h.1 (by omega))

theorem regAt_iv {off : Offset} (h : 0x040 ≤ wordOffset off ∧ wordOffset off ≤ 0x04C) :
    regAt off = some (.iv ⟨(wordOffset off - 0x040) / 4, by omega⟩) :=
  regAt_of_wordOffset (bankOffset_of_wordOffset (wordOffset_mod_four off) rfl h.1 (by omega))

theorem regAt_din {off : Offset} (h : 0x050 ≤ wordOffset off ∧ wordOffset off ≤ 0x05C) :
    regAt off = some (.din ⟨(wordOffset off - 0x050) / 4, by omega⟩) :=
  regAt_of_wordOffset (bankOffset_of_wordOffset (wordOffset_mod_four off) rfl h.1 (by omega))

theorem regAt_dout {off : Offset} (h : 0x060 ≤ wordOffset off ∧ wordOffset off ≤ 0x06C) :
    regAt off = some (.dout ⟨(wordOffset off - 0x060) / 4, by omega⟩) :=
  regAt_of_wordOffset (bankOffset_of_wordOffset (wordOffset_mod_four off) rfl h.1 (by omega))

theorem regAt_ks {off : Offset} (h : 0x100 ≤ wordOffset off ∧ wordOffset off ≤ 0x1EC) :
    regAt off = some (.ks ⟨(wordOffset off - 0x100) / 4, by omega⟩) :=
  regAt_of_wordOffset (bankOffset_of_wordOffset (wordOffset_mod_four off) rfl h.1 (by omega))

theorem readReg_mapped {off : Offset} {r : Reg} (hr : regAt off = some r) (s : State) :
    readReg off s = readNamed r s := by
  simp only [readReg, hr]

theorem toList_getD_of_lt {n : Nat} (q : Vector Word n) {m : Nat} (hm : m < n) : q.toList.getD m 0 = q[m] := by
  simp [hm]

theorem setIfInBounds_eq_set {n : Nat} (q : Vector Word n) {m : Nat} (hm : m < n) (v : Word) :
    q.setIfInBounds m v = q.set m v := by
  ext i hi : 1
  rw [Vector.getElem_setIfInBounds hi, Vector.getElem_set hm hi]

/-- Word `w` of the KS window is four bytes of the store (R37, R38). -/
theorem wordOfBytes_ksByte (ks : KeySchedule) {w : Nat} (hw : w < 60) :
    wordOfBytes (ksByte ks (4 * w)) (ksByte ks (4 * w + 1)) (ksByte ks (4 * w + 2)) (ksByte ks (4 * w + 3)) = ks[w] := by
  have hbyte : ∀ j < 4, ksByte ks (4 * w + j) = byteOfWord ks[w] j := by
    intro j hj
    rw [ksByte, show (4 * w + j) / 4 = w by omega, show (4 * w + j) % 4 = j by omega, toList_getD_of_lt ks hw]
  rw [hbyte 1 (by decide), hbyte 2 (by decide), hbyte 3 (by decide), show ksByte ks (4 * w) = _ from hbyte 0 (by decide)]
  exact wordOfBytes_byteOfWord ks[w]

/-- Unmapped offsets and write-only registers read 0 (R39). -/
theorem readReg_zero {off : Offset} (s : State)
    (h : regAt off = none ∨ regAt off = some .cmd ∨ ∃ m, regAt off = some (.key m)) : readReg off s = 0 := by
  rcases h with h | h | ⟨m, h⟩ <;> simp only [readReg, h, readNamed]

end Sys2Proof.Machine

open Sys2Proof Sys2Proof.Machine in
/-- Settles O4: the turn's word is decoded where it selects `CMD`, and `withFetchWord` makes such a turn. -/
theorem stepRunsDecodedCommand : Obligations.StepRunsDecodedCommand := by
  refine ⟨fun s rest off v n i hs hoff hv => ?_, fun s w i hw => ?_⟩
  · rw [step_plain hs]
    exact regWriteTurn_command (wordOffset_eq_zero.2 hoff) hv _
  · rw [step_plain (s := s.withFetchWord 32 w) rfl]
    exact regWriteTurn_command rfl (decodeTableWord_eq_some hw) s

open Sys2Proof Sys2Proof.Machine in
/-- Settles O6, branch by branch: each names the register the offset selects. -/
theorem registerReadMap : Obligations.RegisterReadMap := by
  intro s off o
  have ho : o = wordOffset off := rfl
  split_ifs with hstatus hsrc hdst hlen hiv hdin hdout hks hvalid
  · exact readReg_mapped (regAt_of_wordOffset (r := .status) hstatus) s
  · exact readReg_mapped (regAt_of_wordOffset (r := .src) hsrc) s
  · exact readReg_mapped (regAt_of_wordOffset (r := .dst) hdst) s
  · exact readReg_mapped (regAt_of_wordOffset (r := .len) hlen) s
  · exact (readReg_mapped (regAt_iv hiv) s).trans (toList_getD_of_lt _ (by omega)).symm
  · exact (readReg_mapped (regAt_din hdin) s).trans (toList_getD_of_lt _ (by omega)).symm
  · exact (readReg_mapped (regAt_dout hdout) s).trans (toList_getD_of_lt _ (by omega)).symm
  · rw [statusWord_bit] at hvalid
    rw [readReg_mapped (regAt_ks hks), wordOfBytes_ksByte _ (by omega)]
    exact if_pos hvalid
  · rw [statusWord_bit] at hvalid
    rw [readReg_mapped (regAt_ks hks)]
    exact if_neg hvalid
  · apply readReg_zero
    cases hr : regAt off with
    | none => exact .inl rfl
    | some r =>
      have hoff := wordOffset_of_regAt hr
      cases r with
      | cmd => exact .inr (.inl rfl)
      | key m => exact .inr (.inr ⟨m, rfl⟩)
      | status => exact absurd hoff hstatus
      | src => exact absurd hoff hsrc
      | dst => exact absurd hoff hdst
      | len => exact absurd hoff hlen
      | iv m | din m | dout m | ks m => rw [regOffset, bankOffset_toNat (by omega)] at hoff; omega

open Sys2Proof Sys2Proof.Machine in
/-- Settles O7, branch by branch: each names the register the offset selects. -/
theorem registerWriteMap : Obligations.RegisterWriteMap := by
  intro s rest off v n hp hs u o
  have ho : o = wordOffset off := rfl
  have hu : u.phase = .idle := hp
  have hstep : step s = regWriteTurn exec off v u := step_plain hs
  rw [hstep]
  by_cases hcmd : o = 0x000
  · rw [if_pos hcmd]
    cases hop : decodeOp (v.extractLsb' 0 4) with
    | some i => exact regWriteTurn_command hcmd (decode_of_op hop) u
    | none => exact regWriteTurn_illegal hcmd hop hu
  rw [if_neg hcmd, regWriteTurn_register hcmd hu]
  split_ifs with hsrc hdst hlen hkey hiv hdin
  · rw [writeReg_mapped hu (regAt_of_wordOffset (r := .src) hsrc)]; rfl
  · rw [writeReg_mapped hu (regAt_of_wordOffset (r := .dst) hdst)]; rfl
  · rw [writeReg_mapped hu (regAt_of_wordOffset (r := .len) hlen)]; rfl
  · rw [writeReg_mapped hu (regAt_key hkey), setIfInBounds_eq_set _ (by omega)]; rfl
  · rw [writeReg_mapped hu (regAt_iv hiv), setIfInBounds_eq_set _ (by omega)]; rfl
  · rw [writeReg_mapped hu (regAt_din hdin), setIfInBounds_eq_set _ (by omega)]; rfl
  · congr 1
    cases hr : regAt off with
    | none => exact writeReg_unmapped hr v u
    | some r =>
      have hoff := wordOffset_of_regAt hr
      rw [writeReg_mapped hu hr]
      cases r with
      | cmd | status | dout m | ks m => rfl
      | src => exact absurd hoff hsrc
      | dst => exact absurd hoff hdst
      | len => exact absurd hoff hlen
      | key m | iv m | din m => rw [regOffset, bankOffset_toNat (by omega)] at hoff; omega

open Sys2Proof Sys2Proof.Machine in
/-- Settles O8: a write while `BUSY` leaves the core the internal steps of its turn, and so does a quiet turn. -/
theorem busyWritesAreIgnored : Obligations.BusyWritesAreIgnored := by
  refine ⟨fun s rest off v n hb hs => ?_, fun s i hb => ?_⟩
  · rw [step_plain hs, step_plain (s := { s with turns := ⟨false, .quiet, n⟩ :: rest }) rfl]
    exact regWriteTurn_busy (s := { s with turns := rest, moves := n }) hb off v
  · rw [exec_eq_issue, issue_busy hb]

/-! The internal step the CBC commands share, beside `moveBlock` of the block commands. -/

namespace Sys2Proof.Machine

/-- The internal step that the two CBC commands share: how the block is loaded, the rounds of its transform, the block
written, and the chaining value and saved block then (R205, R207, R208). -/
def moveCbc (load : Block → Internal → Internal) (f : KeySchedule → Nat → Block → Block) (out cv' saved' : Block)
    (s : State) : Result :=
  match s.int.stage with
  | .read => cbcRead load s
  | .round => roundMove f .write s
  | .write => cbcWrite out cv' saved' s
  | .finish => .next (complete s)
  | .expand => .fault .internalInvariant

theorem moveOf_cbcEncrypt (s : State) :
    moveOf .cbcEncrypt s = moveCbc loadCbcEncrypt encRound s.int.work s.int.work s.int.saved s := rfl
theorem moveOf_cbcDecrypt (s : State) :
    moveOf .cbcDecrypt s =
      moveCbc loadCbcDecrypt decRound (xorBlock s.int.work s.int.cv) s.int.saved (staleSaved s) s := rfl

theorem moveOf_cbc {i : Instr} (hi : IsCbc i) (s : State) :
    ∃ load f out cv' saved', moveOf i s = moveCbc load f out cv' saved' s := by
  rcases hi with rfl | rfl
  · exact ⟨_, _, _, _, _, moveOf_cbcEncrypt s⟩
  · exact ⟨_, _, _, _, _, moveOf_cbcDecrypt s⟩

end Sys2Proof.Machine

/-! What the read latch holds reaches no internal step (R61; log 13). -/

namespace Sys2Proof.Machine

/-- An outcome in whose next state the port's read data is `d`. -/
def latched (d : Word) (r : Result) : Result := andThen r fun t => .next { t with readData := d }

@[simp] theorem latched_next (d : Word) (t : State) : latched d (.next t) = .next { t with readData := d } := rfl
@[simp] theorem latched_fault (d : Word) (e : Fault) : latched d (.fault e) = .fault e := rfl
@[simp] theorem latched_refused (d : Word) (e : Refusal) : latched d (.refused e) = .refused e := rfl

theorem roundMove_latched (f : KeySchedule → Nat → Block → Block) (after : Stage) (s : State) (d : Word) :
    roundMove f after { s with readData := d } = latched d (roundMove f after s) := by
  simp only [roundMove]
  split
  · rfl
  · split <;> rfl

theorem expandMove_latched (s : State) (d : Word) :
    expandMove { s with readData := d } = latched d (expandMove s) := by
  simp only [expandMove]
  split <;> rfl

theorem cbcRead_latched (load : Block → Internal → Internal) (s : State) (d : Word) :
    cbcRead load { s with readData := d } = latched d (cbcRead load s) := by
  have hadm : ∀ a, blockAdmitted { s with readData := d } a = blockAdmitted s a := fun _ => rfl
  have hn : blockCount { s with readData := d } = blockCount s := rfl
  have hsrc : ∀ k, srcAddr { s with readData := d } k = srcAddr s k := fun _ => rfl
  simp only [cbcRead, hadm, hn, hsrc]
  split
  · split <;> rfl
  · rfl

theorem cbcWrite_latched (out cv' saved' : Block) (s : State) (d : Word) :
    cbcWrite out cv' saved' { s with readData := d } = latched d (cbcWrite out cv' saved' s) := by
  have hadm : ∀ a, blockAdmitted { s with readData := d } a = blockAdmitted s a := fun _ => rfl
  have hn : blockCount { s with readData := d } = blockCount s := rfl
  have hdst : ∀ k, dstAddr { s with readData := d } k = dstAddr s k := fun _ => rfl
  simp only [cbcWrite, hadm, hn, hdst]
  split
  · split <;> rfl
  · rfl

theorem moveBlock_latched (f : KeySchedule → Nat → Block → Block) (s : State) (d : Word) :
    moveBlock f { s with readData := d } = latched d (moveBlock f s) := by
  simp only [moveBlock]
  split
  case h_1 => exact roundMove_latched f .finish s d
  all_goals rfl

theorem moveCbc_latched (load : Block → Internal → Internal) (f : KeySchedule → Nat → Block → Block)
    (out cv' saved' : Block) (s : State) (d : Word) :
    moveCbc load f out cv' saved' { s with readData := d } = latched d (moveCbc load f out cv' saved' s) := by
  simp only [moveCbc]
  split
  case h_1 => exact cbcRead_latched load s d
  case h_2 => exact roundMove_latched f .write s d
  case h_3 => exact cbcWrite_latched out cv' saved' s d
  all_goals rfl

theorem moveOf_latched (i : Instr) (s : State) (d : Word) :
    moveOf i { s with readData := d } = latched d (moveOf i s) := by
  cases i with
  | expandKey =>
    simp only [moveOf, moveExpandKey]
    split
    case h_1 => exact expandMove_latched s d
    all_goals rfl
  | encryptBlock => exact moveBlock_latched encRound s d
  | decryptBlock => exact moveBlock_latched decRound s d
  | cbcEncrypt => exact moveCbc_latched loadCbcEncrypt encRound _ _ _ s d
  | cbcDecrypt => exact moveCbc_latched loadCbcDecrypt decRound _ _ _ s d

theorem coreMove_latched (s : State) (d : Word) :
    coreMove { s with readData := d } = latched d (coreMove s) := by
  simp only [coreMove]
  split
  case h_1 => rfl
  case h_2 i _ _ => exact moveOf_latched i s d
  case h_3 => rfl

theorem advance_latched (n : Nat) (s : State) (d : Word) :
    advance n { s with readData := d } = latched d (advance n s) := by
  induction n generalizing s with
  | zero => rfl
  | succ n ih =>
    rcases phase_cases s with hp | hp
    · rw [advance_idle hp, advance_idle (s := { s with readData := d }) hp, latched_next]
    · rw [advance_busy hp, advance_busy (s := { s with readData := d }) hp, coreMove_latched]
      cases coreMove s with
      | next t => exact ih t
      | fault e => rfl
      | refused e => rfl

end Sys2Proof.Machine

open Sys2Proof Sys2Proof.Machine in
/-- Settles O9: the turn writes the latch alone, and the core's progress is the same whatever the latch holds. -/
theorem readsHaveNoSideEffect : Obligations.ReadsHaveNoSideEffect := by
  intro s rest off n hs
  have hread : step s = latched (readReg off s) (advance n { s with turns := rest, moves := n }) := by
    rw [step_plain hs]
    exact advance_latched n { s with turns := rest, moves := n } (readReg off s)
  have hquiet : step { s with turns := ⟨false, .quiet, n⟩ :: rest } = advance n { s with turns := rest, moves := n } :=
    step_plain (s := { s with turns := ⟨false, .quiet, n⟩ :: rest }) rfl
  rw [hread, hquiet]
  cases advance n { s with turns := rest, moves := n } <;> rfl

/-! Acceptance, completion and the destination range (R66, R68, R72). -/

open Sys2Proof Sys2Proof.Machine in
/-- Settles O18: the core makes no internal step, so the state is the one the command starts in. -/
theorem acceptanceStartsTheCommand : Obligations.AcceptanceStartsTheCommand := by
  intro s i hp hm hc
  have hexec : exec i s = .next (startOf i (accepted (opcode i) s)) := by
    rw [exec_eq_issue, issue_accepted hp hc, hm]
    rfl
  rw [hexec]
  refine ⟨(startOf i (accepted (opcode i) s)).int, startOf_curOp i _, ?_, ?_⟩
  · rintro (rfl | rfl) <;> exact ⟨rfl, rfl⟩
  · cases i <;> rfl

namespace Sys2Proof.Machine

/-- A block transform on track that is about to complete has the whole result (R171, R172). -/
theorem transform_complete {f : KeySchedule → Nat → Block → Block} {whole : KeySchedule → Block → Block}
    {b : Block} {s : State} (h : transformOk f whole .finish b s = true) (hs : s.int.stage = .finish) :
    s.int.work = whole s.ks b :=
  ((transformOk_after (by simp [hs])).1 h).2

end Sys2Proof.Machine

open Sys2Proof Sys2Proof.Machine in
/-- Settles O29: only the completion step clears `BUSY`, and on track it holds the result of its command. -/
theorem completionCommitsAtOnce : Obligations.CompletionCommitsAtOnce := by
  intro s t i hinv hb hop hc
  obtain ⟨i', hr⟩ := hinv.running hb
  obtain rfl : i' = i := Option.some.inj (hr.curOp.symm.trans hop)
  rw [coreMove_busy hb hop] at hc
  cases moveOf_movedBy hc with
  | internal => exact .inl ⟨hb, hr.done, hr.err, rfl, rfl, rfl⟩
  | store => exact .inl ⟨hb, hr.done, hr.err, rfl, rfl, rfl⟩
  | done hs =>
    have hcommand := hr.command
    have herr := hr.err
    refine .inr ?_
    cases i' with
    | expandKey => exact ⟨rfl, rfl, herr, schedule_complete hcommand hs, rfl, rfl⟩
    | encryptBlock => exact ⟨rfl, rfl, herr, congrArg quadOfBlock (transform_complete hcommand hs), rfl, rfl⟩
    | decryptBlock => exact ⟨rfl, rfl, herr, congrArg quadOfBlock (transform_complete hcommand hs), rfl, rfl⟩
    | cbcEncrypt => exact ⟨rfl, rfl, herr, rfl, rfl, rfl⟩
    | cbcDecrypt => exact ⟨rfl, rfl, herr, rfl, rfl, rfl⟩

namespace Sys2Proof.Machine

/-- The core's progress writes no byte outside `[DST, DST+LEN)` (R72). -/
theorem advance_readByte {n a : Nat} {s t : State} (h : advance n s = .next t) (hm : s.mem.wf = true)
    (ha : inRange a s.dst.toNat s.len.toNat = false) : readByte t.mem a = readByte s.mem a := by
  have hrun := advance_induction
    (P := fun u => u.mem.wf = true ∧ OperandsKept s u ∧ readByte u.mem a = readByte s.mem a)
    (fun u v _ ⟨hwf, hk, hu⟩ hc => by
      have hmv := coreMove_moved hc
      exact ⟨hmv.memory hwf, hk.trans hmv.operands, (hmv.readByte hwf (by rw [hk.dst, hk.len]; exact ha)).trans hu⟩)
    ⟨hm, .refl s, rfl⟩ h
  exact hrun.2.2

theorem writeReg_mem (off : Offset) (v : Word) (s : State) : (writeReg off v s).mem = s.mem := by
  unfold writeReg
  split
  · rfl
  · next r _ _ => exact (writeNamed_frame r v s).2.2.1
  · rfl

/-- A byte outside the destination range is in no output block (R204). -/
theorem outsideOutput_of_inRange {s : State} {a : Nat} (ha : inRange a s.dst.toNat s.len.toNat = false) :
    OutsideOutput s a := by
  intro k hk
  have hle := blockCount_le s
  simp only [inRange, Bool.and_eq_false_iff, decide_eq_false_iff_not] at ha
  simp only [dstAddr]
  omega

theorem regWriteTurn_readByte {s t : State} {off : Offset} {v : Word} {a : Nat} (h : regWriteTurn exec off v s = .next t)
    (hm : s.mem.wf = true) (ha : inRange a s.dst.toNat s.len.toNat = false) :
    readByte t.mem a = readByte s.mem a := by
  rcases phase_cases s with hp | hp
  · by_cases hoff : wordOffset off = 0
    · cases hop : decodeOp (opField v) with
      | some i =>
        rw [regWriteTurn_command hoff (decode_of_op hop)] at h
        exact (exec_outputOnly hp hm h).outside a (outsideOutput_of_inRange ha)
      | none => rw [regWriteTurn_illegal hoff hop hp] at h; cases h; rfl
    · rw [regWriteTurn_register hoff hp] at h
      cases h
      rw [writeReg_mem]
  · rw [regWriteTurn_busy hp] at h
    exact advance_readByte h hm ha

/-- A turn without reset that is no host write leaves every byte outside the destination range (R72). -/
theorem plainTurn_readByte {act : HostAct} {s t : State} {a : Nat} (h : plainTurn exec act s = .next t)
    (hact : ∀ x b, act ≠ .memWrite x b) (hm : s.mem.wf = true) (ha : inRange a s.dst.toNat s.len.toNat = false) :
    readByte t.mem a = readByte s.mem a := by
  cases act with
  | quiet => exact advance_readByte h hm ha
  | regRead off => exact advance_readByte (s := { s with readData := readReg off s }) h hm ha
  | regWrite off v => exact regWriteTurn_readByte h hm ha
  | poll off mask value =>
    simp only [plainTurn, pollRead] at h
    split at h
    · have hrun := advance_readByte h hm ha
      exact hrun
    · have hrun := advance_readByte h hm ha
      exact hrun
  | memRead x =>
    simp only [plainTurn] at h
    exact advance_readByte (s := { s with hostByte := readByte s.mem x.toNat }) (hostMemRead_next h) hm ha
  | memWrite x b => exact absurd rfl (hact x b)

end Sys2Proof.Machine

open Sys2Proof Sys2Proof.Machine in
/-- Settles O33: no host turn but a memory write touches memory, and internal steps write output blocks alone. -/
theorem stepsWriteOnlyTheDestination : Obligations.StepsWriteOnlyTheDestination := by
  intro s t hm h hturn a ha
  cases hs : s.turns with
  | nil =>
    rw [step_no_turn hs] at h
    exact (coreMove_moved h).readByte hm ha
  | cons x rest =>
    obtain ⟨rst, act, n⟩ := x
    obtain ⟨rfl, hact⟩ : rst = false ∧ ∀ y b, act ≠ .memWrite y b := hturn _ _ hs
    rw [step_plain hs] at h
    exact plainTurn_readByte (s := { s with turns := rest, moves := n }) h hact hm ha

/-! Which steps are refused, and a core that waits on an unbacked address (R75, R80, R282). -/

namespace Sys2Proof.Machine

/-- The CBC command in progress makes a request next that touches an unbacked address (R75). -/
def RequestUnbacked (s : State) : Prop :=
  (s.int.stage = .read ∧ ∃ j < 16, admitted s (srcAddr s s.int.blockIndex + j) = false) ∨
    (s.int.stage = .write ∧ ∃ j < 16, admitted s (dstAddr s s.int.blockIndex + j) = false)

theorem blockAdmitted_false {s : State} {a : Nat} (h : ∃ j < 16, admitted s (a + j) = false) :
    ¬blockAdmitted s a = true := by
  obtain ⟨j, hj, hf⟩ := h
  intro ha
  rw [blockAdmitted_byte ha hj] at hf
  cases hf

theorem moveCbc_stuck {load : Block → Internal → Internal} {f : KeySchedule → Nat → Block → Block}
    {out cv' saved' : Block} {s : State} (hk : s.int.blockIndex < blockCount s) (h : RequestUnbacked s) :
    moveCbc load f out cv' saved' s = .next s := by
  rcases h with ⟨hs, hj⟩ | ⟨hs, hj⟩
  · simp only [moveCbc, hs, cbcRead, if_pos hk, if_neg (blockAdmitted_false hj)]
  · simp only [moveCbc, hs, cbcWrite, if_pos hk, if_neg (blockAdmitted_false hj)]

/-- An internal step that changes nothing changes nothing however often it is made. -/
theorem advance_stuck {s : State} (h : coreMove s = .next s) (n : Nat) : advance n s = .next s := by
  induction n with
  | zero => rfl
  | succ n ih =>
    rcases phase_cases s with hp | hp
    · exact advance_idle hp _
    · rw [advance_busy hp, h, andThen_next, ih]

/-- A race is an access to either range of a CBC command in progress (R80 (5)). -/
theorem hostRace_iff {s : State} {a : Nat} : hostRace s a = true ↔
    s.phase = .busy ∧ (decodeOp s.int.curOp = some .cbcEncrypt ∨ decodeOp s.int.curOp = some .cbcDecrypt) ∧
      (inRange a s.src.toNat s.len.toNat = true ∨ inRange a s.dst.toNat s.len.toNat = true) := by
  simp only [hostRace, cbcBusy, Bool.and_eq_true, Bool.or_eq_true, decide_eq_true_eq, busyBit_iff, and_assoc]

/-- What makes no buffer race refuses nothing. -/
def NeverRefuses (go : State → Result) : Prop := ∀ u r, go u ≠ .refused r

theorem neverRefuses_advance : NeverRefuses fun t => advance t.moves t := fun t => advance_ne_refused t.moves t

theorem neverRefuses_reset : NeverRefuses fun t => .next (resetCore t) := fun _ _ h => by cases h

theorem hostMemRead_refused {a : Address} {s : State} {go : State → Result} (hgo : NeverRefuses go) :
    hostMemRead a s go = .refused .bufferRace ↔ hostRace s a.toNat = true := by
  simp only [hostMemRead]
  split
  · next hr => simp [hr]
  · next hr =>
    split
    · simp [hr, hgo _ _]
    · simp [hr]

theorem hostMemWrite_refused {a : Address} {b : Byte} {s : State} {go : State → Result} (hgo : NeverRefuses go) :
    hostMemWrite a b s go = .refused .bufferRace ↔ hostRace s a.toNat = true := by
  simp only [hostMemWrite]
  split
  · next hr => simp [hr]
  · next hr =>
    split
    · simp [hr, hgo _ _]
    · simp [hr]

theorem issue_ne_refused (op : BitVec 4) (start : State → State) (s : State) (r : Refusal) :
    issue op start s ≠ .refused r := by
  rcases phase_cases s with hp | hp
  · cases hc : check op s with
    | some e => rw [issue_rejected hp hc]; simp
    | none => rw [issue_accepted hp hc]; exact advance_ne_refused _ _ r
  · rw [issue_busy hp]
    exact advance_ne_refused _ _ r

theorem regWriteTurn_ne_refused (off : Offset) (v : Word) (s : State) (r : Refusal) :
    regWriteTurn exec off v s ≠ .refused r := by
  unfold regWriteTurn
  split
  · split
    · rw [exec_eq_issue]
      exact issue_ne_refused _ _ s r
    · exact issue_ne_refused _ _ s r
  · exact advance_ne_refused _ _ r

/-- The host turn reads or writes byte `a` of buffer memory. -/
def Touches (act : HostAct) (a : Address) : Prop := act = .memRead a ∨ ∃ b, act = .memWrite a b

/-- The host turn touches a byte of a running CBC command's buffer. -/
def Races (s : State) (act : HostAct) : Prop := ∃ a, Touches act a ∧ hostRace s a.toNat = true

theorem races_memRead {s : State} {a : Address} : Races s (.memRead a) ↔ hostRace s a.toNat = true := by
  simp [Races, Touches]

theorem races_memWrite {s : State} {a : Address} {b : Byte} :
    Races s (.memWrite a b) ↔ hostRace s a.toNat = true := by
  simp [Races, Touches]

theorem not_races {s : State} {act : HostAct} (h : ∀ a, ¬Touches act a) : ¬Races s act :=
  fun ⟨a, ha, _⟩ => h a ha

theorem plainTurn_refused {act : HostAct} {s : State} :
    plainTurn exec act s = .refused .bufferRace ↔ Races s act := by
  cases act with
  | memRead a => exact (hostMemRead_refused neverRefuses_advance).trans races_memRead.symm
  | memWrite a b => exact (hostMemWrite_refused neverRefuses_advance).trans races_memWrite.symm
  | regWrite off v => exact iff_of_false (regWriteTurn_ne_refused off v s _) (not_races (by simp [Touches]))
  | quiet | regRead off | poll off mask value =>
    exact iff_of_false (advance_ne_refused _ _ _) (not_races (by simp [Touches]))

theorem resetTurn_refused {act : HostAct} {s : State} :
    resetTurn act s = .refused .bufferRace ↔ Races s act := by
  cases act with
  | memRead a => exact (hostMemRead_refused neverRefuses_reset).trans races_memRead.symm
  | memWrite a b => exact (hostMemWrite_refused neverRefuses_reset).trans races_memWrite.symm
  | quiet | regRead off | regWrite off v | poll off mask value =>
    exact iff_of_false (by simp [resetTurn]) (not_races (by simp [Touches]))

/-- A step is refused as a race exactly when the host's next turn races (R80 (5), U7). -/
theorem step_refused {s : State} : step s = .refused .bufferRace ↔
    ∃ turn rest, s.turns = turn :: rest ∧ Races s turn.act := by
  cases hs : s.turns with
  | nil =>
    rw [step_no_turn hs]
    exact iff_of_false (coreMove_ne_refused s _) (by simp)
  | cons x rest =>
    obtain ⟨rst, act, n⟩ := x
    have hturn : step s = .refused .bufferRace ↔ Races s act := by
      cases rst with
      | false => rw [step_plain hs]; exact plainTurn_refused
      | true => rw [step_reset hs]; exact resetTurn_refused
    rw [hturn]
    simp

end Sys2Proof.Machine

open Sys2Proof Sys2Proof.Machine in
/-- Settles O39: the next internal step, and so any number of them, changes nothing. -/
theorem unbackedRequestIsStuck : Obligations.UnbackedRequestIsStuck := by
  intro s i hb hop hi hk hreq n
  obtain ⟨load, f, out, cv', saved', hmove⟩ := moveOf_cbc hi s
  refine advance_stuck ?_ n
  rw [coreMove_busy hb hop, hmove, moveCbc_stuck hk hreq]

open Sys2Proof Sys2Proof.Machine in
/-- Settles O40, turn by turn. -/
theorem bufferRaceIsRefused : Obligations.BufferRaceIsRefused := by
  intro s
  rw [step_refused]
  constructor
  · rintro ⟨turn, rest, hs, a, hact, hrace⟩
    obtain ⟨hb, hop, hin⟩ := hostRace_iff.1 hrace
    exact ⟨hb, hop, turn, rest, a, hs, hact, hin⟩
  · rintro ⟨hb, hop, turn, rest, a, hs, hact, hin⟩
    exact ⟨turn, rest, hs, a, hact, hostRace_iff.2 ⟨hb, hop, hin⟩⟩

/-! Progress: each internal step of a running command on backed addresses brings its completion one step nearer (R67,
R290, R291). -/

namespace Sys2Proof.Machine

/-! ### The count of internal steps left, command by command -/

theorem movesLeft_idle {s : State} (hp : s.phase = .idle) : movesLeft s = 0 := by
  simp only [movesLeft, hp]

theorem movesLeft_expandKey {s : State} (hb : s.phase = .busy) (hop : decodeOp s.int.curOp = some .expandKey) :
    movesLeft s = 61 - s.int.sched.length := by
  simp only [movesLeft, hb, hop]

/-- The two block commands. -/
def IsBlock (i : Instr) : Prop := i = .encryptBlock ∨ i = .decryptBlock

theorem movesLeft_block {i : Instr} (hi : IsBlock i) {s : State} (hb : s.phase = .busy)
    (hop : decodeOp s.int.curOp = some i) :
    movesLeft s = if s.int.stage = .round then 16 - s.int.round else 1 := by
  rcases hi with rfl | rfl <;> simp only [movesLeft, hb, hop]

theorem movesLeft_cbc {i : Instr} (hi : IsCbc i) {s : State} (hb : s.phase = .busy)
    (hop : decodeOp s.int.curOp = some i) : movesLeft s = movesLeft.cbcMovesLeft s := by
  rcases hi with rfl | rfl <;> simp only [movesLeft, hb, hop]

/-! ### One internal step -/

/-- The internal step answers a state one step nearer to completion. -/
def StepsNearer (s : State) (r : Result) : Prop := ∃ t, r = .next t ∧ movesLeft s = movesLeft t + 1

/-- The completion step is the last. -/
theorem complete_nearer {s u : State} (h : movesLeft s = 1) : StepsNearer s (.next (complete u)) :=
  ⟨_, rfl, by rw [h, movesLeft_idle (complete_phase u)]⟩

theorem roundMove_answers {s : State} (hr : s.int.round ≤ 14) (f : KeySchedule → Nat → Block → Block) (after : Stage) :
    ∃ t, roundMove f after s = .next t := by
  simp only [roundMove]
  split
  · exact ⟨_, rfl⟩
  · rw [if_pos (by omega)]
    exact ⟨_, rfl⟩

/-- After a round the command is still running. -/
theorem roundMove_running {f : KeySchedule → Nat → Block → Block} {after : Stage} {s t : State} {i : Instr}
    (h : roundMove f after s = .next t) (hb : s.phase = .busy) (hop : decodeOp s.int.curOp = some i) :
    t.phase = .busy ∧ decodeOp t.int.curOp = some i := by
  have htb := (roundMove_phase h).1.trans hb
  exact ⟨htb, (roundMove_moved h).curOp htb ▸ hop⟩

theorem moveExpandKey_nearer {s : State} (hb : s.phase = .busy) (hop : decodeOp s.int.curOp = some .expandKey)
    (h : expandOk s = true) : StepsNearer s (moveExpandKey s) := by
  obtain ⟨⟨h8, h60⟩, hrc, -, hstage⟩ := expandOk_iff.1 h
  by_cases hn : s.int.sched.length = 60
  · rw [if_pos hn] at hstage
    simp only [moveExpandKey, hstage]
    exact complete_nearer (by rw [movesLeft_expandKey hb hop, hn])
  · rw [if_neg hn] at hstage
    have hrcon : 4 * s.int.sched.length % 32 = 0 → rconDefined s.int.rcon = true := by
      intro h32
      rw [rconDefined, hrc]
      exact decide_eq_true (by omega)
    simp only [moveExpandKey, hstage, expandMove]
    rw [if_pos ⟨h8, by omega, hrcon⟩]
    refine ⟨_, rfl, ?_⟩
    rw [movesLeft_expandKey hb hop, movesLeft_expandKey]
    · simp only [wordStep, List.length_cons]
      omega
    · exact hb
    · exact hop

theorem moveBlock_nearer {i : Instr} (hi : IsBlock i) {f : KeySchedule → Nat → Block → Block}
    {whole : KeySchedule → Block → Block} {b : Block} {s : State} (hb : s.phase = .busy)
    (hop : decodeOp s.int.curOp = some i) (h : transformOk f whole .finish b s = true) :
    StepsNearer s (moveBlock f s) := by
  by_cases hs : s.int.stage = .round
  · obtain ⟨hr, -⟩ := (transformOk_round hs).1 h
    obtain ⟨t, ht⟩ := roundMove_answers hr f .finish
    obtain ⟨htb, htop⟩ := roundMove_running ht hb hop
    refine ⟨t, by simp only [moveBlock, hs, ht], ?_⟩
    rw [movesLeft_block hi hb hop, movesLeft_block hi htb htop, if_pos hs]
    rcases roundMove_next ht with ⟨hlt, rfl⟩ | ⟨h14, rfl⟩
    · rw [if_pos (by exact hs)]
      simp only []
      omega
    · rw [if_neg (by simp)]
      omega
  · have hfinish := ((transformOk_after hs).1 h).1
    simp only [moveBlock, hfinish]
    exact complete_nearer (by rw [movesLeft_block hi hb hop, if_neg hs])

/-- Where a CBC command on track stands, whatever its data (R44, R205). -/
inductive CbcPlace (s : State) : Prop
  | read (hs : s.int.stage = .read) (hk : s.int.blockIndex < blockCount s)
  | round (hs : s.int.stage = .round) (hk : s.int.blockIndex < blockCount s) (hr : s.int.round ≤ 14)
  | write (hs : s.int.stage = .write) (hk : s.int.blockIndex < blockCount s)
  | finish (hs : s.int.stage = .finish) (hk : s.int.blockIndex = blockCount s)

theorem cbcOk_place {tr : State → Bool} {s : State} (htr : s.int.stage = .round → tr s = true → s.int.round ≤ 14)
    (h : cbcOk tr s = true) : CbcPlace s := by
  rcases cbcOk_iff.1 h with ⟨hs, hk⟩ | ⟨hs | hs, hk, ht⟩ | ⟨hs, hk⟩
  · exact .read hs hk
  · exact .round hs hk (htr hs ht)
  · exact .write hs hk
  · exact .finish hs hk

theorem commandOk_cbcPlace {i : Instr} (hi : IsCbc i) {s : State} (h : commandOk i s = true) : CbcPlace s := by
  rcases hi with rfl | rfl
  · rw [commandOk_cbcEncrypt] at h
    refine cbcOk_place (tr := encBlockOk) (fun hs ht => ?_) h
    rw [encBlockOk] at ht
    exact ((transformOk_round hs).1 ht).1
  · rw [commandOk_cbcDecrypt] at h
    exact cbcOk_place (tr := decBlockOk) (fun hs ht => ((transformOk_round hs).1 (decBlockOk_iff.1 ht).2).1) h

/-- In each place a CBC command still needs at most 17 internal steps for each block left, and one to complete (R67). -/
theorem cbcMovesLeft_le {s : State} (h : CbcPlace s) : movesLeft.cbcMovesLeft s ≤ 17 * blockCount s + 1 := by
  cases h with
  | read hs | round hs | write hs | finish hs => simp only [movesLeft.cbcMovesLeft, hs]; omega

theorem inRange_iff {a base len : Nat} : inRange a base len = true ↔ base ≤ a ∧ a < base + len := by
  simp only [inRange, Bool.and_eq_true, decide_eq_true_eq]

/-- Byte `j` of block `k < LEN / 16` of a buffer at `base` lies in the buffer's range (R204). -/
theorem inRange_block {s : State} {k j : Nat} (hk : k < blockCount s) (hj : j < 16) (base : Nat) :
    inRange (base + 16 * k + j) base s.len.toNat = true := by
  have hle := blockCount_le s
  exact inRange_iff.2 (by omega)

/-- A backed buffer backs every block of both ranges (R75). -/
theorem blockAdmitted_of_bufferBacked {s : State} (h : bufferBacked s) {k : Nat} (hk : k < blockCount s) :
    blockAdmitted s (srcAddr s k) = true ∧ blockAdmitted s (dstAddr s k) = true :=
  ⟨blockAdmitted_of_bytes fun _ hj => h _ (.inl (inRange_block hk hj _)),
    blockAdmitted_of_bytes fun _ hj => h _ (.inr (inRange_block hk hj _))⟩

/-- Loading a block starts its transform at round 0 and leaves the command and the block index. -/
structure StartsTransform (load : Block → Internal → Internal) : Prop where
  curOp : ∀ b j, (load b j).curOp = j.curOp
  blockIndex : ∀ b j, (load b j).blockIndex = j.blockIndex
  round : ∀ b j, (load b j).round = 0
  stage : ∀ b j, (load b j).stage = .round

theorem startsTransform_encrypt : StartsTransform loadCbcEncrypt :=
  ⟨fun _ _ => rfl, fun _ _ => rfl, fun _ _ => rfl, fun _ _ => rfl⟩

theorem startsTransform_decrypt : StartsTransform loadCbcDecrypt :=
  ⟨fun _ _ => rfl, fun _ _ => rfl, fun _ _ => rfl, fun _ _ => rfl⟩

section Cbc

variable {i : Instr} {s : State} (hi : IsCbc i) (hb : s.phase = .busy) (hop : decodeOp s.int.curOp = some i)
include hi hb hop

theorem cbcRead_nearer {load : Block → Internal → Internal} (hl : StartsTransform load) (hs : s.int.stage = .read)
    (hk : s.int.blockIndex < blockCount s) (ha : blockAdmitted s (srcAddr s s.int.blockIndex) = true) :
    StepsNearer s (cbcRead load s) := by
  simp only [cbcRead, if_pos hk, if_pos ha]
  refine ⟨_, rfl, ?_⟩
  rw [movesLeft_cbc hi hb hop, movesLeft_cbc hi]
  · simp only [movesLeft.cbcMovesLeft, hs, hl.stage, hl.blockIndex, hl.round]
    rfl
  · exact hb
  · rw [hl.curOp, hop]

theorem roundMove_nearer_cbc {f : KeySchedule → Nat → Block → Block} (hs : s.int.stage = .round)
    (hk : s.int.blockIndex < blockCount s) (hr : s.int.round ≤ 14) : StepsNearer s (roundMove f .write s) := by
  obtain ⟨t, ht⟩ := roundMove_answers hr f .write
  obtain ⟨htb, htop⟩ := roundMove_running ht hb hop
  refine ⟨t, ht, ?_⟩
  rw [movesLeft_cbc hi hb hop, movesLeft_cbc hi htb htop]
  have hn : ∀ j, blockCount { s with int := j } = blockCount s := fun _ => rfl
  rcases roundMove_next ht with ⟨hlt, rfl⟩ | ⟨h14, rfl⟩
  · simp only [movesLeft.cbcMovesLeft, hs, hn]
    omega
  · simp only [movesLeft.cbcMovesLeft, hs, hn]
    omega

theorem cbcWrite_nearer (out cv' saved' : Block) (hs : s.int.stage = .write) (hk : s.int.blockIndex < blockCount s)
    (ha : blockAdmitted s (dstAddr s s.int.blockIndex) = true) : StepsNearer s (cbcWrite out cv' saved' s) := by
  simp only [cbcWrite, if_pos hk, if_pos ha]
  refine ⟨_, rfl, ?_⟩
  rw [movesLeft_cbc hi hb hop, movesLeft_cbc hi (by exact hb) (by exact hop)]
  have hn : ∀ m j, blockCount { s with mem := m, int := j } = blockCount s := fun _ _ => rfl
  by_cases hlast : s.int.blockIndex + 1 < blockCount s
  · simp only [movesLeft.cbcMovesLeft, hs, hn, cbcStage, if_pos hlast]
    omega
  · simp only [movesLeft.cbcMovesLeft, hs, cbcStage, if_neg hlast]
    omega

theorem moveCbc_nearer {load : Block → Internal → Internal} (hl : StartsTransform load)
    (f : KeySchedule → Nat → Block → Block) (out cv' saved' : Block) (h : CbcPlace s) (hbacked : bufferBacked s) :
    StepsNearer s (moveCbc load f out cv' saved' s) := by
  cases h with
  | read hs hk =>
    simp only [moveCbc, hs]
    exact cbcRead_nearer hi hb hop hl hs hk (blockAdmitted_of_bufferBacked hbacked hk).1
  | round hs hk hr =>
    simp only [moveCbc, hs]
    exact roundMove_nearer_cbc hi hb hop hs hk hr
  | write hs hk =>
    simp only [moveCbc, hs]
    exact cbcWrite_nearer hi hb hop out cv' saved' hs hk (blockAdmitted_of_bufferBacked hbacked hk).2
  | finish hs =>
    simp only [moveCbc, hs]
    exact complete_nearer (by simp only [movesLeft_cbc hi hb hop, movesLeft.cbcMovesLeft, hs])

end Cbc

/-- An internal step of a command on track, with a backed buffer if it is a CBC command. -/
theorem moveOf_nearer {i : Instr} {s : State} (hr : Running i s) (hb : s.phase = .busy)
    (hbacked : IsCbc i → bufferBacked s) : StepsNearer s (moveOf i s) := by
  have hop := hr.curOp
  have hcommand := hr.command
  cases i with
  | expandKey => exact moveExpandKey_nearer hb hop hcommand
  | encryptBlock => exact moveBlock_nearer (.inl rfl) hb hop hcommand
  | decryptBlock => exact moveBlock_nearer (.inr rfl) hb hop hcommand
  | cbcEncrypt =>
    have hi : IsCbc .cbcEncrypt := .inl rfl
    exact moveCbc_nearer hi hb hop startsTransform_encrypt _ _ _ _ (commandOk_cbcPlace hi hcommand) (hbacked hi)
  | cbcDecrypt =>
    have hi : IsCbc .cbcDecrypt := .inr rfl
    exact moveCbc_nearer hi hb hop startsTransform_decrypt _ _ _ _ (commandOk_cbcPlace hi hcommand) (hbacked hi)

/-! ### A running command that nothing holds up -/

/-- A command on track is running, and no request of it touches an unbacked address. -/
structure Live (s : State) : Prop where
  inv : Inv s
  busy : s.phase = .busy
  backed : decodeOp s.int.curOp = some .cbcEncrypt ∨ decodeOp s.int.curOp = some .cbcDecrypt → bufferBacked s

/-- A command has completed (R68). -/
def Completed (s : State) : Prop := s.phase = .idle ∧ s.done = true ∧ s.err = 0

/-- A running command needs at most so many internal steps (R67, R290). -/
theorem Running.movesLeft_le {i : Instr} {s : State} (hr : Running i s) (hb : s.phase = .busy) :
    movesLeft s ≤ 53 + 17 * blockCount s := by
  have hop := hr.curOp
  have hcommand := hr.command
  have hblock : IsBlock i → movesLeft s ≤ 53 + 17 * blockCount s := fun hi => by
    rw [movesLeft_block hi hb hop]
    split <;> omega
  have hcbc : IsCbc i → movesLeft s ≤ 53 + 17 * blockCount s := fun hi => by
    have hle := cbcMovesLeft_le (commandOk_cbcPlace hi hcommand)
    rw [movesLeft_cbc hi hb hop]
    omega
  cases i with
  | expandKey =>
    obtain ⟨⟨h8, -⟩, -⟩ := expandOk_iff.1 hcommand
    rw [movesLeft_expandKey hb hop]
    omega
  | encryptBlock => exact hblock (.inl rfl)
  | decryptBlock => exact hblock (.inr rfl)
  | cbcEncrypt => exact hcbc (.inl rfl)
  | cbcDecrypt => exact hcbc (.inr rfl)

theorem bufferBacked_congr {s t : State} (hk : OperandsKept s t) (hm : t.backed = s.backed) (h : bufferBacked s) :
    bufferBacked t := by
  intro a ha
  rw [admitted_congr hm]
  exact h a (by rw [hk.src, hk.dst, hk.len] at ha; exact ha)

/-- The core goes idle in the completion step alone, which sets `DONE` and keeps `ERR` (R68). -/
theorem Moved.completed {s t : State} (h : Moved s t) (hb : s.phase = .busy) (ht : t.phase = .idle) (he : s.err = 0) :
    Completed t := by
  have hbusy : t.phase = s.phase → False := fun hp => by rw [ht, hb] at hp; cases hp
  cases h with
  | internal => exact (hbusy rfl).elim
  | store => exact (hbusy rfl).elim
  | done => exact ⟨rfl, rfl, he⟩

theorem Live.coreMove {s : State} (h : Live s) :
    ∃ t, coreMove s = .next t ∧ movesLeft s = movesLeft t + 1 ∧ (Completed t ∨ Live t) := by
  obtain ⟨i, hr⟩ := h.inv.running h.busy
  have hop := hr.curOp
  have hbacked : IsCbc i → bufferBacked s := fun hi => h.backed (by rcases hi with rfl | rfl <;> simp [hop])
  obtain ⟨t, ht, hleft⟩ := moveOf_nearer hr h.busy hbacked
  rw [← coreMove_busy h.busy hop] at ht
  have hm := coreMove_moved ht
  refine ⟨t, ht, hleft, ?_⟩
  rcases phase_cases t with hp | hp
  · exact .inl (hm.completed h.busy hp hr.err)
  · refine .inr ⟨coreMove_inv h.inv h.busy ht, hp, fun hi => ?_⟩
    rw [hm.curOp hp] at hi
    exact bufferBacked_congr hm.operands hm.port.backed (h.backed hi)

/-- After exactly the internal steps it still needs, the command has completed. -/
theorem Live.advance_movesLeft {s : State} (h : Live s) : ∃ t, advance (movesLeft s) s = .next t ∧ Completed t := by
  induction hn : movesLeft s generalizing s with
  | zero =>
    obtain ⟨t, -, hleft, -⟩ := h.coreMove
    omega
  | succ n ih =>
    obtain ⟨t, ht, hleft, hdone | hlive⟩ := h.coreMove
    · exact ⟨t, by rw [advance_busy h.busy, ht, andThen_next, advance_idle hdone.1], hdone⟩
    · obtain ⟨u, hu, hdone⟩ := ih hlive (by omega)
      exact ⟨u, by rw [advance_busy h.busy, ht, andThen_next, hu], hdone⟩

/-- Internal steps complete the command, or bring it that many steps nearer. -/
theorem Live.advance {n : Nat} {s t : State} (h : Live s) (hadv : advance n s = .next t) :
    Completed t ∨ Live t ∧ movesLeft s = movesLeft t + n := by
  induction n generalizing s with
  | zero => cases hadv; exact .inr ⟨h, rfl⟩
  | succ n ih =>
    obtain ⟨u, hu, hleft, hdone | hlive⟩ := h.coreMove
    · rw [advance_busy h.busy, hu, andThen_next, advance_idle hdone.1] at hadv
      cases hadv
      exact .inl hdone
    · rw [advance_busy h.busy, hu, andThen_next] at hadv
      refine (ih hlive hadv).imp_right fun ⟨ht, hmoves⟩ => ⟨ht, ?_⟩
      omega

/-! ### Runs -/

/-- A step without reset from a running command is an access that leaves the command, and then the internal steps of the
turn: `step_runs_core` with what the access may be. -/
theorem step_busy_prepared {s t : State} (hb : s.phase = .busy) (hn : ∀ x rest, s.turns = x :: rest → x.rst = false)
    (h : step s = .next t) : ∃ u, Prepared s u ∧ advance (stepPace s) u = .next t := by
  cases hs : s.turns with
  | nil =>
    have hadv : advance 1 s = .next t := by rw [advance_busy hb, ← step_no_turn hs, h]; rfl
    have hpace : stepPace s = 1 := by simp only [stepPace, hs]
    exact ⟨s, .access s.turns s.moves s.readData s.hostByte, hpace ▸ hadv⟩
  | cons x rest =>
    obtain ⟨rst, act, n⟩ := x
    obtain rfl : rst = false := hn _ _ hs
    have hpace : stepPace s = n := by simp [stepPace, hs]
    rw [step_plain hs] at h
    rw [hpace]
    cases act with
    | quiet => exact ⟨_, .access rest n s.readData s.hostByte, h⟩
    | regRead off => exact ⟨_, .access rest n _ s.hostByte, h⟩
    | regWrite off v =>
      exact ⟨_, .access rest n s.readData s.hostByte,
        (regWriteTurn_busy (s := { s with turns := rest, moves := n }) hb off v).symm.trans h⟩
    | poll off mask value =>
      simp only [plainTurn, pollRead] at h
      split at h
      · exact ⟨_, .access rest n _ s.hostByte, h⟩
      · exact ⟨_, .access (_ :: rest) n _ s.hostByte, h⟩
    | memRead a =>
      have hgo := hostMemRead_next h
      exact ⟨_, .access rest n s.readData _, hgo⟩
    | memWrite a b =>
      simp only [plainTurn] at h
      have hrace := hostMemWrite_race h
      have hgo := hostMemWrite_next h
      exact ⟨_, .memWrite rest n a b hrace, hgo⟩

/-- A host access holds up no running command. -/
theorem Live.prepared {s u : State} (h : Live s) (hu : Prepared s u) : Live u ∧ movesLeft u = movesLeft s := by
  have hinv := hu.inv h.inv
  have hidle : s.phase = .idle → False := fun hp => by rw [h.busy] at hp; cases hp
  cases hu with
  | access => exact ⟨⟨hinv, h.busy, h.backed⟩, rfl⟩
  | memWrite => exact ⟨⟨hinv, h.busy, h.backed⟩, rfl⟩
  | regWrite _ _ _ _ _ _ hp => exact (hidle hp).elim
  | rejected _ _ _ hp => exact (hidle hp).elim
  | started _ _ _ hp => exact (hidle hp).elim

theorem Live.step {s t : State} (h : Live s) (hn : ∀ x rest, s.turns = x :: rest → x.rst = false)
    (hstep : step s = .next t) : Completed t ∨ Live t ∧ movesLeft s = movesLeft t + stepPace s := by
  obtain ⟨u, hu, hadv⟩ := step_busy_prepared h.busy hn hstep
  obtain ⟨hlive, hmoves⟩ := h.prepared hu
  rw [← hmoves]
  exact hlive.advance hadv

/-- In every run without reset the command in progress completes (R291): while it has not, its count of internal steps left
never rises, and falls whenever the core is given a step. -/
theorem Live.run {r : Nat → State} (h : Live (r 0)) (hr : IsRun r) (hn : NoReset r) : ∃ n, Completed (r n) := by
  by_contra hnever
  have hstep : ∀ n, Live (r n) → Live (r (n + 1)) ∧ movesLeft (r n) = movesLeft (r (n + 1)) + stepPace (r n) :=
    fun n hlive => (hlive.step (hn n) (hr n)).resolve_left fun hdone => hnever ⟨n + 1, hdone⟩
  have hlive : ∀ n, Live (r n) := fun n => by
    induction n with
    | zero => exact h
    | succ n ih => exact (hstep n ih).1
  have hfall : ∀ n, movesLeft (r n) = movesLeft (r (n + 1)) + stepPace (r n) := fun n => (hstep n (hlive n)).2
  have hanti : Antitone fun n => movesLeft (r n) := antitone_nat_of_succ_le fun n => by
    have hn := hfall n
    omega
  obtain ⟨n, hleast⟩ : ∃ n, ∀ m, movesLeft (r n) ≤ movesLeft (r m) :=
    ⟨_, fun m => Function.argmin_le (fun n => movesLeft (r n)) m⟩
  obtain ⟨m, hm, hpace⟩ := run_stepPace hr n
  have hle : movesLeft (r m) ≤ movesLeft (r n) := hanti hm
  have hnext := hleast (m + 1)
  have hlast := hfall m
  omega

end Sys2Proof.Machine

open Sys2Proof Sys2Proof.Machine in
/-- Settles O38: each internal step takes one off the count, and every run keeps giving the core internal steps. -/
theorem runningCommandsComplete : Obligations.RunningCommandsComplete := by
  refine ⟨fun s hinv hb hbacked => ?_, fun r hr n hcan => ?_⟩
  · have hlive : Live s := ⟨hinv, hb, hbacked⟩
    obtain ⟨i, hrunning⟩ := hinv.running hb
    refine ⟨⟨hrunning.movesLeft_le hb, hlive.advance_movesLeft⟩, fun r hr hn hs => ?_⟩
    exact Live.run (hs ▸ hlive) hr hn
  · obtain ⟨m, hm, hpace⟩ := run_stepPace hr n
    exact ⟨m, hm, (hcan m hm).1, hpace⟩

/-! The word of a command: its two fields, and the match and mask of the opcode map (R91, R92, R95). -/

namespace Sys2Proof.Machine

/-- A word is its reserved bits 31:4 followed by its field `OP` (R91). -/
theorem reserved_append_opField (v : Word) : v.extractLsb' 4 28 ++ opField v = v := by
  rw [opField, BitVec.extractLsb'_append_extractLsb'_eq_extractLsb' (by decide), BitVec.extractLsb'_eq_self]

@[simp] theorem opField_encodeWith (r : BitVec 28) (i : Instr) : opField (encodeWith r i) = opcode i :=
  BitVec.extractLsb'_append_eq_right

@[simp] theorem reserved_encodeWith (r : BitVec 28) (i : Instr) : (encodeWith r i).extractLsb' 4 28 = r :=
  BitVec.extractLsb'_append_eq_left

theorem opcode_injective : Function.Injective opcode := fun i j h =>
  Option.some.inj (by rw [← decodeOp_opcode i, h, decodeOp_opcode j])

theorem decode_eq_ok_iff_opField {v : Word} {i : Instr} : decode v = .ok i ↔ opField v = opcode i :=
  decode_eq_ok.trans ⟨decodeOp_eq_some, fun h => h ▸ decodeOp_opcode i⟩

theorem decode_encodeWith (r : BitVec 28) (i : Instr) : decode (encodeWith r i) = .ok i :=
  decode_eq_ok_iff_opField.2 (opField_encodeWith r i)

theorem eq_encodeWith_of_decode {v : Word} {i : Instr} (h : decode v = .ok i) : v = encodeWith (v.extractLsb' 4 28) i := by
  rw [encodeWith, ← decode_eq_ok_iff_opField.1 h, reserved_append_opField]

theorem exists_decode_error_iff {v : Word} :
    (∃ op, decode v = .error (.illegalOpcode op)) ↔ decodeOp (opField v) = none := by
  refine ⟨fun ⟨op, h⟩ => ?_, fun h => ⟨_, decode_of_illegal h⟩⟩
  cases hop : decodeOp (opField v) with
  | none => rfl
  | some i => rw [decode_of_op hop] at h; cases h

/-- The mask 0x0000000F selects field `OP` (R92). -/
theorem masked_toNat (v : Word) : (v &&& 0x0000000F).toNat = (opField v).toNat := by
  rw [BitVec.toNat_and, opField, BitVec.extractLsb'_toNat, Nat.shiftRight_zero]
  exact Nat.and_two_pow_sub_one_eq_mod v.toNat 4

/-- A word decodes to a command exactly when it has its match value under the mask (R92). -/
theorem decode_eq_ok_iff_masked {v m : Word} {i : Instr} (hm : m.toNat = (opcode i).toNat) :
    decode v = .ok i ↔ v &&& 0x0000000F = m := by
  rw [decode_eq_ok_iff_opField, ← BitVec.toNat_inj, ← BitVec.toNat_inj, masked_toNat, hm]

end Sys2Proof.Machine

open Sys2Proof Sys2Proof.Machine in
/-- Settles O3: a word is its reserved bits and `OP`, the decoder reads `OP` alone, and the opcode map is injective. -/
theorem decodeInvertsEncode : Obligations.DecodeInvertsEncode := by
  refine ⟨fun i r _ => decode_encodeWith r i, fun v i h => ⟨_, eq_encodeWith_of_decode h⟩, fun i j r q h => ⟨?_, ?_⟩,
    fun i => rfl⟩
  · exact opcode_injective (by simpa using congrArg opField h)
  · simpa using congrArg (BitVec.extractLsb' 4 28) h

open Sys2Proof Sys2Proof.Machine in
/-- Settles O2: the masked word is `OP`, on which the decoder decides. -/
theorem matchAndMaskSelectTheCommand : Obligations.MatchAndMaskSelectTheCommand := by
  intro v
  refine ⟨decode_eq_ok_iff_masked rfl, decode_eq_ok_iff_masked rfl, decode_eq_ok_iff_masked rfl,
    decode_eq_ok_iff_masked rfl, decode_eq_ok_iff_masked rfl, ?_⟩
  rw [exists_decode_error_iff, decodeOp_eq_none, ← BitVec.toNat_inj, masked_toNat]
  rfl

open Sys2Proof Sys2Proof.Machine in
/-- Settles O1: each command word is an encoding, with its reserved bits named; the others have a reserved `OP`. -/
theorem commandWordsDecode : Obligations.CommandWordsDecode :=
  ⟨decode_encodeWith 0 .expandKey, decode_encodeWith 0 .encryptBlock, decode_encodeWith 0 .decryptBlock,
    decode_encodeWith 0 .cbcEncrypt, decode_encodeWith 0 .cbcDecrypt, decode_encodeWith 0xABCDEF0 .cbcEncrypt,
    decode_encodeWith 0xFFFFFFF .expandKey, decode_of_illegal (v := 0x00000000) rfl,
    decode_of_illegal (v := 0x00000006) rfl, decode_of_illegal (v := 0x0000000F) rfl⟩

/-! The two ways the read of a poll goes (R99; log 6). -/

namespace Sys2Proof.Machine

theorem pollRead_match {off : Offset} {mask value : Word} {s : State} (h : readReg off s &&& mask = value) (n : Nat) :
    pollRead off mask value n s = { s with readData := readReg off s } :=
  if_pos h

theorem pollRead_mismatch {off : Offset} {mask value : Word} {s : State} (h : readReg off s &&& mask ≠ value) (n : Nat) :
    pollRead off mask value n s =
      { s with readData := readReg off s, turns := ⟨false, .poll off mask value, max 1 n⟩ :: s.turns } :=
  if_neg h

end Sys2Proof.Machine

open Sys2Proof Sys2Proof.Machine in
/-- Settles O15: at pace 0 the step is the poll's read alone, and no register read sees the turns left. -/
theorem pollRepeatsUntilItMatches : Obligations.PollRepeatsUntilItMatches := by
  intro s rest off mask value hs
  have hstep : step s = .next (pollRead off mask value 0 { s with turns := rest, moves := 0 }) := step_plain hs
  rw [hstep]
  exact ⟨fun h => congrArg _ (pollRead_match (s := { s with turns := rest, moves := 0 }) h 0),
    fun h => congrArg _ (pollRead_mismatch (s := { s with turns := rest, moves := 0 }) h 0)⟩

/-! Arithmetic in GF(2^8): the loop of R123 is linear in its accumulator with each factor and commutes with doubling,
and every byte is built from 0x00 and 0x01 by doubling and exclusive-or, so the laws of R125 follow by induction on how a
factor is built. -/

namespace Sys2Proof.Machine

/-! ### Doubling -/

/-- Two sums that each may take in `a` add up to one that takes it in when exactly one of them does. -/
theorem ite_xor_xor_ite (s t : Bool) (p q a : Byte) :
    (if s then p ^^^ a else p) ^^^ (if t then q ^^^ a else q) = if s ^^ t then p ^^^ q ^^^ a else p ^^^ q := by
  cases s <;> cases t
  case false.false => rfl
  case false.true => exact (BitVec.xor_assoc p q a).symm
  case true.false => change p ^^^ a ^^^ q = p ^^^ q ^^^ a; ac_rfl
  case true.true =>
    calc p ^^^ a ^^^ (q ^^^ a) = p ^^^ q ^^^ (a ^^^ a) := by ac_rfl
      _ = p ^^^ q := by rw [BitVec.xor_self, BitVec.xor_zero]

theorem gfDouble_xor (a b : Byte) : gfDouble (a ^^^ b) = gfDouble a ^^^ gfDouble b := by
  unfold gfDouble
  rw [ite_xor_xor_ite, BitVec.shiftLeft_xor_distrib, BitVec.getLsbD_xor]

/-! ### The loop -/

theorem gfMultLoop_zero_right (n : Nat) (p a : Byte) : gfMultLoop n p a 0 = p := by
  cases n with
  | zero => rfl
  | succ n => exact if_pos rfl

/-- One iteration; the loop's test for `b = 0` only saves iterations that would change nothing. -/
theorem gfMultLoop_succ (n : Nat) (p a b : Byte) :
    gfMultLoop (n + 1) p a b = gfMultLoop n (if b.getLsbD 0 then p ^^^ a else p) (gfDouble a) (b >>> 1) := by
  by_cases hb : b = 0
  · subst hb
    exact (gfMultLoop_zero_right n p (gfDouble a)).symm
  · exact if_neg hb

theorem gfMultLoop_xor_left (n : Nat) (p q a c b : Byte) :
    gfMultLoop n (p ^^^ q) (a ^^^ c) b = gfMultLoop n p a b ^^^ gfMultLoop n q c b := by
  induction n generalizing p q a c b with
  | zero => rfl
  | succ n ih =>
    simp only [gfMultLoop_succ, gfDouble_xor, ← ih]
    cases b.getLsbD 0
    · rfl
    · simp only [if_true]
      ac_rfl

theorem gfMultLoop_xor_right (n : Nat) (p q a b c : Byte) :
    gfMultLoop n (p ^^^ q) a (b ^^^ c) = gfMultLoop n p a b ^^^ gfMultLoop n q a c := by
  induction n generalizing p q a b c with
  | zero => rfl
  | succ n ih =>
    simp only [gfMultLoop_succ, BitVec.ushiftRight_xor_distrib, BitVec.getLsbD_xor, ← ih, ite_xor_xor_ite]

theorem gfMultLoop_double (n : Nat) (p a b : Byte) :
    gfMultLoop n (gfDouble p) (gfDouble a) b = gfDouble (gfMultLoop n p a b) := by
  induction n generalizing p a b with
  | zero => rfl
  | succ n ih => rw [gfMultLoop_succ, gfMultLoop_succ, ← ih, ← gfDouble_xor, apply_ite gfDouble]

/-- What the loop returns is built from the accumulator and the multiplicand by doubling and exclusive-or. -/
theorem gfMultLoop_induction {P : Byte → Prop} (double : ∀ a, P a → P (gfDouble a))
    (xor : ∀ a b, P a → P b → P (a ^^^ b)) (n : Nat) {p a : Byte} (b : Byte) (hp : P p) (ha : P a) : P (gfMultLoop n p a b) := by
  induction n generalizing p a b with
  | zero => exact hp
  | succ n ih =>
    rw [gfMultLoop_succ]
    refine ih _ ?_ (double a ha)
    split
    · exact xor p a hp ha
    · exact hp

/-! ### Multiplication -/

theorem gfMult_xor_left (a c b : Byte) : gfMult (a ^^^ c) b = gfMult a b ^^^ gfMult c b :=
  gfMultLoop_xor_left 8 0 0 a c b

theorem gfMult_xor_right (a b c : Byte) : gfMult a (b ^^^ c) = gfMult a b ^^^ gfMult a c :=
  gfMultLoop_xor_right 8 0 0 a b c

theorem gfMult_double_left (a b : Byte) : gfMult (gfDouble a) b = gfDouble (gfMult a b) :=
  gfMultLoop_double 8 0 a b

theorem gfMult_zero_right (a : Byte) : gfMult a 0x00 = 0x00 := gfMultLoop_zero_right 8 0 a

theorem gfMult_zero_left (b : Byte) : gfMult 0x00 b = 0x00 :=
  (gfMult_xor_left 0x00 0x00 b).trans BitVec.xor_self

theorem gfMult_one_right (a : Byte) : gfMult a 0x01 = a := by
  change gfMultLoop 7 (0 ^^^ a) (gfDouble a) 0 = a
  exact (gfMultLoop_zero_right 7 (0 ^^^ a) _).trans BitVec.zero_xor

/-- Multiplying 0x01 puts every byte together from its bits. -/
theorem gfMult_one_left : ∀ b : Byte, gfMult 0x01 b = b := by decide +kernel

/-- Every byte is a sum of repeated doublings of 0x01: the loop of `gf_mult(0x01, b)` builds `b` that way. -/
theorem gf_induction {P : Byte → Prop} (zero : P 0x00) (one : P 0x01) (double : ∀ a, P a → P (gfDouble a))
    (xor : ∀ a b, P a → P b → P (a ^^^ b)) (b : Byte) : P b :=
  gfMult_one_left b ▸ gfMultLoop_induction double xor 8 b zero one

theorem gfMult_double_right (a b : Byte) : gfMult a (gfDouble b) = gfDouble (gfMult a b) := by
  induction a using gf_induction with
  | zero => rw [gfMult_zero_left, gfMult_zero_left]; rfl
  | one => rw [gfMult_one_left, gfMult_one_left]
  | double a ih => rw [gfMult_double_left, gfMult_double_left, ih]
  | xor a c iha ihc => rw [gfMult_xor_left, gfMult_xor_left, gfDouble_xor, iha, ihc]

theorem gfMult_comm (a b : Byte) : gfMult a b = gfMult b a := by
  induction b using gf_induction with
  | zero => rw [gfMult_zero_left, gfMult_zero_right]
  | one => rw [gfMult_one_left, gfMult_one_right]
  | double b ih => rw [gfMult_double_left, gfMult_double_right, ih]
  | xor b c ihb ihc => rw [gfMult_xor_left, gfMult_xor_right, ihb, ihc]

theorem gfMult_assoc (a b c : Byte) : gfMult (gfMult a b) c = gfMult a (gfMult b c) := by
  induction c using gf_induction with
  | zero => simp only [gfMult_zero_right]
  | one => simp only [gfMult_one_right]
  | double c ih => simp only [gfMult_double_right, ih]
  | xor c d ihc ihd => simp only [gfMult_xor_right, ihc, ihd]

/-! ### The number of iterations -/

theorem gfIterations_zero_right (n : Nat) : gfIterations n 0 = 0 := by
  cases n with
  | zero => rfl
  | succ n => exact if_pos rfl

theorem gfIterations_succ {b : Byte} (hb : b ≠ 0) (n : Nat) : gfIterations (n + 1) b = gfIterations n (b >>> 1) + 1 :=
  (if_neg hb).trans (Nat.add_comm ..)

theorem gfIterations_le (n : Nat) (b : Byte) : gfIterations n b ≤ n := by
  induction n generalizing b with
  | zero => exact Nat.le_refl 0
  | succ n ih =>
    by_cases hb : b = 0
    · rw [hb, gfIterations_zero_right]
      exact Nat.zero_le _
    · rw [gfIterations_succ hb]
      exact Nat.succ_le_succ (ih _)

theorem gfIterations_of_highest_bit {n m : Nat} {b : Byte} (hn : m < n) (hm : b.getLsbD m = true)
    (habove : ∀ j, m < j → b.getLsbD j = false) : gfIterations n b = m + 1 := by
  induction n generalizing m b with
  | zero => exact absurd hn (Nat.not_lt_zero m)
  | succ n ih =>
    have hb : b ≠ 0 := by
      rintro rfl
      simp at hm
    rw [gfIterations_succ hb]
    cases m with
    | zero =>
      have hshift : b >>> 1 = 0 := by
        refine BitVec.eq_of_getLsbD_eq fun j _ => ?_
        rw [BitVec.getLsbD_ushiftRight, habove (1 + j) (by omega)]
        simp
      rw [hshift, gfIterations_zero_right]
    | succ m =>
      have hm' : (b >>> 1).getLsbD m = true := by rwa [BitVec.getLsbD_ushiftRight, Nat.add_comm]
      rw [ih (by omega) hm' fun j hj => ?_]
      rw [BitVec.getLsbD_ushiftRight, habove (1 + j) (by omega)]

/-- A count that covers all of `b` is enough iterations: by then `b` is 0. -/
theorem gfMultLoop_gfIterations_add {k : Nat} {b : Byte} (hb : b.toNat < 2 ^ k) (n : Nat) (p a : Byte) :
    gfMultLoop (gfIterations k b + n) p a b = gfMultLoop (gfIterations k b) p a b := by
  induction k generalizing b p a with
  | zero =>
    have h0 : b = 0 := BitVec.eq_of_toNat_eq (by simpa using hb)
    rw [h0, gfMultLoop_zero_right, gfMultLoop_zero_right]
  | succ k ih =>
    by_cases h0 : b = 0
    · rw [h0, gfMultLoop_zero_right, gfMultLoop_zero_right]
    · have hshift : (b >>> 1).toNat < 2 ^ k := by
        rw [BitVec.toNat_ushiftRight, Nat.shiftRight_eq_div_pow]
        omega
      rw [gfIterations_succ h0, Nat.add_right_comm, gfMultLoop_succ, gfMultLoop_succ, ih hshift]

end Sys2Proof.Machine

open Sys2Proof Sys2Proof.Machine in
/-- Settles O46: distributivity from the loop, commutativity and associativity by induction on how a factor is built. -/
theorem fieldLaws : Obligations.FieldLaws := fun a b c =>
  ⟨gfMult_comm a b, gfMult_xor_right a b c, gfMult_assoc a b c, gfMult_one_right a, gfMult_zero_right a⟩

open Sys2Proof Sys2Proof.Machine in
/-- Settles O47: each iteration drops one bit of `b`, and the loop is at rest once none is left. -/
theorem multiplyLoopIterations : Obligations.MultiplyLoopIterations := fun b =>
  ⟨gfIterations_le 8 b, fun hb => hb ▸ gfIterations_zero_right 8,
    fun _ hm habove => gfIterations_of_highest_bit (BitVec.lt_of_getLsbD hm) hm habove,
    gfMultLoop_gfIterations_add b.isLt⟩

open Sys2Proof Sys2Proof.Machine in
/-- Settles O48: each constant is a sum of repeated doublings of 0x01, and multiplication distributes over both. -/
theorem constantMultipliers : Obligations.ConstantMultipliers := by
  intro a d1 d2 d3
  have h1 : gfMult a 0x01 = a := gfMult_one_right a
  have h2 : gfMult a 0x02 = d1 := (gfMult_double_right a 0x01).trans (congrArg gfDouble h1)
  have h4 : gfMult a 0x04 = d2 := (gfMult_double_right a 0x02).trans (congrArg gfDouble h2)
  have h8 : gfMult a 0x08 = d3 := (gfMult_double_right a 0x04).trans (congrArg gfDouble h4)
  have sum {b c x y : Byte} (hb : gfMult a b = x) (hc : gfMult a c = y) : gfMult a (b ^^^ c) = x ^^^ y := by
    rw [gfMult_xor_right, hb, hc]
  exact ⟨h1, h2, sum h2 h1, sum h8 h1, sum (sum h8 h2) h1, sum (sum h8 h4) h1, sum (sum h8 h4) h2⟩

/-! Completion of the commands that touch no memory (R67, R68), `EXPAND_KEY` among them (R146). -/

namespace Sys2Proof.Machine

/-- A command that touches no memory answers each internal step, so it comes one step nearer to completion. -/
theorem moveOf_nearer_of_commandOk {i : Instr} (hi : ¬IsCbc i) {s : State} (hb : s.phase = .busy)
    (hop : decodeOp s.int.curOp = some i) (h : commandOk i s = true) : StepsNearer s (moveOf i s) := by
  cases i with
  | expandKey => exact moveExpandKey_nearer hb hop h
  | encryptBlock => exact moveBlock_nearer (.inl rfl) hb hop h
  | decryptBlock => exact moveBlock_nearer (.inr rfl) hb hop h
  | cbcEncrypt => exact absurd (.inl rfl) hi
  | cbcDecrypt => exact absurd (.inr rfl) hi

/-- Given the internal steps it still needs, a command that touches no memory changes internal storage alone, stays on track,
and then commits its result (R67, R68). -/
theorem advance_commits {i : Instr} (hi : ¬IsCbc i) {n : Nat} {s : State} (hb : s.phase = .busy)
    (hop : decodeOp s.int.curOp = some i) (h : commandOk i s = true) (hn : movesLeft s ≤ n) :
    ∃ j : Internal, j.stage = .finish ∧ commandOk i { s with int := j } = true ∧
      advance n s = .next (complete (commit i { s with int := j })) := by
  induction n generalizing s with
  | zero =>
    obtain ⟨t, -, hleft⟩ := moveOf_nearer_of_commandOk hi hb hop h
    omega
  | succ n ih =>
    obtain ⟨t, ht, hleft⟩ := moveOf_nearer_of_commandOk hi hb hop h
    rw [advance_busy hb, coreMove_busy hb hop, ht, andThen_next]
    cases moveOf_movedBy ht with
    | internal j hj =>
      have hok := (moveOf_commandOk h ht).resolve_left (by simp [hb])
      exact ih (s := { s with int := j }) hb (hj ▸ hop) hok (by omega)
    | store hc => exact absurd hc hi
    | done hs => exact ⟨s.int, hs, h, advance_idle (complete_phase _) n⟩

/-- The same from an idle core: `exec i` commits the result of the command it starts. -/
theorem exec_commits {i : Instr} (hi : ¬IsCbc i) {s : State} (hp : s.phase = .idle) (hc : check (opcode i) s = none)
    (hn : movesLeft (startOf i (accepted (opcode i) s)) ≤ s.moves) :
    ∃ j : Internal, j.stage = .finish ∧ commandOk i { startOf i (accepted (opcode i) s) with int := j } = true ∧
      exec i s = .next (complete (commit i { startOf i (accepted (opcode i) s) with int := j })) := by
  have hb : (startOf i (accepted (opcode i) s)).phase = .busy := by cases i <;> rfl
  have hop : decodeOp (startOf i (accepted (opcode i) s)).int.curOp = some i := by
    rw [startOf_curOp]
    exact decodeOp_opcode i
  rw [exec_eq_issue, issue_accepted hp hc]
  exact advance_commits hi hb hop (startOf_commandOk i _) hn

/-- 52 words and the completion step (R147). -/
theorem movesLeft_startExpandKey (s : State) :
    movesLeft (startOf .expandKey (accepted (opcode .expandKey) s)) = 53 := by
  rw [movesLeft_expandKey rfl rfl]
  simp [startOf]

end Sys2Proof.Machine

open Sys2Proof Sys2Proof.Machine in
/-- Settles O23: the checks pass, the command needs 53 internal steps, and the words built by the completion step are the
expanded key. -/
theorem expandKeyCompletes : Obligations.ExpandKeyCompletes := by
  intro s hp hm
  obtain ⟨j, hstage, hok, hexec⟩ :=
    exec_commits (i := .expandKey) (by simp [IsCbc]) hp rfl (by rw [movesLeft_startExpandKey]; exact hm)
  have hks : scheduleOf j.sched = expandKey s.key := schedule_complete hok hstage
  refine ⟨leftover s.draws j, ?_⟩
  rw [hexec, ← hks]
  rfl

/-! The key schedule word by word, and what its word operations do to each byte (R141, R143). -/

namespace Sys2Proof.Machine

/-! ### Bytes of words -/

theorem byteOfWord_xor (x y : Word) (j : Nat) : byteOfWord (x ^^^ y) j = byteOfWord x j ^^^ byteOfWord y j :=
  BitVec.extractLsb'_xor

/-- Byte `j` of a word put together from `f 0` to `f 3`. -/
theorem byteOfWord_wordOfBytes_apply (f : Nat → Byte) {j : Nat} (hj : j < 4) :
    byteOfWord (wordOfBytes (f 0) (f 1) (f 2) (f 3)) j = f j := by
  obtain ⟨h0, h1, h2, h3⟩ := byteOfWord_wordOfBytes (f 0) (f 1) (f 2) (f 3)
  obtain rfl | rfl | rfl | rfl : j = 0 ∨ j = 1 ∨ j = 2 ∨ j = 3 := by omega
  · exact h0
  · exact h1
  · exact h2
  · exact h3

theorem byteOfWord_rotWord (t : Word) {j : Nat} (hj : j < 4) :
    byteOfWord (rotWord t) j = byteOfWord t ((j + 1) % 4) :=
  byteOfWord_wordOfBytes_apply (fun j => byteOfWord t ((j + 1) % 4)) hj

theorem byteOfWord_subWord (t : Word) {j : Nat} (hj : j < 4) : byteOfWord (subWord t) j = sbox (byteOfWord t j) :=
  byteOfWord_wordOfBytes_apply (fun j => sbox (byteOfWord t j)) hj

/-- Rcon goes to byte 0 alone. -/
theorem byteOfWord_rcon (r : Byte) {j : Nat} (hj : j < 4) :
    byteOfWord (wordOfBytes r 0 0 0) j = if j = 0 then r else 0 :=
  byteOfWord_wordOfBytes_apply (fun j => if j = 0 then r else 0) hj

/-- Byte `j` of `temp` in the three cases of the position (R143). -/
theorem byteOfWord_scheduleTemp (i rc : Nat) (prev : Word) {j : Nat} (hj : j < 4) :
    byteOfWord (scheduleTemp i rc prev) j =
      if i % 32 = 0 then sbox (byteOfWord prev ((j + 1) % 4)) ^^^ (if j = 0 then rconAt rc else 0)
      else if i % 32 = 16 then sbox (byteOfWord prev j)
      else byteOfWord prev j := by
  simp only [scheduleTemp]
  split
  · rw [byteOfWord_xor, byteOfWord_subWord _ hj, byteOfWord_rotWord _ hj, byteOfWord_rcon _ hj]
  · split
    · exact byteOfWord_subWord prev hj
    · rfl

/-- Byte `4n + j` of a schedule is byte `j` of its word `n` (R37, R148). -/
theorem ksByte_word (ks : KeySchedule) (n : Nat) {j : Nat} (hj : j < 4) :
    ksByte ks (4 * n + j) = byteOfWord (ks.toList.getD n 0) j := by
  rw [ksByte, show (4 * n + j) / 4 = n by omega, show (4 * n + j) % 4 = j by omega]

/-! ### Words of the schedule -/

/-- The words after `m` iterations of R143's loop, last word first. -/
def builtWords (key : Key) (m : Nat) : List Word := expandLoop m 32 1 key.toList.reverse

theorem builtWords_zero (key : Key) : builtWords key 0 = key.toList.reverse := rfl

theorem builtWords_succ (key : Key) (m : Nat) :
    builtWords key (m + 1) = wordStep (4 * (8 + m)) (1 + (8 + m - 1) / 8) (builtWords key m) :=
  expandLoop_succ m 8 (by decide) key.toList.reverse

theorem length_builtWords (key : Key) (m : Nat) : (builtWords key m).length = 8 + m := by
  induction m with
  | zero => rw [builtWords_zero, List.length_reverse, Vector.length_toList]
  | succ m ih => rw [builtWords_succ, wordStep, List.length_cons, ih, Nat.add_assoc]

/-- Later iterations put words in front and leave the words built (R143). -/
theorem builtWords_getD_add (key : Key) (m d i : Nat) :
    (builtWords key (m + d)).getD (i + d) 0 = (builtWords key m).getD i 0 := by
  induction d with
  | zero => rfl
  | succ d ih => rw [← Nat.add_assoc, ← Nat.add_assoc, builtWords_succ, wordStep, List.getD_cons_succ, ih]

/-- Word `n` of the expanded key, in any list of built words that has it. -/
theorem expandKey_word (key : Key) {m n : Nat} (hm : m ≤ 52) (hn : n < 8 + m) :
    (expandKey key).toList.getD n 0 = (builtWords key m).getD (7 + m - n) 0 := by
  have hlen := length_builtWords key 52
  calc (expandKey key).toList.getD n 0 = (builtWords key 52).reverse.getD n 0 := by
        rw [toList_getD_of_lt _ (show n < 60 by omega)]
        exact tabulate_getElem _ n (by omega)
    _ = (builtWords key 52).getD (7 + m - n + (52 - m)) 0 := by
        rw [List.getD_reverse n (by omega), hlen]
        congr 1
        omega
    _ = (builtWords key m).getD (7 + m - n) 0 := by
        rw [← builtWords_getD_add key m (52 - m), Nat.add_sub_of_le hm]

/-- The first 8 words are the key (R143). -/
theorem expandKey_word_key (key : Key) {n : Nat} (hn : n < 8) :
    (expandKey key).toList.getD n 0 = key.toList.getD n 0 := by
  have hlen : key.toList.length = 8 := Vector.length_toList
  rw [expandKey_word key (Nat.zero_le 52) hn, builtWords_zero, List.getD_reverse _ (by omega), hlen]
  congr 1
  omega

/-- Where `temp` takes Rcon the round counter is the position over 32, and elsewhere `temp` does not read it (R143). -/
theorem scheduleTemp_counter {n : Nat} (hn : 1 ≤ n) (prev : Word) :
    scheduleTemp (4 * n) (1 + (n - 1) / 8) prev = scheduleTemp (4 * n) (n / 8) prev := by
  by_cases h : 4 * n % 32 = 0
  · rw [show 1 + (n - 1) / 8 = n / 8 by omega]
  · simp only [scheduleTemp, if_neg h]

/-- Each later word is the word 8 before it XOR `temp` of the previous word (R143). -/
theorem expandKey_word_later (key : Key) {n : Nat} (h8 : 8 ≤ n) (h60 : n < 60) :
    (expandKey key).toList.getD n 0 = (expandKey key).toList.getD (n - 8) 0 ^^^
      scheduleTemp (4 * n) (n / 8) ((expandKey key).toList.getD (n - 1) 0) := by
  obtain ⟨m, rfl⟩ := Nat.exists_eq_add_of_le h8
  rw [← scheduleTemp_counter (by omega), expandKey_word key (m := m + 1) (n := 8 + m) (by omega) (by omega),
    expandKey_word key (m := m) (n := 8 + m - 8) (by omega) (by omega),
    expandKey_word key (m := m) (n := 8 + m - 1) (by omega) (by omega),
    builtWords_succ, show 7 + (m + 1) - (8 + m) = 0 by omega, show 7 + m - (8 + m - 8) = 7 by omega,
    show 7 + m - (8 + m - 1) = 0 by omega]
  rfl

end Sys2Proof.Machine

open Sys2Proof Sys2Proof.Machine in
/-- Settles O53: the recurrence holds word by word, and every word operation acts on each byte. -/
theorem scheduleRecurrence : Obligations.ScheduleRecurrence := by
  intro key
  refine ⟨fun i hi => ?_, fun n h8 h60 j hj => ?_⟩
  · rw [ksByte, keyByte, expandKey_word_key key (by omega)]
  · simp only []
    rw [ksByte_word _ n hj, expandKey_word_later key h8 h60, byteOfWord_xor, byteOfWord_scheduleTemp _ _ _ hj,
      show 4 * n - 32 = 4 * (n - 8) by omega, show 4 * n - 4 = 4 * (n - 1) by omega,
      show 4 * n / 32 = n / 8 by omega, ksByte_word _ _ hj, ksByte_word _ _ hj,
      ksByte_word _ _ (Nat.mod_lt (j + 1) (by decide))]

/-! The subblock ports: digits of one width packed into one bit vector, the first most significant (R140, R163). -/

namespace Sys2Proof.Machine

/-- A sequence of `w`-bit digits as one number, the first most significant: `packBytes` at 8 bits, `packWords` at 32. -/
def packDigits {w : Nat} (l : List (BitVec w)) : Nat := l.foldl (fun acc b => acc * 2 ^ w + b.toNat) 0

theorem packBytes_eq (l : List Byte) : packBytes l = packDigits l := rfl
theorem packWords_eq (l : List Word) : packWords l = packDigits l := rfl

theorem packDigits_eq_ofDigits {w : Nat} (l : List (BitVec w)) :
    packDigits l = Nat.ofDigits (2 ^ w) (l.reverse.map BitVec.toNat) := by
  simp only [packDigits, Nat.ofDigits_eq_foldr, List.foldr_map, List.foldr_reverse, Nat.cast_id, Nat.mul_comm,
    Nat.add_comm]

/-- Digit `j` stands above the digits after it. -/
theorem packDigits_div_mod {w n : Nat} (v : Vector (BitVec w) n) {j : Nat} (hj : j < n) :
    packDigits v.toList / 2 ^ (w * (n - 1 - j)) % 2 ^ w = v[j].toNat := by
  have hdigit : ∀ x ∈ v.toList.reverse.map BitVec.toNat, x < 2 ^ w := by
    simp only [List.mem_map]
    rintro _ ⟨b, -, rfl⟩
    exact b.isLt
  have hlen : (v.toList.reverse.map BitVec.toNat).length = n := by
    rw [List.length_map, List.length_reverse, Vector.length_toList]
  have hget : (v.toList.reverse.map BitVec.toNat)[n - 1 - j] = v[j].toNat := by
    simp only [List.getElem_map, List.getElem_reverse, Vector.length_toList, Vector.getElem_toList,
      show n - 1 - (n - 1 - j) = j by omega]
  rw [packDigits_eq_ofDigits, pow_mul, Nat.ofDigits_div_pow_eq_ofDigits_drop _ (Nat.two_pow_pos w) _ hdigit,
    List.drop_eq_getElem_cons (by omega), hget, Nat.ofDigits_cons, Nat.add_mul_mod_self_left]
  exact Nat.mod_eq_of_lt v[j].isLt

/-- In a port with room for all digits, digit `j` stands in its own bits. -/
theorem extractLsb'_packDigits {w n : Nat} (v : Vector (BitVec w) n) {j : Nat} (hj : j < n) :
    (BitVec.ofNat (w * n) (packDigits v.toList)).extractLsb' (w * (n - 1 - j)) w = v[j] := by
  apply BitVec.eq_of_getLsbD_eq
  intro i hi
  have hlt : w * (n - 1 - j) + i < w * n :=
    calc w * (n - 1 - j) + i < w * (n - 1 - j) + w := Nat.add_lt_add_left hi _
      _ = w * (n - 1 - j + 1) := (Nat.mul_succ ..).symm
      _ ≤ w * n := Nat.mul_le_mul_left w (by omega)
  have hbit : v[j].getLsbD i = (packDigits v.toList).testBit (w * (n - 1 - j) + i) := by
    rw [BitVec.getLsbD, ← packDigits_div_mod v hj, Nat.testBit_mod_two_pow, Nat.testBit_div_two_pow, decide_eq_true hi,
      Bool.true_and, Nat.add_comm]
  rw [BitVec.getLsbD_extractLsb', BitVec.getLsbD_ofNat, decide_eq_true hi, decide_eq_true hlt, hbit, Bool.true_and,
    Bool.true_and]

theorem extractLsb'_extractLsb' {n a m b w : Nat} (p : BitVec n) (h : b + w ≤ m) :
    (p.extractLsb' a m).extractLsb' b w = p.extractLsb' (a + b) w := by
  apply BitVec.eq_of_getLsbD_eq
  intro i hi
  simp only [BitVec.getLsbD_extractLsb', decide_eq_true hi, decide_eq_true (show b + i < m by omega), Bool.true_and,
    Nat.add_assoc]

/-- Byte `j` of a State port (R163). -/
theorem blockPort_byte (b : Block) {j : Nat} (hj : j < 16) : (blockPort b).extractLsb' (120 - 8 * j) 8 = b[j] := by
  rw [show 120 - 8 * j = 8 * (16 - 1 - j) by omega]
  exact extractLsb'_packDigits b hj

/-- Byte `i` of a port that carries words is byte `i mod 4` of word `i / 4` (R38, R140). -/
theorem wordsPort_byte {n : Nat} (v : Vector Word n) {i : Nat} (hi : i < 4 * n) :
    (BitVec.ofNat (32 * n) (packWords v.toList)).extractLsb' (32 * n - 8 - 8 * i) 8 =
      byteOfWord (v.toList.getD (i / 4) 0) (i % 4) := by
  rw [toList_getD_of_lt v (by omega), byteOfWord, ← extractLsb'_packDigits v (by omega),
    extractLsb'_extractLsb' _ (by omega), packWords_eq]
  congr 1
  omega

/-- A State port has no bits but those of its bytes. -/
theorem blockPort_blockOfPort (p : BitVec 128) : blockPort (blockOfPort p) = p := by
  apply BitVec.eq_of_getLsbD_eq
  intro i hi
  have hbyte : (blockPort (blockOfPort p)).extractLsb' (120 - 8 * (15 - i / 8)) 8 =
      p.extractLsb' (120 - 8 * (15 - i / 8)) 8 := by
    rw [blockPort_byte _ (by omega)]
    exact tabulate_getElem _ _ _
  have hbit := congrArg (·.getLsbD (i % 8)) hbyte
  simp only [BitVec.getLsbD_extractLsb', decide_eq_true (Nat.mod_lt i (show 8 > 0 by decide)), Bool.true_and,
    show 120 - 8 * (15 - i / 8) + i % 8 = i by omega] at hbit
  exact hbit

end Sys2Proof.Machine

open Sys2Proof Sys2Proof.Machine in
/-- Settles O58: each port packs digits that do not overlap, bytes for a block and words for a key or a schedule. -/
theorem portsCarryByteZeroFirst : Obligations.PortsCarryByteZeroFirst :=
  ⟨fun b j => blockPort_byte b j.isLt, blockPort_blockOfPort,
    fun k j => wordsPort_byte k j.isLt, fun ks j => wordsPort_byte ks j.isLt⟩

/-! Completion of the block commands (R68, R175, R176). -/

namespace Sys2Proof.Machine

theorem startOf_block {i : Instr} (hi : IsBlock i) (s : State) :
    startOf i s = { s with int := loadState (blockOfQuad s.din) s.int } := by
  rcases hi with rfl | rfl <;> rfl

/-- A block command's only check is that there is a schedule (R242). -/
theorem check_block {i : Instr} (hi : IsBlock i) {s : State} (hk : s.ksValid = true) : check (opcode i) s = none := by
  rcases hi with rfl | rfl <;> simp [check, opcode, decodeOp, hk]

/-- 15 round indexes and the completion step (R44, R67). -/
theorem movesLeft_startBlock {i : Instr} (hi : IsBlock i) (s : State) :
    movesLeft (startOf i (accepted (opcode i) s)) = 16 := by
  rw [startOf_block hi, movesLeft_block hi rfl (decodeOp_opcode i)]
  rfl

/-- A block command whose working State at the completion step holds `whole` of `DIN0..3` puts that into `DOUT0..3`,
given a schedule and the internal steps it needs (R67, R68). -/
theorem exec_block {i : Instr} (hi : IsBlock i) {whole : KeySchedule → Block → Block}
    (hwork : ∀ t : State, commandOk i t = true → t.int.stage = .finish → t.int.work = whole t.ks (blockOfQuad t.din))
    {s : State} (hp : s.phase = .idle) (hk : s.ksValid = true) (hm : 16 ≤ s.moves) :
    ∃ j : Internal, exec i s = .next { s with
      phase := .idle, done := true, err := 0, dout := quadOfBlock (whole s.ks (blockOfQuad s.din)), int := j,
      draws := s.draws + 1 } := by
  have hcbc : ¬IsCbc i := by rcases hi with rfl | rfl <;> simp [IsCbc]
  obtain ⟨j, hstage, hok, hexec⟩ :=
    exec_commits hcbc hp (check_block hi hk) (by rw [movesLeft_startBlock hi]; exact hm)
  have hres : j.work = whole s.ks (blockOfQuad s.din) := by
    have h := hwork _ hok hstage
    rwa [startOf_block hi] at h
  refine ⟨leftover s.draws j, ?_⟩
  rw [hexec, ← hres]
  rcases hi with rfl | rfl <;> rfl

end Sys2Proof.Machine

open Sys2Proof Sys2Proof.Machine in
/-- Settles O24: the command needs 16 internal steps, and on track it completes with the cipher of `DIN0..3`. -/
theorem encryptBlockCompletes : Obligations.EncryptBlockCompletes := fun _ hp hk hm =>
  exec_block (.inl rfl) (fun _ => transform_complete) hp hk hm

open Sys2Proof Sys2Proof.Machine in
/-- Settles O25: as `ENCRYPT_BLOCK`, with the inverse cipher. -/
theorem decryptBlockCompletes : Obligations.DecryptBlockCompletes := fun _ hp hk hm =>
  exec_block (.inr rfl) (fun _ => transform_complete) hp hk hm

/-! The round operations, byte by byte of the State in rows and columns (R162 to R170). -/

namespace Sys2Proof.Machine

/-! ### The State in rows and columns -/

@[simp] theorem stateAt_tabulate (f : Fin 16 → Byte) (r c : Nat) :
    stateAt (tabulate f) r c = f ⟨c % 4 * 4 + r % 4, by omega⟩ :=
  tabulate_getElem f _ _

theorem stateAt_congr (s : Block) {r r' c c' : Nat} (hr : r % 4 = r' % 4) (hc : c % 4 = c' % 4) :
    stateAt s r c = stateAt s r' c' := by
  simp only [stateAt, hr, hc]

theorem stateAt_div_mod (s : Block) {j : Nat} (hj : j < 16) : stateAt s (j % 4) (j / 4) = s[j] := by
  simp only [stateAt, show j / 4 % 4 * 4 + j % 4 % 4 = j by omega]

/-- A State is determined by its rows and columns (R162). -/
theorem stateAt_ext {s t : Block} (h : ∀ r c, stateAt s r c = stateAt t r c) : s = t := by
  ext j hj : 1
  rw [← stateAt_div_mod s hj, h, stateAt_div_mod t hj]

/-! ### SubBytes and ShiftRows -/

theorem sbox_ne : ∀ x : Byte, sbox x ≠ x := by decide +kernel
theorem invSbox_sbox : ∀ x : Byte, invSbox (sbox x) = x := by decide +kernel
theorem sbox_invSbox : ∀ y : Byte, sbox (invSbox y) = y := by decide +kernel

@[simp] theorem stateAt_subBytes (s : Block) (r c : Nat) : stateAt (subBytes s) r c = sbox (stateAt s r c) :=
  stateAt_tabulate _ r c

@[simp] theorem stateAt_invSubBytes (s : Block) (r c : Nat) : stateAt (invSubBytes s) r c = invSbox (stateAt s r c) :=
  stateAt_tabulate _ r c

@[simp] theorem stateAt_shiftRows (s : Block) (r c : Nat) : stateAt (shiftRows s) r c = stateAt s r (c + r % 4) := by
  rw [shiftRows, stateAt_tabulate]
  dsimp only
  exact stateAt_congr s (by omega) (by omega)

@[simp] theorem stateAt_invShiftRows (s : Block) (r c : Nat) :
    stateAt (invShiftRows s) r c = stateAt s r (c + 4 - r % 4) := by
  rw [invShiftRows, stateAt_tabulate]
  dsimp only
  exact stateAt_congr s (by omega) (by omega)

@[simp] theorem invSubBytes_subBytes (s : Block) : invSubBytes (subBytes s) = s :=
  stateAt_ext fun r c => by simp only [stateAt_invSubBytes, stateAt_subBytes, invSbox_sbox]

@[simp] theorem subBytes_invSubBytes (s : Block) : subBytes (invSubBytes s) = s :=
  stateAt_ext fun r c => by simp only [stateAt_invSubBytes, stateAt_subBytes, sbox_invSbox]

@[simp] theorem invShiftRows_shiftRows (s : Block) : invShiftRows (shiftRows s) = s :=
  stateAt_ext fun r c => by
    rw [stateAt_invShiftRows, stateAt_shiftRows]
    exact stateAt_congr s rfl (by omega)

@[simp] theorem shiftRows_invShiftRows (s : Block) : shiftRows (invShiftRows s) = s :=
  stateAt_ext fun r c => by
    rw [stateAt_shiftRows, stateAt_invShiftRows]
    exact stateAt_congr s rfl (by omega)

/-- A row comes back after its fourth shift (R165). -/
theorem shiftRows_four (s : Block) : shiftRows (shiftRows (shiftRows (shiftRows s))) = s :=
  stateAt_ext fun r c => by
    simp only [stateAt_shiftRows]
    exact stateAt_congr s rfl (by omega)

/-- Bytes change place in one and value in the other (R172). -/
theorem invShiftRows_invSubBytes (s : Block) : invShiftRows (invSubBytes s) = invSubBytes (invShiftRows s) :=
  stateAt_ext fun r c => by simp only [stateAt_invShiftRows, stateAt_invSubBytes]

/-- The index of a row and column in the State (R162). -/
theorem stateAt_eq_getD (s : Block) {r c n : Nat} (hn : c % 4 * 4 + r % 4 = n) : stateAt s r c = s.toList.getD n 0 := by
  subst hn
  exact (toList_getD s (by omega)).symm

/-! ### MixColumns: multiplication of each column by a circulant matrix -/

/-- Row `r` of the circulant matrix with first row `m` times the column `a`. -/
def circulant (m a : Fin 4 → Byte) (r : Fin 4) : Byte :=
  gfMult (a r) (m 0) ^^^ gfMult (a (r + 1)) (m 1) ^^^ gfMult (a (r + 2)) (m 2) ^^^ gfMult (a (r + 3)) (m 3)

/-- The first row of the product of the circulant matrices with first rows `m` and `n`. -/
def circulantMul (m n : Fin 4 → Byte) (k : Fin 4) : Byte :=
  gfMult (n k) (m 0) ^^^ gfMult (n (k + 3)) (m 1) ^^^ gfMult (n (k + 2)) (m 2) ^^^ gfMult (n (k + 1)) (m 3)

/-- Both sides are the sum of the 16 products of `a (r + i + j)`, `n j` and `m i`. -/
theorem circulant_circulant (m n a : Fin 4 → Byte) :
    circulant m (circulant n a) = circulant (circulantMul m n) a := by
  funext r
  simp only [circulant, circulantMul, gfMult_xor_left, gfMult_xor_right, gfMult_assoc, add_assoc, Fin.reduceAdd,
    zero_add, add_zero]
  grind only

/-- The first row of the identity matrix. -/
def oneRow : Fin 4 → Byte := ![1, 0, 0, 0]

theorem circulant_oneRow (a : Fin 4 → Byte) : circulant oneRow a = a := by
  funext r
  calc circulant oneRow a r
      = gfMult (a r) 1 ^^^ gfMult (a (r + 1)) 0 ^^^ gfMult (a (r + 2)) 0 ^^^ gfMult (a (r + 3)) 0 := rfl
    _ = a r ^^^ 0 ^^^ 0 ^^^ 0 := by simp only [gfMult_one_right, gfMult_zero_right]
    _ = a r := by simp

/-- The column transform `f` is the circulant matrix with first row `m`. -/
def IsCirculant (f : Byte → Byte → Byte → Byte → Nat → Byte) (m : Fin 4 → Byte) : Prop :=
  ∀ (a : Fin 4 → Byte) (r : Fin 4), f (a 0) (a 1) (a 2) (a 3) r.val = circulant m a r

/-- The first row of the matrix of R166. -/
def mixRow : Fin 4 → Byte := ![2, 3, 1, 1]

/-- The first row of the matrix of R170. -/
def invMixRow : Fin 4 → Byte := ![14, 11, 13, 9]

theorem isCirculant_mixColumn : IsCirculant mixColumn mixRow := by
  have hm : mixRow 0 = 2 ∧ mixRow 1 = 3 ∧ mixRow 2 = 1 ∧ mixRow 3 = 1 := by decide
  intro a r
  fin_cases r <;> grind only [mixColumn, circulant, gfMult_one_right]

theorem isCirculant_invMixColumn : IsCirculant invMixColumn invMixRow := by
  have hm : invMixRow 0 = 14 ∧ invMixRow 1 = 11 ∧ invMixRow 2 = 13 ∧ invMixRow 3 = 9 := by decide
  intro a r
  fin_cases r <;> grind only [invMixColumn, circulant]

/-- Column `c` of the State (R162). -/
def column (s : Block) (c : Nat) (r : Fin 4) : Byte := stateAt s r c

/-- A State is determined by its columns. -/
theorem column_ext {s t : Block} (h : ∀ c, column s c = column t c) : s = t :=
  stateAt_ext fun r c => by
    rw [stateAt_congr s (Nat.mod_mod r 4).symm rfl, stateAt_congr t (Nat.mod_mod r 4).symm rfl]
    exact congrFun (h c) ⟨r % 4, by omega⟩

/-- A column transform acts on each column by itself. -/
theorem column_onColumns {f : Byte → Byte → Byte → Byte → Nat → Byte} {m : Fin 4 → Byte} (hf : IsCirculant f m)
    (s : Block) (c : Nat) : column (onColumns f s) c = circulant m (column s c) := by
  funext r
  have hcol (k : Nat) : stateAt s k ((c % 4 * 4 + r % 4) / 4) = stateAt s k c := stateAt_congr s rfl (by omega)
  rw [← hf, column, onColumns, stateAt_tabulate]
  simp only [hcol, show (c % 4 * 4 + r % 4) % 4 = r by omega]
  rfl

/-- Column transforms with inverse matrices undo each other. -/
theorem onColumns_onColumns {f g : Byte → Byte → Byte → Byte → Nat → Byte} {m n : Fin 4 → Byte} (hf : IsCirculant f m)
    (hg : IsCirculant g n) (hnm : circulantMul n m = oneRow) (s : Block) : onColumns g (onColumns f s) = s :=
  column_ext fun c => by
    rw [column_onColumns hg, column_onColumns hf, circulant_circulant, hnm, circulant_oneRow]

@[simp] theorem invMixColumns_mixColumns (s : Block) : invMixColumns (mixColumns s) = s :=
  onColumns_onColumns isCirculant_mixColumn isCirculant_invMixColumn (by decide) s

@[simp] theorem mixColumns_invMixColumns (s : Block) : mixColumns (invMixColumns s) = s :=
  onColumns_onColumns isCirculant_invMixColumn isCirculant_mixColumn (by decide) s

@[simp] theorem addRoundKey_addRoundKey (s rk : Block) : addRoundKey (addRoundKey s rk) rk = s := xorBlock_cancel s rk

end Sys2Proof.Machine

open Sys2Proof Sys2Proof.Machine in
/-- Settles O51: each round operation is a permutation of bytes, of byte values or of columns. -/
theorem roundOperationsInvert : Obligations.RoundOperationsInvert := fun s rk =>
  ⟨invSubBytes_subBytes s, subBytes_invSubBytes s, invShiftRows_shiftRows s, shiftRows_invShiftRows s,
    invMixColumns_mixColumns s, mixColumns_invMixColumns s, addRoundKey_addRoundKey s rk, invShiftRows_invSubBytes s⟩

open Sys2Proof Sys2Proof.Machine in
/-- Settles O49: by evaluation of each property at every byte. -/
theorem sboxIsAPermutation : Obligations.SboxIsAPermutation := ⟨sbox_ne, invSbox_sbox, sbox_invSbox⟩

open Sys2Proof Sys2Proof.Machine in
/-- Settles O50: each table lists the places of the rows and columns the pseudocode names. -/
theorem shiftRowsTables : Obligations.ShiftRowsTables := fun s =>
  ⟨fun _ => (tabulate_getElem _ _ _).trans (stateAt_eq_getD s (by decide +revert)),
    fun _ => (tabulate_getElem _ _ _).trans (stateAt_eq_getD s (by decide +revert)), shiftRows_four s⟩

/-! The inverse cipher undoes the cipher round by round (R173). -/

namespace Sys2Proof.Machine

/-- Where `g` undoes each round of `f` under `u`, the rounds of `g` in reverse order undo those of `f`. -/
theorem foldl_reverse_undo {α β : Type} {f g : β → α → β} {u : β → β} (h : ∀ x a, g (u (f x a)) a = u x) (l : List α)
    (x : β) : l.reverse.foldl g (u (l.foldl f x)) = u x := by
  induction l generalizing x with
  | nil => rfl
  | cons a l ih =>
    rw [List.foldl_cons, List.reverse_cons, List.foldl_append, ih]
    exact h x a

/-- What a round does before MixColumns (R171). -/
def subShift (s : Block) : Block := shiftRows (subBytes s)

/-- What an inverse round does before AddRoundKey (R172). -/
def invSubShift (s : Block) : Block := invSubBytes (invShiftRows s)

@[simp] theorem invSubShift_subShift (s : Block) : invSubShift (subShift s) = s := by
  simp only [invSubShift, subShift, invShiftRows_shiftRows, invSubBytes_subBytes]

@[simp] theorem subShift_invSubShift (s : Block) : subShift (invSubShift s) = s := by
  simp only [invSubShift, subShift, subBytes_invSubBytes, shiftRows_invShiftRows]

theorem encFullRound_eq (ks : KeySchedule) (s : Block) (r : Nat) :
    encFullRound ks s r = addRoundKey (mixColumns (subShift s)) (roundKey ks r) := rfl

theorem decFullRound_eq (ks : KeySchedule) (s : Block) (r : Nat) :
    decFullRound ks s r = invMixColumns (addRoundKey (invSubShift s) (roundKey ks r)) := rfl

/-- An inverse round undoes the round of the same round key, from behind its SubBytes and ShiftRows (R173). -/
theorem decFullRound_encFullRound (ks : KeySchedule) (s : Block) (r : Nat) :
    decFullRound ks (subShift (encFullRound ks s r)) r = subShift s := by
  rw [decFullRound_eq, invSubShift_subShift, encFullRound_eq, addRoundKey_addRoundKey, invMixColumns_mixColumns]

/-- The same the other way round, from behind the inverse of SubBytes and ShiftRows (R173). -/
theorem encFullRound_decFullRound (ks : KeySchedule) (s : Block) (r : Nat) :
    encFullRound ks (invSubShift (decFullRound ks s r)) r = invSubShift s := by
  rw [encFullRound_eq, subShift_invSubShift, decFullRound_eq, mixColumns_invMixColumns, addRoundKey_addRoundKey]

/-- The full rounds in the order of the cipher (R171); the inverse cipher takes them in reverse (R172). -/
def fullRounds : List Nat := [1, 2, 3, 4, 5, 6, 7, 8, 9, 10, 11, 12, 13]

theorem encryptBlock_eq (ks : KeySchedule) (b : Block) : encryptBlock ks b =
    addRoundKey (subShift (fullRounds.foldl (encFullRound ks) (addRoundKey b (roundKey ks 0)))) (roundKey ks 14) := rfl

theorem decryptBlock_eq (ks : KeySchedule) (b : Block) : decryptBlock ks b =
    addRoundKey (invSubShift (fullRounds.reverse.foldl (decFullRound ks) (addRoundKey b (roundKey ks 14))))
      (roundKey ks 0) := rfl

theorem decryptBlock_encryptBlock (ks : KeySchedule) (b : Block) : decryptBlock ks (encryptBlock ks b) = b := by
  rw [decryptBlock_eq, encryptBlock_eq, addRoundKey_addRoundKey, foldl_reverse_undo (decFullRound_encFullRound ks),
    invSubShift_subShift, addRoundKey_addRoundKey]

theorem encryptBlock_decryptBlock (ks : KeySchedule) (b : Block) : encryptBlock ks (decryptBlock ks b) = b := by
  have h := foldl_reverse_undo (encFullRound_decFullRound ks) fullRounds.reverse (addRoundKey b (roundKey ks 14))
  rw [List.reverse_reverse] at h
  rw [encryptBlock_eq, decryptBlock_eq, addRoundKey_addRoundKey, h, subShift_invSubShift, addRoundKey_addRoundKey]

end Sys2Proof.Machine

open Sys2Proof Sys2Proof.Machine in
/-- Settles O52: each round undoes the inverse round of its round key, and the other way round. -/
theorem cipherInverse : Obligations.CipherInverse := fun ks b =>
  ⟨decryptBlock_encryptBlock ks b, encryptBlock_decryptBlock ks b⟩

/-! The closed forms of the chaining mode (R207 to R210). -/

namespace Sys2Proof.Machine

/-! ### A chain over two runs of blocks -/

section Chain

variable {f : Block → Block → Block × Block}

@[simp] theorem cbcChain_nil (cv : Block) : cbcChain f cv [] = [] := rfl

@[simp] theorem cbcChain_cons (cv b : Block) (l : List Block) :
    cbcChain f cv (b :: l) = (f cv b).1 :: cbcChain f (f cv b).2 l := rfl

@[simp] theorem length_cbcChain (cv : Block) (l : List Block) : (cbcChain f cv l).length = l.length := by
  induction l generalizing cv with
  | nil => rfl
  | cons b l ih => rw [cbcChain_cons, List.length_cons, List.length_cons, ih]

/-- The chaining value after the blocks `l`. -/
def chainEnd (f : Block → Block → Block × Block) (cv : Block) (l : List Block) : Block :=
  l.foldl (fun v b => (f v b).2) cv

theorem cbcChain_append (cv : Block) (a b : List Block) :
    cbcChain f cv (a ++ b) = cbcChain f cv a ++ cbcChain f (chainEnd f cv a) b := by
  induction a generalizing cv with
  | nil => rfl
  | cons x a ih => rw [List.cons_append, cbcChain_cons, ih]; rfl

/-- The output blocks before block `k` depend on the input blocks before it alone. -/
theorem cbcChain_getD_before {a : List Block} {j : Nat} (hj : j < a.length) (cv d : Block) (b : List Block) :
    (cbcChain f cv (a ++ b)).getD j d = (cbcChain f cv a).getD j d := by
  rw [cbcChain_append, List.getD_append _ _ _ _ (by rwa [length_cbcChain])]

/-- The output blocks from block `k` on are those of a chain from the chaining value then reached. -/
theorem cbcChain_getD_from (cv d : Block) (a b : List Block) (i : Nat) :
    (cbcChain f cv (a ++ b)).getD (a.length + i) d = (cbcChain f (chainEnd f cv a) b).getD i d := by
  rw [cbcChain_append, List.getD_append_right _ _ _ _ (by rw [length_cbcChain]; exact Nat.le_add_right _ _),
    length_cbcChain, Nat.add_sub_cancel_left]

/-- Output block `k` is the chaining step on input block `k`. -/
theorem cbcChain_getD_at (cv d : Block) (a : List Block) (b : Block) (l : List Block) :
    (cbcChain f cv (a ++ b :: l)).getD a.length d = (f (chainEnd f cv a) b).1 :=
  cbcChain_getD_from cv d a (b :: l) 0

end Chain

/-! ### Encryption and decryption -/

@[simp] theorem cbcEncryptBlocks_cons (ks : KeySchedule) (cv b : Block) (l : List Block) :
    cbcEncryptBlocks ks cv (b :: l) =
      encryptBlock ks (xorBlock b cv) :: cbcEncryptBlocks ks (encryptBlock ks (xorBlock b cv)) l := rfl

@[simp] theorem cbcDecryptBlocks_cons (ks : KeySchedule) (cv b : Block) (l : List Block) :
    cbcDecryptBlocks ks cv (b :: l) = xorBlock (decryptBlock ks b) cv :: cbcDecryptBlocks ks b l := rfl

/-- Encryption chains on its last ciphertext block (R201). -/
theorem chainEnd_cbcEncStep (ks : KeySchedule) (cv : Block) (l : List Block) :
    chainEnd (cbcEncStep ks) cv l = (cbcEncryptBlocks ks cv l).getLastD cv := by
  induction l generalizing cv with
  | nil => rfl
  | cons b l ih => rw [cbcEncryptBlocks_cons, List.getLastD_cons]; exact ih _

/-- Decryption chains on the last block it was given (R202). -/
theorem chainEnd_cbcDecStep (ks : KeySchedule) (cv : Block) (l : List Block) :
    chainEnd (cbcDecStep ks) cv l = l.getLastD cv := by
  induction l generalizing cv with
  | nil => rfl
  | cons b l ih => rw [List.getLastD_cons]; exact ih b

theorem cbcDecryptBlocks_cbcEncryptBlocks (ks : KeySchedule) (cv : Block) (p : List Block) :
    cbcDecryptBlocks ks cv (cbcEncryptBlocks ks cv p) = p := by
  induction p generalizing cv with
  | nil => rfl
  | cons b p ih =>
    rw [cbcEncryptBlocks_cons, cbcDecryptBlocks_cons, decryptBlock_encryptBlock, xorBlock_cancel, ih]

/-! ### What a changed block changes -/

theorem xorBlock_left_injective (y : Block) : Function.Injective fun x => xorBlock x y :=
  Function.LeftInverse.injective (g := fun x => xorBlock x y) fun x => xorBlock_cancel x y

theorem xorBlock_right_injective (x : Block) : Function.Injective (xorBlock x) := fun y z h =>
  xorBlock_left_injective x (by simpa only [xorBlock_comm] using h)

theorem encryptBlock_injective (ks : KeySchedule) : Function.Injective (encryptBlock ks) :=
  Function.LeftInverse.injective (decryptBlock_encryptBlock ks)

theorem decryptBlock_injective (ks : KeySchedule) : Function.Injective (decryptBlock ks) :=
  Function.LeftInverse.injective (encryptBlock_decryptBlock ks)

/-- Encryptions whose first cipher inputs differ differ in every block: each ciphertext block goes into the next. -/
theorem cbcEncryptBlocks_ne {ks : KeySchedule} {u v x y : Block} (h : xorBlock x u ≠ xorBlock y v) (l : List Block)
    (d : Block) {j : Nat} (hj : j < l.length + 1) :
    (cbcEncryptBlocks ks u (x :: l)).getD j d ≠ (cbcEncryptBlocks ks v (y :: l)).getD j d := by
  have hfirst := (encryptBlock_injective ks).ne h
  simp only [cbcEncryptBlocks_cons]
  cases j with
  | zero => simpa only [List.getD_cons_zero] using hfirst
  | succ j =>
    simp only [List.getD_cons_succ]
    cases l with
    | nil => exact absurd hj (by simp)
    | cons b l => exact cbcEncryptBlocks_ne ((xorBlock_right_injective b).ne hfirst) l d (by simpa using hj)

end Sys2Proof.Machine

open Sys2Proof Sys2Proof.Machine in
/-- Settles O54: each decryption step undoes its encryption step. -/
theorem cbcRoundTrip : Obligations.CbcRoundTrip := fun ks iv p =>
  ⟨cbcDecryptBlocks_cbcEncryptBlocks ks iv p, length_cbcChain iv p⟩

open Sys2Proof Sys2Proof.Machine in
/-- Settles O55: the blocks before `k` see no change, and from block `k` on the changed ciphertext is chained. -/
theorem chainingDependency : Obligations.ChainingDependency := by
  intro ks iv x y before after hxy c d
  refine ⟨fun j hj => ?_, fun j hle hlt => ?_⟩
  · exact (cbcChain_getD_before hj iv iv (x :: after)).trans (cbcChain_getD_before hj iv iv (y :: after)).symm
  · obtain ⟨i, rfl⟩ := Nat.exists_eq_add_of_le hle
    have hi : i < after.length + 1 := by simpa using hlt
    have hne := (xorBlock_left_injective (chainEnd (cbcEncStep ks) iv before)).ne hxy
    simp only [c, d, cbcEncryptBlocks, cbcChain_getD_from]
    exact cbcEncryptBlocks_ne hne after iv hi

open Sys2Proof Sys2Proof.Machine in
/-- Settles O56: ciphertext block `k` goes into plaintext block `k` through the inverse cipher, into the next as chaining
value, and into no other. -/
theorem decryptionLocality : Obligations.DecryptionLocality := by
  intro ks iv x y before after p q k
  simp only [p, q, k, cbcDecryptBlocks]
  refine ⟨fun j hk hk1 => ?_, fun hxy => ⟨?_, fun hafter => ?_⟩⟩
  · rcases Nat.lt_or_ge j before.length with hj | hj
    · rw [cbcChain_getD_before hj, cbcChain_getD_before hj]
    · obtain ⟨i, rfl⟩ : ∃ i, j = before.length + (i + 2) := ⟨j - before.length - 2, by omega⟩
      rw [cbcChain_getD_from, cbcChain_getD_from]
      cases after with
      | nil => simp only [cbcChain_cons, List.getD_cons_succ, cbcChain_nil]
      | cons b rest => simp only [cbcChain_cons, List.getD_cons_succ, cbcDecStep]
  · rw [cbcChain_getD_at, cbcChain_getD_at]
    exact (xorBlock_left_injective _).ne ((decryptBlock_injective ks).ne hxy)
  · obtain ⟨b, rest, rfl⟩ := List.exists_cons_of_ne_nil hafter
    rw [cbcChain_getD_from, cbcChain_getD_from]
    simp only [cbcChain_cons, List.getD_cons_succ, List.getD_cons_zero, cbcDecStep]
    exact (xorBlock_right_injective _).ne hxy

open Sys2Proof Sys2Proof.Machine in
/-- Settles O57: the second chunk starts from the chaining value the first one ends with. -/
theorem chunksChain : Obligations.ChunksChain := fun ks iv a b =>
  ⟨by rw [← chainEnd_cbcEncStep]; exact cbcChain_append iv a b,
    by rw [← chainEnd_cbcDecStep]; exact cbcChain_append iv a b⟩

/-! The CBC commands run to completion: what is written and what is yet to be written is always the whole chained output
(R205 to R208). -/

namespace Sys2Proof.Machine

/-! ### Acceptance -/

theorem BufferLegal.congr {s t : State} (h : BufferLegal s) (hk : OperandsKept s t) : BufferLegal t := by
  obtain ⟨hblocks, hsrc, hdst, hapart⟩ := h
  constructor <;> simpa only [hk.src, hk.dst, hk.len]

/-- Ranges that are equal or disjoint have no overlap (R246). -/
theorem BufferLegal.no_overlap {s : State} (h : BufferLegal s) :
    ¬(0 < s.len.toNat ∧ s.src.toNat ≠ s.dst.toNat ∧ s.src.toNat < s.dst.toNat + s.len.toNat ∧
      s.dst.toNat < s.src.toNat + s.len.toNat) := by
  rintro ⟨hlen, hne, hsrc, hdst⟩
  rcases h.apart with heq | hapart
  · exact hne (congrArg BitVec.toNat heq)
  · refine hapart (max s.src.toNat s.dst.toNat) ⟨inRange_iff.2 ?_, inRange_iff.2 ?_⟩ <;> omega

theorem BufferLegal.checkBuffer_eq_none {s : State} (h : BufferLegal s) :
    checkBuffer s.src.toNat s.dst.toNat s.len.toNat = none := by
  have hrange : ¬(s.src.toNat + s.len.toNat > Config.addressSpace ∨ s.dst.toNat + s.len.toNat > Config.addressSpace) :=
    not_or.2 ⟨Nat.not_lt.2 h.srcEnd, Nat.not_lt.2 h.dstEnd⟩
  rw [checkBuffer, if_neg (not_not.2 h.blocks), if_neg hrange, if_neg h.no_overlap]

/-- A CBC command with a schedule and legal operands passes its checks (R242). -/
theorem check_cbc {i : Instr} (hi : IsCbc i) {s : State} (hk : s.ksValid = true) (h : BufferLegal s) :
    check (opcode i) s = none := by
  rcases hi with rfl | rfl <;> simp [check, opcode, decodeOp, hk, h.checkBuffer_eq_none]

theorem bufferLegal_of_len_zero {s : State} (h : s.len = 0) : BufferLegal s where
  blocks := by simp [h]
  srcEnd := by simp [h]; omega
  dstEnd := by simp [h]; omega
  apart := .inr fun a => by simp [inRange, h]

theorem startOf_cbc {i : Instr} (hi : IsCbc i) (s : State) : startOf i s = startCbc s := by
  rcases hi with rfl | rfl <;> rfl

/-! ### The output still to come -/

theorem loadBlocks_congr {m m' : Memory} {n a : Nat} (h : ∀ x, a ≤ x → x < a + 16 * n → readByte m' x = readByte m x) :
    loadBlocks n m' a = loadBlocks n m a := by
  induction n generalizing a with
  | zero => rfl
  | succ n ih =>
    rw [loadBlocks, loadBlocks, readBlock_congr fun j hj => h (a + j) (by omega) (by omega),
      ih fun x hle hlt => h x (by omega) (by omega)]

/-- Output block `k` lies on no input block after `k`, in place or not (R204, R246). -/
theorem loadBlocks_writeBlock_of_legal {s : State} {k n : Nat} (h : BufferLegal s) (hm : s.mem.wf = true)
    (ha : blockAdmitted s (dstAddr s k) = true) (hn : k + 1 + n ≤ blockCount s) (v : Block) :
    loadBlocks n (writeBlock s.mem (dstAddr s k) v) (srcAddr s (k + 1)) = loadBlocks n s.mem (srcAddr s (k + 1)) := by
  have hle := blockCount_le s
  refine loadBlocks_congr fun x hlo hhi => ?_
  rw [readByte_writeBlock hm (blockAdmitted_le ha), if_neg]
  rintro ⟨hdlo, hdhi⟩
  simp only [srcAddr, dstAddr] at hlo hhi hdlo hdhi
  rcases h.apart with heq | hapart
  · rw [heq] at hlo
    omega
  · exact hapart x ⟨inRange_iff.2 (by omega), inRange_iff.2 (by omega)⟩

/-- The memory a CBC command with block step `f` leaves: its output blocks from the block in hand on, stored into what it
has written so far (R207, R208). -/
def outputMemory (f : KeySchedule → Block → Block → Block × Block) (s : State) : Memory :=
  storeBlocks s.mem (dstAddr s s.int.blockIndex)
    (cbcChain (f s.ks) s.int.cv (loadBlocks (blockCount s - s.int.blockIndex) s.mem (srcAddr s s.int.blockIndex)))

/-- With no block left it is memory as it stands. -/
theorem outputMemory_last {f : KeySchedule → Block → Block → Block × Block} {s : State}
    (h : s.int.blockIndex = blockCount s) : outputMemory f s = s.mem := by
  rw [outputMemory, h, Nat.sub_self]
  rfl

/-- Internal storage with the same chaining value and block index. -/
theorem outputMemory_internal (f : KeySchedule → Block → Block → Block × Block) {s : State} {j : Internal}
    (hcv : j.cv = s.int.cv) (hk : j.blockIndex = s.int.blockIndex) :
    outputMemory f { s with int := j } = outputMemory f s := by
  simp only [outputMemory, hcv, hk]
  rfl

/-- Writing the output block in hand and chaining on it leaves the rest to come (R205). -/
theorem outputMemory_store {f : KeySchedule → Block → Block → Block × Block} {s : State} {j : Internal}
    (h : BufferLegal s) (hm : s.mem.wf = true) (hk : s.int.blockIndex < blockCount s)
    (ha : blockAdmitted s (dstAddr s s.int.blockIndex) = true)
    (hcv : j.cv = (f s.ks s.int.cv (currentInput s)).2) (hj : j.blockIndex = s.int.blockIndex + 1) :
    outputMemory f { s with
      mem := writeBlock s.mem (dstAddr s s.int.blockIndex) (f s.ks s.int.cv (currentInput s)).1, int := j } =
      outputMemory f s := by
  obtain ⟨n, hn⟩ : ∃ n, blockCount s - s.int.blockIndex = n + 1 := ⟨blockCount s - s.int.blockIndex - 1, by omega⟩
  have hrest : blockCount s - (s.int.blockIndex + 1) = n := by omega
  have hload := loadBlocks_writeBlock_of_legal (n := n) h hm ha (by omega) (f s.ks s.int.cv (currentInput s)).1
  calc outputMemory f { s with
        mem := writeBlock s.mem (dstAddr s s.int.blockIndex) (f s.ks s.int.cv (currentInput s)).1, int := j }
      = storeBlocks (writeBlock s.mem (dstAddr s s.int.blockIndex) (f s.ks s.int.cv (currentInput s)).1)
          (dstAddr s (s.int.blockIndex + 1)) (cbcChain (f s.ks) (f s.ks s.int.cv (currentInput s)).2
            (loadBlocks n s.mem (srcAddr s (s.int.blockIndex + 1)))) := by
        rw [← hload, ← hrest, ← hj, ← hcv]
        rfl
    _ = outputMemory f s := by
        rw [outputMemory, hn]
        rfl

/-! ### The internal steps -/

/-- What an internal step of a CBC command on track does: it goes on, and the whole output stays the same, or it completes
with all of the output in memory. -/
inductive CbcMoved (f : KeySchedule → Block → Block → Block × Block) (s : State) : State → Prop
  | onward (m : Memory) (j : Internal) (hout : outputMemory f { s with mem := m, int := j } = outputMemory f s) :
      CbcMoved f s { s with mem := m, int := j }
  | done (hout : outputMemory f s = s.mem) : CbcMoved f s (complete s)

section Moves

variable {f : KeySchedule → Block → Block → Block × Block} {load : Block → Internal → Internal}
  {round : KeySchedule → Nat → Block → Block} {out cv' saved' : Block} {s t : State}

theorem CbcMoved.internal {j : Internal} (hcv : j.cv = s.int.cv) (hk : j.blockIndex = s.int.blockIndex) :
    CbcMoved f s { s with int := j } :=
  .onward s.mem j (outputMemory_internal f hcv hk)

theorem cbcRead_cbcMoved (hl : StartsTransform load) (hcv : ∀ b j, (load b j).cv = j.cv) (h : cbcRead load s = .next t) :
    CbcMoved f s t := by
  obtain ⟨-, rfl | rfl⟩ := cbcRead_next h
  · exact .internal (j := t.int) rfl rfl
  · exact .internal (hcv _ _) (hl.blockIndex _ _)

theorem roundMove_cbcMoved (h : roundMove round .write s = .next t) : CbcMoved f s t := by
  rcases roundMove_next h with ⟨-, rfl⟩ | ⟨-, rfl⟩
  · exact .internal rfl rfl
  · exact .internal rfl rfl

theorem cbcWrite_cbcMoved (hlegal : BufferLegal s) (hm : s.mem.wf = true)
    (hstep : f s.ks s.int.cv (currentInput s) = (out, cv')) (h : cbcWrite out cv' saved' s = .next t) :
    CbcMoved f s t := by
  obtain ⟨hk, rfl | ⟨ha, rfl⟩⟩ := cbcWrite_next h
  · exact .internal (j := t.int) rfl rfl
  · have hstore := outputMemory_store (f := f) (j := { s.int with
      cv := cv', saved := saved', blockIndex := s.int.blockIndex + 1, stage := cbcStage s (s.int.blockIndex + 1) })
      hlegal hm hk ha (by rw [hstep]) rfl
    rw [hstep] at hstore
    exact .onward _ _ hstore

/-- The internal step the two CBC commands share, where the block written and the chaining value then are those of the block
step `f`. -/
theorem moveCbc_cbcMoved (hl : StartsTransform load) (hcv : ∀ b j, (load b j).cv = j.cv) (hlegal : BufferLegal s)
    (hm : s.mem.wf = true) (hplace : CbcPlace s)
    (hstep : s.int.stage = .write → f s.ks s.int.cv (currentInput s) = (out, cv'))
    (h : moveCbc load round out cv' saved' s = .next t) : CbcMoved f s t := by
  cases hplace with
  | read hs => simp only [moveCbc, hs] at h; exact cbcRead_cbcMoved hl hcv h
  | round hs => simp only [moveCbc, hs] at h; exact roundMove_cbcMoved h
  | write hs => simp only [moveCbc, hs] at h; exact cbcWrite_cbcMoved hlegal hm (hstep hs) h
  | finish hs hk => simp only [moveCbc, hs] at h; cases h; exact .done (outputMemory_last hk)

end Moves

/-- The check of the block in hand holds where a CBC command on track is about to write it. -/
theorem cbcOk_write {tr : State → Bool} {s : State} (h : cbcOk tr s = true) (hs : s.int.stage = .write) :
    tr s = true := by
  simp only [cbcOk, hs, Bool.and_eq_true] at h
  exact h.2

/-- `CBC_ENCRYPT` on track writes the block of R201. -/
theorem cbcEncStep_write {s : State} (h : commandOk .cbcEncrypt s = true) (hs : s.int.stage = .write) :
    cbcEncStep s.ks s.int.cv (currentInput s) = (s.int.work, s.int.work) := by
  have hblock : encBlockOk s = true := cbcOk_write h hs
  obtain ⟨-, hw⟩ := (transformOk_after (by simp [hs])).1 hblock
  rw [cbcEncStep, ← hw]

/-- `CBC_DECRYPT` on track writes the block of R202 and chains on the saved ciphertext block. -/
theorem cbcDecStep_write {s : State} (h : commandOk .cbcDecrypt s = true) (hs : s.int.stage = .write) :
    cbcDecStep s.ks s.int.cv (currentInput s) = (xorBlock s.int.work s.int.cv, s.int.saved) := by
  have hblock : decBlockOk s = true := cbcOk_write h hs
  obtain ⟨hsaved, htr⟩ := decBlockOk_iff.1 hblock
  obtain ⟨-, hw⟩ := (transformOk_after (by simp [hs])).1 htr
  rw [cbcDecStep, ← hsaved, ← hw]

theorem moveOf_cbcMoved {i : Instr} {f : KeySchedule → Block → Block → Block × Block} (hf : cbcStepOf i = some f)
    {s t : State} (hr : Running i s) (hlegal : BufferLegal s) (h : moveOf i s = .next t) : CbcMoved f s t := by
  have hplace := commandOk_cbcPlace (isCbc_of_cbcStepOf hf) hr.command
  cases i with
  | cbcEncrypt =>
    cases hf
    exact moveCbc_cbcMoved startsTransform_encrypt (fun _ _ => rfl) hlegal hr.memory hplace
      (cbcEncStep_write hr.command) (moveOf_cbcEncrypt s ▸ h)
  | cbcDecrypt =>
    cases hf
    exact moveCbc_cbcMoved startsTransform_decrypt (fun _ _ => rfl) hlegal hr.memory hplace
      (cbcDecStep_write hr.command) (moveOf_cbcDecrypt s ▸ h)
  | expandKey | encryptBlock | decryptBlock => cases hf

/-! ### The whole command -/

/-- Given the internal steps it still needs, a CBC command completes with its whole output in memory (R67, R68, R205). -/
theorem advance_cbc {i : Instr} {f : KeySchedule → Block → Block → Block × Block} (hf : cbcStepOf i = some f) {n : Nat}
    {s : State} (h : Live s) (hop : decodeOp s.int.curOp = some i) (hlegal : BufferLegal s) (hn : movesLeft s ≤ n) :
    ∃ j : Internal, advance n s = .next (complete { s with mem := outputMemory f s, int := j }) := by
  induction n generalizing s with
  | zero =>
    obtain ⟨t, -, hleft, -⟩ := h.coreMove
    omega
  | succ n ih =>
    obtain ⟨t, ht, hleft, hnext⟩ := h.coreMove
    obtain ⟨i', hr⟩ := h.inv.running h.busy
    obtain rfl : i' = i := Option.some.inj (hr.curOp.symm.trans hop)
    have hmoved := coreMove_moved ht
    rw [advance_busy h.busy, ht, andThen_next]
    cases moveOf_cbcMoved hf hr hlegal (coreMove_busy h.busy hop ▸ ht) with
    | onward m j hout =>
      have hlive := hnext.resolve_left fun hdone => by cases hdone.1.symm.trans h.busy
      have hcur := hmoved.curOp h.busy
      obtain ⟨j', hj'⟩ := ih hlive (hcur ▸ hop) (hlegal.congr hmoved.operands) (by omega)
      exact ⟨j', by rw [hj', hout]⟩
    | done hout => exact ⟨s.int, by rw [hout]; exact advance_idle (complete_phase s) n⟩

theorem live_startOf_cbc {i : Instr} (hi : IsCbc i) {s : State} (hm : s.mem.wf = true)
    (hc : check (opcode i) s = none) (hbacked : bufferBacked s) : Live (startOf i (accepted (opcode i) s)) where
  inv := started_inv hm hc
  busy := by rw [startOf_cbc hi]; rfl
  backed _ := by rw [startOf_cbc hi]; exact hbacked

/-- A read, 15 round indexes and a write for each block, and the completion step (R67, R205). -/
theorem movesLeft_startCbc {i : Instr} (hi : IsCbc i) (s : State) :
    movesLeft (startOf i (accepted (opcode i) s)) ≤ 17 * blockCount s + 1 := by
  have hle := cbcMovesLeft_le (commandOk_cbcPlace hi (startOf_commandOk i (accepted (opcode i) s)))
  rw [startOf_cbc hi] at hle ⊢
  rw [movesLeft_cbc hi rfl (decodeOp_opcode i)]
  exact hle

/-- A CBC command with a schedule, legal operands, a backed buffer and the internal steps it needs stores the chained output
of the source blocks of memory at acceptance (R207, R208). -/
theorem exec_cbc {i : Instr} {f : KeySchedule → Block → Block → Block × Block} (hf : cbcStepOf i = some f) {s : State}
    (hp : s.phase = .idle) (hm : s.mem.wf = true) (hk : s.ksValid = true) (hlegal : BufferLegal s)
    (hbacked : bufferBacked s) (hn : 17 * (s.len.toNat / 16) + 1 ≤ s.moves) :
    ∃ j : Internal, exec i s = .next { s with
      phase := .idle, done := true, err := 0, int := j, draws := s.draws + 1,
      mem := storeBlocks s.mem s.dst.toNat
        (cbcChain (f s.ks) (blockOfQuad s.iv) (loadBlocks (s.len.toNat / 16) s.mem s.src.toNat)) } := by
  have hi := isCbc_of_cbcStepOf hf
  have hc := check_cbc hi hk hlegal
  have hlive := live_startOf_cbc hi hm hc hbacked
  have hmoves := (movesLeft_startCbc hi s).trans hn
  rw [exec_eq_issue, issue_accepted hp hc]
  rw [startOf_cbc hi] at hlive hmoves ⊢
  obtain ⟨j, hj⟩ := advance_cbc hf hlive (decodeOp_opcode i) (hlegal.congr ⟨rfl, rfl, rfl, rfl, rfl, rfl⟩) hmoves
  exact ⟨leftover s.draws j, hj⟩

/-- A CBC command over no block has only its completion step to make (R206). -/
theorem exec_cbc_no_block {i : Instr} (hi : IsCbc i) {s : State} (hp : s.phase = .idle)
    (hc : check (opcode i) s = none) (hlen : blockCount s = 0) (hn : 1 ≤ s.moves) :
    exec i s = .next (complete (startCbc (accepted (opcode i) s))) := by
  obtain ⟨n, hn⟩ := Nat.exists_eq_add_of_le' hn
  have hstage : (startCbc (accepted (opcode i) s)).int.stage = .finish := if_neg (Nat.not_lt.2 hlen.le)
  obtain ⟨load, f, out, cv', saved', hmove⟩ := moveOf_cbc hi (startCbc (accepted (opcode i) s))
  rw [exec_eq_issue, issue_accepted hp hc, hn, startOf_cbc hi, advance_busy rfl,
    coreMove_busy rfl (decodeOp_opcode i), hmove]
  simp only [moveCbc, hstage, andThen_next]
  exact advance_idle (complete_phase _) n

end Sys2Proof.Machine

open Sys2Proof Sys2Proof.Machine in
/-- Settles O26: every internal step keeps the whole chained ciphertext, written or still to come, and the completion step
comes when all of it is written. -/
theorem cbcEncryptCompletes : Obligations.CbcEncryptCompletes := fun _ hp hm hk hlegal hbacked hn =>
  exec_cbc (i := .cbcEncrypt) rfl hp hm hk hlegal hbacked hn

open Sys2Proof Sys2Proof.Machine in
/-- Settles O27: as `CBC_ENCRYPT`, with the block step of R202. -/
theorem cbcDecryptCompletes : Obligations.CbcDecryptCompletes := fun _ hp hm hk hlegal hbacked hn =>
  exec_cbc (i := .cbcDecrypt) rfl hp hm hk hlegal hbacked hn

open Sys2Proof Sys2Proof.Machine in
/-- Settles O28: the operands of an empty buffer are legal, so with a schedule the completion step is the command's only
one, and without it the key check is the first to fail. -/
theorem zeroLengthCbcTouchesNoMemory : Obligations.ZeroLengthCbcTouchesNoMemory := by
  intro s i hp hi hlen hm
  refine ⟨fun hk => ?_, fun hk => ?_⟩
  · have hc := check_cbc hi hk (bufferLegal_of_len_zero hlen)
    have hcount : blockCount s = 0 := by simp [blockCount, hlen]
    exact ⟨_, exec_cbc_no_block hi hp hc hcount hm⟩
  · have hne : i ≠ .expandKey := by rcases hi with rfl | rfl <;> simp
    rw [exec_eq_issue, issue_rejected hp (check_noKey hk hne)]
    rfl

/-! Rejection: the code of the first failing check is reported, and reported only when that check fails (R242, R243). -/

namespace Sys2Proof.Machine

theorem errCode_ne_zero (e : ErrCode) : errCode e ≠ 0 := by
  cases e <;> decide

theorem errCode_injective : Function.Injective errCode := by
  intro e e'
  cases e <;> cases e' <;> decide

/-! ### The checks, opcode by opcode -/

theorem check_illegal {op : BitVec 4} (h : decodeOp op = none) (s : State) : check op s = some .opcode :=
  if_pos h

/-- `EXPAND_KEY` passes its checks in every state (R146, R242). -/
theorem check_expandKey (s : State) : check (opcode .expandKey) s = none := rfl

/-- With a schedule, only its buffer can fail a CBC command (R242). -/
theorem check_cbc_eq_checkBuffer {i : Instr} (hi : IsCbc i) {s : State} (hk : s.ksValid = true) :
    check (opcode i) s = checkBuffer s.src.toNat s.dst.toNat s.len.toNat := by
  rcases hi with rfl | rfl <;> simp [check, opcode, decodeOp, hk]

/-- The commands of the opcode map are 0x1 to 0x5 (R92), as R242 lists them. -/
theorem decodeOp_eq_none_iff_not_mem {op : BitVec 4} :
    decodeOp op = none ↔ op ∉ [0x1#4, 0x2#4, 0x3#4, 0x4#4, 0x5#4] := by
  revert op
  decide

/-! ### The checks of a buffer -/

theorem checkBuffer_eq_len {a d n : Nat} : checkBuffer a d n = some .len ↔ n % 16 ≠ 0 := by
  unfold checkBuffer
  split_ifs with hlen <;> simp [hlen]

theorem checkBuffer_eq_range {a d n : Nat} (hlen : n % 16 = 0) :
    checkBuffer a d n = some .range ↔ a + n > 2 ^ 32 ∨ d + n > 2 ^ 32 := by
  have hspace : Config.addressSpace = 2 ^ 32 := rfl
  rw [checkBuffer, if_neg (not_not.2 hlen), hspace]
  split_ifs with hrange
  · exact iff_of_true rfl hrange
  · exact iff_of_false (by simp) hrange
  · exact iff_of_false (by simp) hrange

theorem checkBuffer_eq_overlap {a d n : Nat} (hlen : n % 16 = 0) (ha : a + n ≤ 2 ^ 32) (hd : d + n ≤ 2 ^ 32) :
    checkBuffer a d n = some .overlap ↔ 0 < n ∧ a ≠ d ∧ a < d + n ∧ d < a + n := by
  have hrange : ¬(a + n > Config.addressSpace ∨ d + n > Config.addressSpace) :=
    not_or.2 ⟨Nat.not_lt.2 ha, Nat.not_lt.2 hd⟩
  rw [checkBuffer, if_neg (not_not.2 hlen), if_neg hrange]
  split_ifs with hoverlap
  · exact iff_of_true rfl hoverlap
  · exact iff_of_false (by simp) hoverlap

/-- Two ranges of `n > 0` bytes share a byte exactly when each begins before the other ends; the later beginning is then one
such byte (R246). -/
theorem exists_inRange_both {a d n : Nat} (hn : 0 < n) :
    (∃ x, inRange x a n = true ∧ inRange x d n = true) ↔ a < d + n ∧ d < a + n := by
  simp only [inRange_iff]
  constructor
  · rintro ⟨x, hsrc, hdst⟩
    omega
  · intro h
    exact ⟨max a d, by omega, by omega⟩

/-! ### Rejection as the outcome of a command -/

theorem exec_rejected {i : Instr} {s : State} {e : ErrCode} (hp : s.phase = .idle) (h : check (opcode i) s = some e) :
    exec i s = .next (reject e s) := by
  rw [exec_eq_issue, issue_rejected hp h]

theorem startOf_err (i : Instr) (s : State) : (startOf i s).err = s.err := by
  cases i <;> rfl

/-- A command ends as a rejection with code `e` exactly when `e` is its first failing check: another failing check gives
another code, and an accepted command runs with `ERR = 0` (R66, R68, R243). -/
theorem exec_eq_reject_iff {i : Instr} {s : State} {e : ErrCode} (hp : s.phase = .idle) :
    exec i s = .next (reject e s) ↔ check (opcode i) s = some e := by
  refine ⟨fun h => ?_, exec_rejected hp⟩
  rcases exec_idle_next hp h with ⟨e', hc, heq⟩ | ⟨-, hadv⟩
  · rw [hc, errCode_injective (congrArg State.err heq)]
  · have herr := advance_err hadv
    rw [startOf_err] at herr
    exact absurd herr (errCode_ne_zero e)

/-- With a schedule, a CBC command ends as a rejection with code `e` exactly when its buffer fails that check first. -/
theorem exec_cbc_eq_reject_iff {i : Instr} (hi : IsCbc i) {s : State} {e : ErrCode} (hp : s.phase = .idle)
    (hk : s.ksValid = true) :
    exec i s = .next (reject e s) ↔ checkBuffer s.src.toNat s.dst.toNat s.len.toNat = some e := by
  rw [exec_eq_reject_iff hp, check_cbc_eq_checkBuffer hi hk]

/-- A word written to `CMD` whose `OP` fails a check is rejected, be `OP` a command or not (R243, R248). -/
theorem regWriteTurn_rejected {off : Offset} {v : Word} {s : State} {e : ErrCode} (hoff : wordOffset off = 0)
    (hp : s.phase = .idle) (hc : check (opField v) s = some e) : regWriteTurn exec off v s = .next (reject e s) := by
  cases hop : decodeOp (opField v) with
  | none =>
    obtain rfl : ErrCode.opcode = e := Option.some.inj ((check_illegal hop s).symm.trans hc)
    exact regWriteTurn_illegal hoff hop hp
  | some i =>
    rw [regWriteTurn_command hoff (decode_of_op hop)]
    exact exec_rejected hp (decodeOp_eq_some hop ▸ hc)

end Sys2Proof.Machine

open Sys2Proof Sys2Proof.Machine in
/-- Settles O5: the masked word is `OP`, which the opcode map does not hold, so the first check fails. -/
theorem illegalOpcodeIsReported : Obligations.IllegalOpcodeIsReported := by
  intro s rest off v n hp hs hoff hv
  have hop : decodeOp (opField v) = none := by
    rw [show (v &&& 0xF).toNat = (opField v).toNat from masked_toNat v] at hv
    exact (decodeOp_eq_none _).2 (by omega)
  rw [step_plain hs]
  exact regWriteTurn_rejected (s := { s with turns := rest, moves := n }) (wordOffset_eq_zero.2 hoff) hp (check_illegal hop _)

open Sys2Proof Sys2Proof.Machine in
/-- Settles O16: `check` asks the questions of R242 in the same order, so in every branch the codes agree. -/
theorem checksInOrder : Obligations.ChecksInOrder := by
  intro op s
  have hcbc : op ∈ [0x4#4, 0x5#4] ↔ op = 0x4 ∨ op = 0x5 := by simp
  have hne : s.src ≠ s.dst ↔ s.src.toNat ≠ s.dst.toNat := BitVec.toNat_ne_iff_ne.symm
  have hspace : Config.addressSpace = 2 ^ 32 := rfl
  refine ⟨?_, fun m => check_congr (s := s) (t := { s with mem := m }) rfl rfl rfl rfl op⟩
  simp only [check, checkBuffer, decodeOp_eq_none_iff_not_mem, hcbc, hne, hspace]
  split_ifs <;> rfl

open Sys2Proof Sys2Proof.Machine in
/-- Settles O17: the rejection of `exec`, and of the turn that writes the word. -/
theorem rejectionChangesOnlyStatus : Obligations.RejectionChangesOnlyStatus := by
  refine ⟨fun s i e hp hc => ⟨exec_rejected hp hc, errCode_ne_zero e⟩, fun s rest off v n e hp hs hoff hc => ?_⟩
  rw [step_plain hs]
  exact regWriteTurn_rejected (s := { s with turns := rest, moves := n }) (wordOffset_eq_zero.2 hoff) hp hc

open Sys2Proof Sys2Proof.Machine in
/-- Settles O19: the key check fails for every command but `EXPAND_KEY`, which has none to fail. -/
theorem noScheduleIsReported : Obligations.NoScheduleIsReported := fun s _ hp hk =>
  ⟨fun hi => exec_rejected hp (check_noKey hk hi), check_expandKey s⟩

open Sys2Proof Sys2Proof.Machine in
/-- Settles O20: with a schedule the length is the first check. -/
theorem badLengthIsReported : Obligations.BadLengthIsReported := fun _ _ hp hk hi =>
  checkBuffer_eq_len.symm.trans (exec_cbc_eq_reject_iff (e := .len) hi hp hk).symm

open Sys2Proof Sys2Proof.Machine in
/-- Settles O21: with whole blocks the range is the next check, and an empty buffer passes every check. -/
theorem rangePastTopIsReported : Obligations.RangePastTopIsReported := by
  intro s i hp hk hi hlen
  have hreject := exec_cbc_eq_reject_iff (e := .range) hi hp hk
  refine ⟨(checkBuffer_eq_range hlen).symm.trans hreject.symm, fun hzero h => ?_⟩
  have hrange := hreject.1 h
  rw [(bufferLegal_of_len_zero hzero).checkBuffer_eq_none] at hrange
  cases hrange

open Sys2Proof Sys2Proof.Machine in
/-- Settles O22: with whole blocks in bounds the overlap is the check left, and it is a byte in both ranges. -/
theorem partialOverlapIsReported : Obligations.PartialOverlapIsReported := by
  intro s i hp hk hi hlen hsrc hdst
  rw [← BitVec.toNat_ne_iff_ne]
  calc
    _ ↔ 0 < s.len.toNat ∧ s.src.toNat ≠ s.dst.toNat ∧ s.src.toNat < s.dst.toNat + s.len.toNat ∧
          s.dst.toNat < s.src.toNat + s.len.toNat :=
      and_congr_right fun hn => and_congr_right fun _ => exists_inRange_both hn
    _ ↔ _ := (checkBuffer_eq_overlap hlen hsrc hdst).symm
    _ ↔ _ := (exec_cbc_eq_reject_iff (e := .overlap) hi hp hk).symm

/-! An obedient host gets an answer: on track no internal step faults, and a turn that touches no racing and no unbacked byte
does not stop either (R80 (5), R241; log 10 to 12). -/

namespace Sys2Proof.Machine

/-! ### The core -/

/-- A CBC command in its place answers, whether or not its next request is backed (R75). -/
theorem moveCbc_answers {s : State} (h : CbcPlace s) (load : Block → Internal → Internal)
    (f : KeySchedule → Nat → Block → Block) (out cv' saved' : Block) :
    ∃ t, moveCbc load f out cv' saved' s = .next t := by
  cases h with
  | read hs hk =>
    simp only [moveCbc, hs, cbcRead, if_pos hk]
    split <;> exact ⟨_, rfl⟩
  | round hs _ hr =>
    simp only [moveCbc, hs]
    exact roundMove_answers hr f .write
  | write hs hk =>
    simp only [moveCbc, hs, cbcWrite, if_pos hk]
    split <;> exact ⟨_, rfl⟩
  | finish hs =>
    simp only [moveCbc, hs]
    exact ⟨_, rfl⟩

/-- An internal step of a command on track is no internal invariant failure (R241). -/
theorem Running.moveOf_answers {i : Instr} {s : State} (h : Running i s) (hb : s.phase = .busy) :
    ∃ t, moveOf i s = .next t := by
  by_cases hi : IsCbc i
  · obtain ⟨load, f, out, cv', saved', hmove⟩ := moveOf_cbc hi s
    rw [hmove]
    exact moveCbc_answers (commandOk_cbcPlace hi h.command) load f out cv' saved'
  · obtain ⟨t, ht, -⟩ := moveOf_nearer_of_commandOk hi hb h.curOp h.command
    exact ⟨t, ht⟩

theorem Inv.coreMove_answers {s : State} (h : Inv s) : ∃ t, coreMove s = .next t := by
  rcases phase_cases s with hp | hb
  · exact ⟨s, coreMove_idle hp⟩
  · obtain ⟨i, hr⟩ := h.running hb
    rw [coreMove_busy hb hr.curOp]
    exact hr.moveOf_answers hb

theorem Inv.advance_answers {s : State} (h : Inv s) (n : Nat) : ∃ t, advance n s = .next t := by
  induction n generalizing s with
  | zero => exact ⟨s, rfl⟩
  | succ n ih =>
    rcases phase_cases s with hp | hb
    · exact ⟨s, advance_idle hp _⟩
    · obtain ⟨t, ht⟩ := h.coreMove_answers
      rw [advance_busy hb, ht, andThen_next]
      exact ih (coreMove_inv h hb ht)

/-! ### The register port -/

theorem Inv.exec_answers {s : State} (h : Inv s) (i : Instr) : ∃ t, exec i s = .next t := by
  rcases phase_cases s with hp | hb
  · cases hc : check (opcode i) s with
    | some e => exact ⟨_, exec_rejected hp hc⟩
    | none =>
      rw [exec_eq_issue, issue_accepted hp hc]
      exact (started_inv h.memory hc).advance_answers _
  · rw [exec_eq_issue, issue_busy hb]
    exact h.advance_answers _

theorem Inv.regWriteTurn_answers {s : State} (h : Inv s) (off : Offset) (v : Word) :
    ∃ t, regWriteTurn exec off v s = .next t := by
  rcases phase_cases s with hp | hb
  · by_cases hoff : wordOffset off = 0
    · cases hop : decodeOp (opField v) with
      | some i =>
        rw [regWriteTurn_command hoff (decode_of_op hop)]
        exact h.exec_answers i
      | none => exact ⟨_, regWriteTurn_illegal hoff hop hp⟩
    · exact ⟨_, regWriteTurn_register hoff hp v⟩
  · rw [regWriteTurn_busy hb]
    exact h.advance_answers _

/-- The read of a poll keeps the invariant, whether or not it matches (R99). -/
theorem Inv.pollRead {s : State} (h : Inv s) (off : Offset) (mask value : Word) (n : Nat) :
    Inv (pollRead off mask value n s) := by
  by_cases hv : readReg off s &&& mask = value
  · rw [pollRead_match hv]
    exact h.port s.turns s.moves _ s.hostByte
  · rw [pollRead_mismatch hv]
    exact h.port _ s.moves _ s.hostByte

/-! ### Buffer memory -/

/-- Every byte the host access touches is no race and backed (R75, R80 (5)). -/
def Obeys (s : State) (act : HostAct) : Prop :=
  ∀ a, Touches act a → hostRace s a.toNat = false ∧ admitted s a.toNat = true

theorem obeys_of_turnObeys {s : State} {turn : Turn} {rest : List Turn} (hs : s.turns = turn :: rest)
    (h : turnObeys s = true) : Obeys s turn.act := by
  intro a ha
  rcases ha with hact | ⟨b, hact⟩ <;> simpa [turnObeys, hs, hact] using h

theorem hostMemRead_obedient {a : Address} {s : State} (h : Obeys s (.memRead a)) (go : State → Result) :
    hostMemRead a s go = go { s with hostByte := readByte s.mem a.toNat } := by
  obtain ⟨hrace, hadm⟩ := h a (.inl rfl)
  simp [hostMemRead, hrace, hadm]

theorem hostMemWrite_obedient {a : Address} {b : Byte} {s : State} (h : Obeys s (.memWrite a b)) (go : State → Result) :
    hostMemWrite a b s go = go { s with mem := writeByte s.mem a.toNat b } := by
  obtain ⟨hrace, hadm⟩ := h a (.inr ⟨b, rfl⟩)
  simp [hostMemWrite, hrace, hadm]

/-! ### The turn -/

theorem Inv.plainTurn_answers {s : State} (h : Inv s) {act : HostAct} (hact : Obeys s act) :
    ∃ t, plainTurn exec act s = .next t := by
  cases act with
  | quiet => exact h.advance_answers _
  | regRead off => exact (h.port s.turns s.moves (readReg off s) s.hostByte).advance_answers _
  | regWrite off v => exact h.regWriteTurn_answers off v
  | poll off mask value => exact (h.pollRead off mask value s.moves).advance_answers _
  | memRead a =>
    rw [plainTurn, hostMemRead_obedient hact]
    exact (h.port s.turns s.moves s.readData (readByte s.mem a.toNat)).advance_answers _
  | memWrite a b =>
    rw [plainTurn, hostMemWrite_obedient hact]
    exact (h.writeByte b (hact a (.inr ⟨b, rfl⟩)).1).advance_answers _

/-- A reset turn answers from every state: only its access to buffer memory could stop it (R270, R272; log 14). -/
theorem resetTurn_answers {s : State} {act : HostAct} (hact : Obeys s act) : ∃ t, resetTurn act s = .next t := by
  cases act with
  | memRead a =>
    rw [resetTurn, hostMemRead_obedient hact]
    exact ⟨_, rfl⟩
  | memWrite a b =>
    rw [resetTurn, hostMemWrite_obedient hact]
    exact ⟨_, rfl⟩
  | quiet | regRead off | regWrite off v | poll off mask value => exact ⟨_, rfl⟩

end Sys2Proof.Machine

open Sys2Proof Sys2Proof.Machine in
/-- Settles O37: with no turn waiting the core makes one internal step; otherwise the turn answers, with reset or without. -/
theorem obedientStepsAnswer : Obligations.ObedientStepsAnswer := by
  intro s hinv hobeys
  cases hs : s.turns with
  | nil =>
    rw [step_no_turn hs]
    exact hinv.coreMove_answers
  | cons x rest =>
    obtain ⟨rst, act, n⟩ := x
    have hact : Obeys { s with turns := rest, moves := n } act := obeys_of_turnObeys hs hobeys
    cases rst with
    | true =>
      rw [step_reset hs]
      exact resetTurn_answers hact
    | false =>
      rw [step_plain hs]
      exact (hinv.port rest n s.readData s.hostByte).plainTurn_answers hact

/-! What a reset leaves: the reset values at the register port (R270, R271), and buffer memory but for the output of a CBC
command in progress (R272). -/

namespace Sys2Proof.Machine

/-! ### The registers -/

/-- The host-visible registers hold their reset values (R271). -/
structure AtReset (s : State) : Prop where
  phase : s.phase = .idle
  done : s.done = false
  ksValid : s.ksValid = false
  err : s.err = 0
  src : s.src = 0
  dst : s.dst = 0
  len : s.len = 0
  key : s.key = Vector.replicate 8 0
  iv : s.iv = Vector.replicate 4 0
  din : s.din = Vector.replicate 4 0
  dout : s.dout = Vector.replicate 4 0

theorem atReset_reset : AtReset State.reset := ⟨rfl, rfl, rfl, rfl, rfl, rfl, rfl, rfl, rfl, rfl, rfl⟩

theorem atReset_resetCore (s : State) : AtReset (resetCore s) := ⟨rfl, rfl, rfl, rfl, rfl, rfl, rfl, rfl, rfl, rfl, rfl⟩

/-- Neither the host's turns nor what the host has read is core state (R272). -/
theorem AtReset.port {s : State} (h : AtReset s) (turns : List Turn) (readData : Word) :
    AtReset { s with turns := turns, readData := readData } :=
  ⟨h.phase, h.done, h.ksValid, h.err, h.src, h.dst, h.len, h.key, h.iv, h.din, h.dout⟩

theorem statusWord_eq_zero {s : State} (h : AtReset s) : statusWord s = 0 := by
  rw [statusWord, h.err, h.ksValid, h.done, busyBit_idle h.phase]
  rfl

/-- At their reset values all registers read 0, the KS window because `KS_VALID` is 0 (R37, R271). -/
theorem AtReset.readNamed {s : State} (h : AtReset s) (r : Reg) : readNamed r s = 0 := by
  cases r with
  | cmd | key m => rfl
  | status => exact statusWord_eq_zero h
  | src => exact h.src
  | dst => exact h.dst
  | len => exact h.len
  | iv m => simp only [Machine.readNamed, h.iv, Fin.getElem_fin, Vector.getElem_replicate]
  | din m => simp only [Machine.readNamed, h.din, Fin.getElem_fin, Vector.getElem_replicate]
  | dout m => simp only [Machine.readNamed, h.dout, Fin.getElem_fin, Vector.getElem_replicate]
  | ks w => simp only [Machine.readNamed, h.ksValid, Bool.false_eq_true, if_false]

theorem AtReset.readReg {s : State} (h : AtReset s) (off : Offset) : readReg off s = 0 := by
  cases hr : regAt off with
  | none => exact readReg_zero s (.inl hr)
  | some r => rw [readReg_mapped hr, h.readNamed]

theorem resetTurn_atReset {act : HostAct} {s t : State} (h : resetTurn act s = .next t) : AtReset t := by
  obtain ⟨u, turns, readData, -, rfl⟩ := resetTurn_next h
  exact (atReset_resetCore u).port turns readData

/-- A register read in a reset step gets the reset value (R270). -/
theorem resetTurn_regRead {off : Offset} {s t : State} (h : resetTurn (.regRead off) s = .next t) : t.readData = 0 := by
  cases h
  exact (atReset_resetCore s).readReg off

/-! ### Buffer memory -/

/-- A reset step without a host write leaves what a reset makes of buffer memory, whatever the host read in it. -/
theorem resetTurn_mem {act : HostAct} {s t : State} (hact : ∀ a b, act ≠ .memWrite a b)
    (h : resetTurn act s = .next t) : ∃ b, t.mem = memAfterReset { s with hostByte := b } := by
  cases act with
  | quiet | regRead off | regWrite off v => cases h; exact ⟨s.hostByte, rfl⟩
  | poll off mask value =>
    simp only [resetTurn, pollRead] at h
    split at h <;> cases h <;> exact ⟨s.hostByte, rfl⟩
  | memRead a =>
    simp only [resetTurn] at h
    cases hostMemRead_next h
    exact ⟨_, rfl⟩
  | memWrite a b => exact absurd rfl (hact a b)

/-- Only a CBC command in progress lets a reset change buffer memory (R272, R273). -/
theorem memAfterReset_of_not_cbcBusy {s : State} (h : cbcBusy s = false) : memAfterReset s = s.mem := by
  refine memAfterReset_other fun hp => Option.eq_none_iff_forall_ne_some.2 fun f hf => ?_
  obtain ⟨i, hi, hstep⟩ := Option.bind_eq_some_iff.1 hf
  rcases isCbc_of_cbcStepOf hstep with rfl | rfl <;> simp [cbcBusy, busyBit_busy hp, hi] at h

/-- An internal step of the core, idle or busy, writes output blocks alone (R72). -/
theorem OutputOnly.coreMove {s u v : State} (h : OutputOnly s u) (hc : coreMove u = .next v) : OutputOnly s v := by
  rcases phase_cases u with hp | hp
  · rw [coreMove_idle hp] at hc
    cases hc
    exact h
  · cases hop : decodeOp u.int.curOp with
    | none => simp [Machine.coreMove, hp, hop] at hc
    | some i => exact h.step (moveOf_movedBy (coreMove_busy hp hop ▸ hc))

theorem coast_outputOnly (n : Nat) {s : State} (hm : s.mem.wf = true) : OutputOnly s (coast n s) :=
  coast_induction (P := OutputOnly s) (fun _ _ hu hc => hu.coreMove hc) ⟨hm, .refl s, fun _ _ => rfl⟩

/-- The torn block is an output block (R273). -/
theorem readByte_tear {f : KeySchedule → Block → Block → Block × Block} {s : State} {a : Nat} (hm : s.mem.wf = true)
    (ha : OutsideOutput s a) : readByte (tear f s) a = readByte s.mem a := by
  simp only [tear]
  split
  · next hc =>
    obtain ⟨-, hk, -, hdst⟩ := hc
    rw [readByte_writeBlock hm (blockAdmitted_le hdst), if_neg (ha _ hk)]
  · rfl

/-- A reset changes no byte but those of the output blocks (R273). -/
theorem readByte_memAfterReset {s : State} {a : Nat} (hm : s.mem.wf = true) (ha : OutsideOutput s a) :
    readByte (memAfterReset s) a = readByte s.mem a := by
  unfold memAfterReset
  split
  · next f _ _ =>
    have hout := coast_outputOnly (Config.resetLag s.draws) hm
    rw [readByte_tear hout.memory (ha.congr hout.operands), hout.outside a ha]
  · rfl
  · rfl

end Sys2Proof.Machine

open Sys2Proof Sys2Proof.Machine in
/-- Settles O35: the core is idle, its memory empty and its error code 0. -/
theorem resetMeetsTheInvariant : Obligations.ResetMeetsTheInvariant :=
  .of_idle rfl reset_memory_wf (Nat.zero_le 5)

open Sys2Proof Sys2Proof.Machine in
/-- Settles O42, register by register. -/
theorem resetRegistersReadZero : Obligations.ResetRegistersReadZero :=
  ⟨atReset_reset.readReg, rfl, rfl, rfl⟩

open Sys2Proof Sys2Proof.Machine in
/-- Settles O43: whatever the turn does besides, the core is reset last, and only an access to memory could stop it. -/
theorem resetWins : Obligations.ResetWins := by
  refine ⟨?_, ?_⟩
  · rintro s t ⟨rst, act, n⟩ rest hs rfl h
    rw [step_reset hs] at h
    obtain ⟨hphase, hdone, hvalid, herr, hsrc, hdst, hlen, hkey, hiv, hdin, hdout⟩ := resetTurn_atReset h
    refine ⟨⟨hphase, hdone, hvalid, herr, hsrc, hdst, hlen, hkey, hiv, hdin, hdout⟩, ?_⟩
    rintro off rfl
    exact resetTurn_regRead h
  · rintro s ⟨rst, act, n⟩ rest hs rfl hread hwrite
    rw [step_reset hs]
    refine resetTurn_answers fun a ha => ?_
    rcases ha with hact | ⟨b, hact⟩
    · exact absurd hact (hread a)
    · exact absurd hact (hwrite a b)

open Sys2Proof Sys2Proof.Machine in
/-- Settles O44: a reset changes memory in the output blocks of a CBC command in progress alone, and those lie in the
destination range. -/
theorem resetKeepsMemory : Obligations.ResetKeepsMemory := by
  rintro s t ⟨rst, act, n⟩ rest hm hs rfl hact h
  rw [step_reset hs] at h
  obtain ⟨b, hmem⟩ := resetTurn_mem hact h
  rw [hmem]
  exact ⟨fun hcbc => memAfterReset_of_not_cbcBusy hcbc,
    fun a ha => readByte_memAfterReset hm (outsideOutput_of_inRange ha)⟩

/-! Reset during a CBC command: what is written is the start of the output that was pending, and the block in flight is torn
(R273). -/

namespace Sys2Proof.Machine

/-! ### Stored blocks, byte by byte -/

theorem storeBlocks_append (m : Memory) (a : Nat) (l l' : List Block) :
    storeBlocks m a (l ++ l') = storeBlocks (storeBlocks m a l) (a + 16 * l.length) l' := by
  induction l generalizing m a with
  | nil => rfl
  | cons b l ih =>
    rw [List.cons_append, storeBlocks, ih, List.length_cons,
      show a + 16 * (l.length + 1) = a + 16 + 16 * l.length by omega]
    rfl

@[simp] theorem length_loadBlocks (n : Nat) (m : Memory) (a : Nat) : (loadBlocks n m a).length = n := by
  induction n generalizing a with
  | zero => rfl
  | succ n ih => rw [loadBlocks, List.length_cons, ih]

theorem dstAddr_add (s : State) (k j : Nat) : dstAddr s (k + j) = dstAddr s k + 16 * j := by
  simp only [dstAddr]
  omega

section Stored

variable {m : Memory} {a : Nat} {bs : List Block} (hm : m.wf = true) (ha : a + 16 * bs.length ≤ Config.addressSpace)
include hm ha

/-- Byte `b` of stored block `j`. -/
theorem readByte_storeBlocks_getD {j b : Nat} (hj : j < bs.length) (hb : b < 16) (d : Block) :
    readByte (storeBlocks m a bs) (a + 16 * j + b) = (bs.getD j d).toList.getD b 0 := by
  induction bs generalizing m a j with
  | nil => cases hj
  | cons v rest ih =>
    rw [List.length_cons] at ha hj
    have hfit : a + 16 ≤ Config.addressSpace := by omega
    have hwf := writeBlock_wf (v := v) hm hfit
    rw [storeBlocks]
    cases j with
    | zero =>
      rw [readByte_storeBlocks hwf (by omega) (by omega), readByte_writeBlock hm hfit, if_pos (by omega),
        List.getD_cons_zero, show a + 16 * 0 + b - a = b by omega]
    | succ j =>
      rw [show a + 16 * (j + 1) + b = a + 16 + 16 * j + b by omega, ih hwf (by omega) (by omega), List.getD_cons_succ]

/-- The bytes past the stored blocks stay. -/
theorem readByte_storeBlocks_past {j b : Nat} (hj : bs.length ≤ j) :
    readByte (storeBlocks m a bs) (a + 16 * j + b) = readByte m (a + 16 * j + b) :=
  readByte_storeBlocks hm ha (by omega)

end Stored

/-! ### The internal steps -/

/-- The output blocks a CBC command with block step `f` has yet to write (R207, R208). -/
def pendingOutput (f : KeySchedule → Block → Block → Block × Block) (s : State) : List Block :=
  cbcChain (f s.ks) s.int.cv (loadBlocks (blockCount s - s.int.blockIndex) s.mem (srcAddr s s.int.blockIndex))

theorem length_pendingOutput (f : KeySchedule → Block → Block → Block × Block) (s : State) :
    (pendingOutput f s).length = blockCount s - s.int.blockIndex := by
  simp only [pendingOutput, length_cbcChain, length_loadBlocks]

/-- The block in hand is the first of them. -/
theorem pendingOutput_eq_cons {f : KeySchedule → Block → Block → Block × Block} {s : State}
    (hk : s.int.blockIndex < blockCount s) :
    ∃ rest, pendingOutput f s = (f s.ks s.int.cv (currentInput s)).1 :: rest := by
  obtain ⟨n, hn⟩ := Nat.exists_eq_add_of_lt hk
  rw [pendingOutput, show blockCount s - s.int.blockIndex = n + 1 by omega]
  exact ⟨_, rfl⟩

/-- What an internal step of a CBC command on track does to what it has yet to write: nothing, or it writes the block in hand
and chains on it, or it completes with no block left (R205). -/
inductive CbcStepped (f : KeySchedule → Block → Block → Block × Block) (s : State) : State → Prop
  | internal (j : Internal) (hcv : j.cv = s.int.cv) (hj : j.blockIndex = s.int.blockIndex) :
      CbcStepped f s { s with int := j }
  | store (j : Internal) (hk : s.int.blockIndex < blockCount s)
      (ha : blockAdmitted s (dstAddr s s.int.blockIndex) = true) (hcv : j.cv = (f s.ks s.int.cv (currentInput s)).2)
      (hj : j.blockIndex = s.int.blockIndex + 1) :
      CbcStepped f s { s with
        mem := writeBlock s.mem (dstAddr s s.int.blockIndex) (f s.ks s.int.cv (currentInput s)).1, int := j }
  | done (hk : s.int.blockIndex = blockCount s) : CbcStepped f s (complete s)

theorem moveCbc_cbcStepped {f : KeySchedule → Block → Block → Block × Block} {load : Block → Internal → Internal}
    {round : KeySchedule → Nat → Block → Block} {out cv' saved' : Block} {s t : State} (hl : StartsTransform load)
    (hcv : ∀ b j, (load b j).cv = j.cv) (hplace : CbcPlace s)
    (hstep : s.int.stage = .write → f s.ks s.int.cv (currentInput s) = (out, cv'))
    (h : moveCbc load round out cv' saved' s = .next t) : CbcStepped f s t := by
  cases hplace with
  | read hs =>
    simp only [moveCbc, hs] at h
    obtain ⟨-, rfl | rfl⟩ := cbcRead_next h
    · exact .internal t.int rfl rfl
    · exact .internal _ (hcv _ _) (hl.blockIndex _ _)
  | round hs =>
    simp only [moveCbc, hs] at h
    rcases roundMove_next h with ⟨-, rfl⟩ | ⟨-, rfl⟩
    · exact .internal _ rfl rfl
    · exact .internal _ rfl rfl
  | write hs =>
    simp only [moveCbc, hs] at h
    obtain ⟨hk, rfl | ⟨ha, rfl⟩⟩ := cbcWrite_next h
    · exact .internal t.int rfl rfl
    · have hout := hstep hs
      obtain rfl : (f s.ks s.int.cv (currentInput s)).1 = out := congrArg Prod.fst hout
      exact .store _ hk ha (congrArg Prod.snd hout).symm rfl
  | finish hs hk =>
    simp only [moveCbc, hs] at h
    cases h
    exact .done hk

theorem moveOf_cbcStepped {i : Instr} {f : KeySchedule → Block → Block → Block × Block} (hf : cbcStepOf i = some f)
    {s t : State} (h : commandOk i s = true) (hm : moveOf i s = .next t) : CbcStepped f s t := by
  have hplace := commandOk_cbcPlace (isCbc_of_cbcStepOf hf) h
  cases i with
  | cbcEncrypt =>
    cases hf
    exact moveCbc_cbcStepped startsTransform_encrypt (fun _ _ => rfl) hplace (cbcEncStep_write h)
      (moveOf_cbcEncrypt s ▸ hm)
  | cbcDecrypt =>
    cases hf
    exact moveCbc_cbcStepped startsTransform_decrypt (fun _ _ => rfl) hplace (cbcDecStep_write h)
      (moveOf_cbcDecrypt s ▸ hm)
  | expandKey | encryptBlock | decryptBlock => cases hf

/-- Writing the block in hand and chaining on it leaves the others pending (R205). -/
theorem pendingOutput_store {f : KeySchedule → Block → Block → Block × Block} {s : State} {j : Internal}
    (h : BufferLegal s) (hm : s.mem.wf = true) (hk : s.int.blockIndex < blockCount s)
    (ha : blockAdmitted s (dstAddr s s.int.blockIndex) = true)
    (hcv : j.cv = (f s.ks s.int.cv (currentInput s)).2) (hj : j.blockIndex = s.int.blockIndex + 1) :
    pendingOutput f s = (f s.ks s.int.cv (currentInput s)).1 :: pendingOutput f { s with
      mem := writeBlock s.mem (dstAddr s s.int.blockIndex) (f s.ks s.int.cv (currentInput s)).1, int := j } := by
  obtain ⟨n, hn⟩ := Nat.exists_eq_add_of_lt hk
  have hcount : blockCount s - s.int.blockIndex = n + 1 := by omega
  have hrest : blockCount s - (s.int.blockIndex + 1) = n := by omega
  have hload := loadBlocks_writeBlock_of_legal (n := n) h hm ha (by omega) (f s.ks s.int.cv (currentInput s)).1
  calc pendingOutput f s
      = (f s.ks s.int.cv (currentInput s)).1 :: cbcChain (f s.ks) (f s.ks s.int.cv (currentInput s)).2
          (loadBlocks n s.mem (srcAddr s (s.int.blockIndex + 1))) := by
        rw [pendingOutput, hcount]
        rfl
    _ = _ := by
        rw [← hload, ← hrest, ← hj, ← hcv]
        rfl

/-! ### What a CBC command has written when a reset stops it -/

/-- A running CBC command has passed its checks, so its operands are legal (R66, R242). -/
theorem bufferLegal_of_check {i : Instr} (hi : IsCbc i) {s : State} (h : check (opcode i) s = none) : BufferLegal s := by
  have hspace : Config.addressSpace = 2 ^ 32 := rfl
  have hbuffer : checkBuffer s.src.toNat s.dst.toNat s.len.toNat = none := by
    cases hk : s.ksValid with
    | true => rw [← check_cbc_eq_checkBuffer hi hk, h]
    | false =>
      rw [check_noKey hk (by rcases hi with rfl | rfl <;> simp)] at h
      cases h
  unfold checkBuffer at hbuffer
  split_ifs at hbuffer with hlen hrange hoverlap
  refine ⟨by omega, by omega, by omega, ?_⟩
  by_cases heq : s.src = s.dst
  · exact .inl heq
  · refine .inr fun a hboth => hoverlap ?_
    obtain ⟨hsrc, hdst⟩ := hboth
    rw [inRange_iff] at hsrc hdst
    exact ⟨by omega, BitVec.toNat_ne_iff_ne.2 heq, by omega, by omega⟩

theorem Running.bufferLegal {i : Instr} {s : State} (h : Running i s) (hi : IsCbc i) : BufferLegal s :=
  bufferLegal_of_check hi (decodeOp_eq_some h.curOp ▸ h.check)

theorem dstAddr_congr {s u : State} (h : OperandsKept s u) (k : Nat) : dstAddr u k = dstAddr s k := by
  simp only [dstAddr, h.dst]

/-- Since state `s` the CBC command `i` has written the blocks `written`, the first of those then pending: it is still
running, with the others pending, or it has completed. -/
inductive CbcWritten (i : Instr) (f : KeySchedule → Block → Block → Block × Block) (s u : State)
    (written : List Block) : Prop
  | running (hinv : Inv u) (hb : u.phase = .busy) (hop : decodeOp u.int.curOp = some i) (hops : OperandsKept s u)
      (hk : u.int.blockIndex = s.int.blockIndex + written.length)
      (hout : pendingOutput f s = written ++ pendingOutput f u)
      (hmem : u.mem = storeBlocks s.mem (dstAddr s s.int.blockIndex) written)
  | completed (hp : u.phase = .idle) (hout : pendingOutput f s = written)
      (hmem : u.mem = storeBlocks s.mem (dstAddr s s.int.blockIndex) written)

/-- An internal step of a running command may write one more block; after completion it writes none. -/
theorem CbcWritten.coreMove {i : Instr} {f : KeySchedule → Block → Block → Block × Block} (hf : cbcStepOf i = some f)
    {s u v : State} {written : List Block} (h : CbcWritten i f s u written) (hc : coreMove u = .next v) :
    ∃ written', CbcWritten i f s v written' := by
  cases h with
  | completed hp hout hmem =>
    rw [coreMove_idle hp] at hc
    cases hc
    exact ⟨written, .completed hp hout hmem⟩
  | running hinv hb hop hops hk hout hmem =>
    obtain ⟨i', hr⟩ := hinv.running hb
    obtain rfl : i' = i := Option.some.inj (hr.curOp.symm.trans hop)
    have hinv' := coreMove_inv hinv hb hc
    have hmoved := coreMove_moved hc
    have hops' := hops.trans hmoved.operands
    cases moveOf_cbcStepped hf hr.command (coreMove_busy hb hop ▸ hc) with
    | internal j hcv hj =>
      refine ⟨written, .running hinv' hb (hmoved.curOp hb ▸ hop) hops' (hj.trans hk) ?_ hmem⟩
      rw [hout]
      simp only [pendingOutput, hcv, hj]
      rfl
    | store j hk' ha hcv hj =>
      refine ⟨written ++ [(f u.ks u.int.cv (currentInput u)).1],
        .running hinv' hb (hmoved.curOp hb ▸ hop) hops' ?_ ?_ ?_⟩
      · simp only [hj, hk, List.length_append, List.length_singleton, Nat.add_assoc]
      · rw [hout, pendingOutput_store (hr.bufferLegal (isCbc_of_cbcStepOf hf)) hinv.memory hk' ha hcv hj,
          List.append_assoc, List.singleton_append]
      · rw [storeBlocks_append, ← hmem, ← dstAddr_add, ← hk, ← dstAddr_congr hops]
        rfl
    | done hk' =>
      have hnone : pendingOutput f u = [] := List.eq_nil_of_length_eq_zero (by rw [length_pendingOutput]; omega)
      exact ⟨written, .completed rfl (by rw [hout, hnone, List.append_nil]) hmem⟩

/-- At most one block goes to `a`, each byte of it the one there before or that of the first block of `rest`. -/
inductive Torn (m : Memory) (a : Nat) : List Block → List Block → Prop
  | none (rest : List Block) : Torn m a [] rest
  | one (v new : Block) (rest : List Block)
      (hv : ∀ b < 16, v.toList.getD b 0 = readByte m (a + b) ∨ v.toList.getD b 0 = new.toList.getD b 0) :
      Torn m a [v] (new :: rest)

theorem Torn.length_le {m : Memory} {a : Nat} {torn rest : List Block} (h : Torn m a torn rest) :
    torn.length ≤ 1 ∧ torn.length ≤ rest.length := by
  cases h <;> simp

theorem tornBlock_getD (d : Nat) (old new : Block) {b : Nat} (hb : b < 16) :
    (tornBlock d old new).toList.getD b 0 = old.toList.getD b 0 ∨
      (tornBlock d old new).toList.getD b 0 = new.toList.getD b 0 := by
  rw [toList_getD _ hb, toList_getD _ hb, toList_getD _ hb, tornBlock, tabulate_getElem]
  split
  · exact .inr rfl
  · exact .inl rfl

/-- Reset leaves the block in hand as it was, or tears it. -/
theorem tear_torn (f : KeySchedule → Block → Block → Block × Block) (s : State) :
    ∃ torn, Torn s.mem (dstAddr s s.int.blockIndex) torn (pendingOutput f s) ∧
      tear f s = storeBlocks s.mem (dstAddr s s.int.blockIndex) torn := by
  simp only [tear]
  split
  · next hc =>
    obtain ⟨rest, hrest⟩ := pendingOutput_eq_cons (f := f) hc.2.1
    refine ⟨[_], ?_, rfl⟩
    rw [hrest]
    refine .one _ _ _ fun b hb => ?_
    have htorn := tornBlock_getD s.draws (readBlock s.mem (dstAddr s s.int.blockIndex))
      (f s.ks s.int.cv (currentInput s)).1 hb
    rw [toList_getD (readBlock _ _) hb, readBlock_getElem] at htorn
    exact htorn
  · exact ⟨[], .none _, rfl⟩

/-- An idle core has no block in flight. -/
theorem tear_idle {s : State} (hp : s.phase = .idle) (f : KeySchedule → Block → Block → Block × Block) :
    tear f s = s.mem :=
  if_neg fun hc => by rw [hp] at hc; cases hc.1

theorem Torn.congr {m m' : Memory} {a : Nat} {torn rest : List Block} (h : Torn m a torn rest)
    (hm : ∀ b < 16, readByte m (a + b) = readByte m' (a + b)) : Torn m' a torn rest := by
  cases h with
  | none => exact .none rest
  | one v new rest hv => exact .one v new rest fun b hb => hm b hb ▸ hv b hb

/-- The pending output of a CBC command on track fits into the address space (R245). -/
theorem Running.output_fits {i : Instr} {f : KeySchedule → Block → Block → Block × Block} {s : State} (h : Running i s)
    (hi : IsCbc i) : dstAddr s s.int.blockIndex + 16 * (pendingOutput f s).length ≤ Config.addressSpace := by
  have hspace : Config.addressSpace = 2 ^ 32 := rfl
  have hend := (h.bufferLegal hi).dstEnd
  have hcount := blockCount_le s
  have hk : s.int.blockIndex ≤ blockCount s := by
    cases commandOk_cbcPlace hi h.command <;> omega
  rw [length_pendingOutput, dstAddr]
  omega

/-- After a reset in a CBC command, buffer memory holds the start of the output that was pending, and in the next block's
place at most a torn one (R273). -/
theorem memAfterReset_torn {i : Instr} {f : KeySchedule → Block → Block → Block × Block} (hf : cbcStepOf i = some f)
    {s : State} (hinv : Inv s) (hb : s.phase = .busy) (hop : decodeOp s.int.curOp = some i) :
    ∃ written torn rest, pendingOutput f s = written ++ rest ∧
      Torn s.mem (dstAddr s s.int.blockIndex + 16 * written.length) torn rest ∧
      memAfterReset s = storeBlocks s.mem (dstAddr s s.int.blockIndex) (written ++ torn) := by
  obtain ⟨i', hr⟩ := hinv.running hb
  obtain rfl : i' = i := Option.some.inj (hr.curOp.symm.trans hop)
  have hfits := hr.output_fits (f := f) (isCbc_of_cbcStepOf hf)
  obtain ⟨written, hwritten⟩ : ∃ written, CbcWritten i' f s (coast (Config.resetLag s.draws) s) written :=
    coast_induction (P := fun u => ∃ written, CbcWritten i' f s u written) (fun _ _ ⟨_, hu⟩ hc => hu.coreMove hf hc)
      ⟨[], .running hinv hb hop (.refl s) rfl rfl rfl⟩
  rw [memAfterReset_cbc hb (Option.bind_eq_some_iff.2 ⟨i', hop, hf⟩)]
  cases hwritten with
  | completed hp hout hmem =>
    refine ⟨written, [], [], by rw [hout, List.append_nil], .none _, ?_⟩
    rw [tear_idle hp, hmem, List.append_nil]
  | running _ _ _ hops hk hout hmem =>
    obtain ⟨torn, htorn, htear⟩ := tear_torn f (coast (Config.resetLag s.draws) s)
    rw [dstAddr_congr hops, hk, dstAddr_add] at htorn htear
    refine ⟨written, torn, _, hout, htorn.congr fun b _ => ?_, ?_⟩
    · rw [hout, List.length_append] at hfits
      rw [hmem]
      exact readByte_storeBlocks_past hinv.memory (by omega) le_rfl
    · rw [htear, hmem, storeBlocks_append]

/-! ### The bytes after a reset -/

/-- The torn block, too, lies where output was pending. -/
theorem Torn.fits {m : Memory} {a : Nat} {written torn rest : List Block}
    (htorn : Torn m (a + 16 * written.length) torn rest)
    (ha : a + 16 * (written ++ rest).length ≤ Config.addressSpace) :
    a + 16 * (written ++ torn).length ≤ Config.addressSpace := by
  have hle := htorn.length_le
  rw [List.length_append] at ha ⊢
  omega

section Bytes

variable {m : Memory} {a : Nat} {written torn rest : List Block} (hm : m.wf = true)
  (ha : a + 16 * (written ++ rest).length ≤ Config.addressSpace) (htorn : Torn m (a + 16 * written.length) torn rest)
include hm ha htorn

/-- A block before the torn one is new. -/
theorem Torn.readByte_before {j b : Nat} (hj : j < written.length) (hb : b < 16) (d : Block) :
    readByte (storeBlocks m a (written ++ torn)) (a + 16 * j + b) =
      ((written ++ rest).getD j d).toList.getD b 0 := by
  rw [readByte_storeBlocks_getD hm (htorn.fits ha) (by rw [List.length_append]; omega) hb d,
    List.getD_append _ _ _ _ hj, List.getD_append _ _ _ _ hj]

/-- Each byte in the torn block's place is old or new. -/
theorem Torn.readByte_at {b : Nat} (hb : b < 16) (d : Block) :
    readByte (storeBlocks m a (written ++ torn)) (a + 16 * written.length + b) =
        readByte m (a + 16 * written.length + b) ∨
      readByte (storeBlocks m a (written ++ torn)) (a + 16 * written.length + b) =
        ((written ++ rest).getD written.length d).toList.getD b 0 := by
  have hfits := htorn.fits ha
  cases htorn with
  | none => exact .inl (readByte_storeBlocks_past hm hfits (by simp))
  | one v new rest hv =>
    rw [readByte_storeBlocks_getD hm hfits (by simp) hb d, List.getD_append_right _ _ _ _ le_rfl,
      List.getD_append_right _ _ _ _ le_rfl, Nat.sub_self]
    exact hv b hb

/-- A block after the torn one is old. -/
theorem Torn.readByte_after {j b : Nat} (hj : written.length < j) :
    readByte (storeBlocks m a (written ++ torn)) (a + 16 * j + b) = readByte m (a + 16 * j + b) := by
  have hle := htorn.length_le
  exact readByte_storeBlocks_past hm (htorn.fits ha) (by rw [List.length_append]; omega)

/-- A byte outside the blocks that were pending is old. -/
theorem Torn.readByte_outside {x : Nat}
    (hx : ∀ j < (written ++ rest).length, ¬(a + 16 * j ≤ x ∧ x < a + 16 * j + 16)) :
    readByte (storeBlocks m a (written ++ torn)) x = readByte m x := by
  have hle := htorn.length_le
  refine readByte_storeBlocks hm (htorn.fits ha) fun hin => hx ((x - a) / 16) ?_ ?_
  · rw [List.length_append] at hin ⊢
    omega
  · omega

end Bytes

end Sys2Proof.Machine

open Sys2Proof Sys2Proof.Machine in
/-- Settles O45: internal steps write the pending output block by block, so a reset finds a number of its blocks written, and
tears no block but the next. -/
theorem resetDuringCbcLeavesAPrefix : Obligations.ResetDuringCbcLeavesAPrefix := by
  intro s t i f n rest hinv hb hop hf hs h k outs
  have hinv' : Inv { s with turns := rest, moves := n } := hinv.port rest n s.readData s.hostByte
  obtain ⟨i', hr⟩ := hinv'.running hb
  obtain rfl : i' = i := Option.some.inj (hr.curOp.symm.trans hop)
  obtain ⟨written, torn, pending, hout, htorn, hmem⟩ := memAfterReset_torn hf hinv' hb hop
  have hfits := hr.output_fits (f := f) (isCbc_of_cbcStepOf hf)
  have hlen := length_pendingOutput f { s with turns := rest, moves := n }
  have houts : outs = written ++ pending := hout
  rw [hout] at hfits hlen
  rw [step_reset hs] at h
  cases h
  rw [resetCore_mem, hmem]
  refine ⟨rfl, rfl, rfl, ⟨written.length, ?_, fun j hj b hb16 => ?_⟩, fun a ha => ?_⟩
  · rw [List.length_append] at hlen
    exact hlen ▸ Nat.le_add_right _ _
  · simp only [dstAddr_add, houts]
    refine ⟨fun hlt => ?_, ?_, fun hgt => ?_⟩
    · exact htorn.readByte_before hinv.memory hfits hlt hb16 _
    · rintro rfl
      exact htorn.readByte_at hinv.memory hfits hb16 _
    · exact htorn.readByte_after hinv.memory hfits hgt
  · exact htorn.readByte_outside hinv.memory hfits fun j hj => dstAddr_add s k j ▸ ha j (hlen ▸ hj)
